-- ==== Sys2Proof/Word.lean ====
section
/-! DEFINITION. The word types of the A2J engine (R13): every quantity is unsigned and fixed width. -/

namespace Sys2Proof

/-- A byte, the unit of the wire and of the PayloadBuffer (R13). -/
abbrev Byte := BitVec 8

/-- The 16-bit diagnostic line number and read-result bus (R30, R133). -/
abbrev Half := BitVec 16

/-- The 32-bit absolute offset of the Many sub-protocol (R35, R99). -/
abbrev Offset := BitVec 32

end Sys2Proof
end

