-- ==== Sys2Proof/Config.lean ====
section
/-! DEFINITION. What an implementation fixes (R8 to R12, R36 to R40) and the free values.

The source gives no number for any protocol constant, so every one of them is a field of `Config`, held by the
machine's state and never written by it; `Config.ref` is the reference configuration CFG_REF of R12.
The `opaque` constants at the end are the values the spec leaves free: they have no body, so nothing can be proved
of their value. -/

namespace Sys2Proof

/-- NATIVE_ENDIAN, the byte order of the Many offset on the wire (R11, R73). -/
inductive Endian where
  | little
  | big
deriving DecidableEq, Repr

/-- A Bounded handler reference, an entry of `JT` (R36): the three handlers the core exposes, or an application
handler, whose body is outside the engine (R5). -/
inductive BoundedHandler where
  | echo
  | getmap
  | many
  | app (id : Byte)
deriving DecidableEq, Repr

/-- A Chunked handler reference, an entry of `CT` (R37): the property table, a byte array of `size` bytes whose store
begins at `base` of the handlers' own store (R230), or an application handler. -/
inductive ChunkedHandler where
  | props
  | blob (base size : BitVec 40) (writable : Bool)
  | app (id : Byte)
deriving DecidableEq, Repr

/-- The configuration record (R8 to R12, R40): constants and read-only tables, fixed before reset. `N` and `M` are the
lengths of `jt` and `ct`; `RET_OK` is the constant 0 of R10. -/
structure Config where
  sof : Byte
  sos : Byte
  esc : Byte
  crcCmd : Byte
  crcLen : Byte
  retFail : Byte
  retOob : Byte
  retTimeout : Byte
  retChecksum : Byte
  timeoutWindow : Nat
  nativeEndian : Endian
  isLastBit : Fin 8
  isWriteBit : Fin 8
  rdTimeout : Half
  rdEscErr : Half
  lineCmd : Half
  lineOob : Half
  lineLen : Half
  linePayload : Half
  lineCsumRd : Half
  lineCsumBad : Half
  lineManyOob : Half
  hasSif : Bool
  hasMany : Bool
  hasNames : Bool
  hasProps : Bool
  manyOffset : Byte
  jt : List BoundedHandler
  names : List (List Byte)
  ct : List ChunkedHandler
  props : List (List Byte × List Byte)
deriving DecidableEq, Repr

namespace Config

/-- `CAP`, the PayloadBuffer capacity (R11, R32). -/
abbrev cap : Nat := 255

/-- `H`, the size of the ManyHeader (R11, R99). -/
abbrev header : Nat := 6

/-- `CHUNK_MAX = CAP - H` (R11). -/
abbrev chunkMax : Nat := 249

/-- `RET_OK`, the success return code (R10, D19). -/
abbrev retOk : Byte := 0

/-- `N`, the size of the command table (R11). -/
def tableSize (c : Config) : Nat := c.jt.length

/-- `M`, the size of the Chunked sub-table (R11). -/
def chunkedSize (c : Config) : Nat := c.ct.length

/-- The reserved set `RSV`: `SOS` belongs to it only when `HAS_SIF` (R9, D5). -/
def reserved (c : Config) (b : Byte) : Bool :=
  b == c.sof || b == c.esc || (c.hasSif && b == c.sos)

/-- The seven site values, in the order of the table of R258. -/
def lines (c : Config) : List Half :=
  [c.lineCmd, c.lineOob, c.lineLen, c.linePayload, c.lineCsumRd, c.lineCsumBad, c.lineManyOob]

/-- Markers and escape byte: pairwise distinct, and `b - 1` outside `RSV` for every reserved `b` (R8). -/
def markersLegal (c : Config) : Bool :=
  c.sof != c.sos && c.sof != c.esc && c.sos != c.esc &&
  !c.reserved (c.sof - 1) && !c.reserved (c.esc - 1) && (!c.hasSif || !c.reserved (c.sos - 1))

/-- The checksum constants (R10, R157, D26). -/
def checksumLegal (c : Config) : Bool :=
  c.crcCmd != 0 && c.crcLen != 0 && c.crcCmd != c.crcLen

/-- Return codes pairwise distinct, `RET_OK = 0` among them (R10, U1). -/
def codesLegal (c : Config) : Bool :=
  decide [retOk, c.retFail, c.retOob, c.retTimeout, c.retChecksum].Nodup

/-- The read sentinels lie outside the byte range and differ (R133). -/
def sentinelsLegal (c : Config) : Bool :=
  decide (255 < c.rdTimeout.toNat) && decide (255 < c.rdEscErr.toNat) && c.rdTimeout != c.rdEscErr

/-- The tables agree with their sizes and with the feature toggles (R11, R36 to R39, R303, U1). -/
def tablesLegal (c : Config) : Bool :=
  decide (c.jt.length ≤ 256) && decide (c.ct.length ≤ 256) &&
  c.isLastBit != c.isWriteBit &&
  (!c.hasMany || c.jt[c.manyOffset.toNat]? == some .many) &&
  (c.hasMany || (!c.jt.contains .many && c.ct.isEmpty)) &&
  (c.hasNames || !c.jt.contains .getmap) &&
  (!c.hasNames || (c.names.length == c.jt.length && c.names.all (fun n => !n.contains 0))) &&
  (c.hasProps || !c.ct.contains .props) &&
  (!c.hasProps || c.props.all (fun p => !p.1.contains 0 && !p.2.contains 0))

/-- A legal configuration (R8 to R11); the model refuses every other one (U1). -/
def legal (c : Config) : Bool :=
  c.markersLegal && c.checksumLegal && c.codesLegal && c.sentinelsLegal && c.tablesLegal

/-- `CFG_REF`, the reference configuration (R12). -/
def ref : Config where
  sof := 0x12
  sos := 0x14
  esc := 0x7D
  crcCmd := 0x0B
  crcLen := 0x61
  retFail := 0x01
  retOob := 0xF0
  retTimeout := 0xF2
  retChecksum := 0xF3
  timeoutWindow := 50
  nativeEndian := .little
  isLastBit := 0
  isWriteBit := 1
  rdTimeout := 0x0100
  rdEscErr := 0x0200
  lineCmd := 0x0102
  lineOob := 0x0106
  lineLen := 0x010C
  linePayload := 0x0112
  lineCsumRd := 0x0118
  lineCsumBad := 0x011C
  lineManyOob := 0x0122
  hasSif := true
  hasMany := true
  hasNames := true
  hasProps := true
  manyOffset := 1
  jt := [.getmap, .many, .echo, .echo, .echo]
  names := [[0x6D, 0x61, 0x70], [0x6D, 0x61, 0x6E, 0x79], [0x65, 0x63, 0x68, 0x6F],
    [0x65, 0x63, 0x68, 0x6F, 0x32], [0x65, 0x63, 0x68, 0x6F, 0x33]]
  ct := [.props, .blob 0 300 true]
  props := [([0x66, 0x77], [0x61, 0x32, 0x6A]), ([0x76, 0x65, 0x72], [0x37])]

/-! ### Free values -/

/-- What PayloadBuffer byte `addr` holds when nothing has written it since reset number `epoch`: a draw fixed at that
reset (R45, U9). -/
opaque bufDraw (epoch addr : Nat) : Byte

/-- The draw of an 8-bit register that RESET leaves unspecified (R45, R300, U9). -/
opaque freeByte (n : Nat) : Byte

/-- The draw of the 16-bit register `LINE` at RESET (R45, U9). -/
opaque freeHalf (n : Nat) : Half

/-- The draw of the 32-bit register `MOFF` at RESET (R45, U9). -/
opaque freeOffset (n : Nat) : Offset

/-- An application Bounded handler as a function of its own state, the length and the whole buffer (R203): its new
own state, return code, new length and new buffer content. -/
opaque appBounded (id : Byte) (hstate : Nat) (len : Byte) (buf : List Byte) :
    Nat × Byte × Byte × List Byte

/-- An application Chunked handler as a function of its own state and its arguments (R224): its new own state, return
value, isLast, offset, chunk length and new chunk content. -/
opaque appChunked (id : Byte) (hstate : Nat) (isLast isWrite : Bool) (off : Offset) (clen : Byte)
    (chunk : List Byte) : Nat × Byte × Bool × Offset × Byte × List Byte

end Config

end Sys2Proof
end

