-- ==== Sys2Proof/Syntax.lean ====
section
/-! DEFINITION. The instructions: one constructor per row of spec/opcode_table.json, and the coding layers their
words belong to (R90).

The table's rows are of thirteen formats, and the same byte value means different things in different formats (`0x01`
is a command offset, a Chunked index, a return code, a flags byte and a sequencer state), so a word is read in a layer. -/

namespace Sys2Proof

/-- The start marker a frame is sent with (R93, R176). -/
inductive Marker where
  | sof
  | sos
deriving DecidableEq, Repr

/-- The three reserved return codes of an ErrorFrame (R97, R255). -/
inductive ErrCode where
  | oob
  | timeout
  | checksum
deriving DecidableEq, Repr

/-- The coding layer a word is read in: the `format` column of the opcode table, with the frames split by direction
(the table's note: REQ and REPLY are told apart by direction). -/
inductive Layer where
  /-- formats raw8 and raw16: bytes as `T.rx()` returns them (R91, R92) -/
  | raw
  /-- format frame, host to device: the logical bytes of a request (R95) -/
  | hostFrame
  /-- format frame, device to host: the logical bytes of a reply, ErrorFrame or SIF (R96 to R98) -/
  | deviceFrame
  /-- format payload48, request ManyHeader and chunk (R99) -/
  | manyRequest
  /-- format payload48, reply ManyHeader and chunk (R100) -/
  | manyReply
  /-- format flag8, ManyHeader byte 1 (R223) -/
  | manyFlags
  /-- format cmd8, the command offset (R103) -/
  | command
  /-- format idx8, the Chunked index (R103) -/
  | manyIndex
  /-- format ret8, a return code (R104) -/
  | returnCode
  /-- format rd16, the read-result bus (R133) -/
  | readResult
  /-- format fp3, the sequencer state (R21) -/
  | fpState
  /-- format line16, an error-exit site (R258) -/
  | site
  /-- format operation: an operation of the block (R18) with its operands -/
  | operation
deriving DecidableEq, Repr

/-- The instructions. Operand names are the table's field names. -/
inductive Instr where
  -- raw byte classes (R91, R92)
  | rawSof
  | rawSos
  | rawEscpair (x : Byte)
  | rawPlain (v : Byte)
  -- frames (R95 to R98); the length field is the payload's length
  | frameReq (seq cmd : Byte) (payload : List Byte) (csum : Byte)
  | frameReply (seq ret : Byte) (payload : List Byte) (csum : Byte)
  | frameErrOob (seq : Byte) (line : Half) (csum : Byte)
  | frameErrTimeout (seq : Byte) (line : Half) (csum : Byte)
  | frameErrChecksum (seq : Byte) (line : Half) (csum : Byte)
  | frameSif (seq cmd : Byte) (payload : List Byte) (csum : Byte)
  -- the ManyHeader and its flags byte (R99, R100, R223)
  | manyhdrReq (idx flags : Byte) (off : Offset) (chunk : List Byte)
  | manyhdrReply (r flags : Byte) (off : Offset) (chunk : List Byte)
  | manyflagIslast (flags : Byte)
  | manyflagIswrite (flags : Byte)
  -- command offsets (R103, R166)
  | cmdGetmap0
  | cmdMany1
  | cmdEcho2
  | cmdEcho3
  | cmdEcho4
  | cmdOob (cmd : Byte)
  -- Chunked indices (R103, R222)
  | manyidxProps0
  | manyidxBlob1
  | manyidxOob (idx : Byte)
  -- return codes (R104)
  | retOk
  | retFail
  | retOob
  | retTimeout
  | retChecksum
  -- read results (R133)
  | rdByte (v : Byte)
  | rdTimeout
  | rdEscerr
  -- sequencer states (R21)
  | fpIdle
  | fpReadSeq
  | fpReadCmdOffset
  | fpReadLength
  | fpReadPayload
  | fpReadChecksum
  | fpDispatch
  | fpSendReply
  -- error-exit sites (R258)
  | siteLineCmd
  | siteLineOob
  | siteLineLen
  | siteLinePayload
  | siteLineCsumRd
  | siteLineCsumBad
  | siteLineManyOob
  -- operations (R18)
  | opRawrd
  | opDec
  | opEnc (b : Byte)
  | opCsum (seq c : Byte) (data : List Byte)
  | opPoll
  | opSendframe (m : Marker) (seq c : Byte) (data : List Byte)
  | opDispatch (c : Byte)
  | opHcallB (h : BoundedHandler)
  | opEcho
  | opGetmap
  | opMany
  | opHcallC (h : ChunkedHandler) (isLast isWrite : Bool) (off : Offset) (clen : Byte)
  | opProps (isLast isWrite : Bool) (off : Offset) (clen : Byte)
  | opChBlob (base size : BitVec 40) (writable isLast isWrite : Bool) (off : Offset) (clen : Byte)
  | opTas
  | opRel
  | opSifsend (c : Byte) (data : List Byte)
  | opErrframe (code : ErrCode) (seq : Byte) (line : Half)
  | opReset
deriving DecidableEq, Repr

end Sys2Proof
end

