-- ==== Sys2Proof/Machine/Checksum.lean ====
section
/-! DEFINITION. The XOR checksum of a frame (R150 to R159), in its pure form. -/

namespace Sys2Proof.Machine

/-- The command or return-code term of the checksum, `trunc8(c + CRC_CMD)` (R150). -/
def codeTerm (c : Config) (x : Byte) : Byte := x + c.crcCmd

/-- The length term of the checksum, `trunc8(len + CRC_LEN)` (R150). -/
def lengthTerm (c : Config) (len : Byte) : Byte := len + c.crcLen

/-- The accumulator after each byte of `data` has been XOR-ed into it (R152). -/
def xorBytes (acc : Byte) (data : List Byte) : Byte := data.foldl (fun a b => a ^^^ b) acc

/-- `CSUM(seq, c, len, data)` (R150). -/
def checksum (c : Config) (seq x len : Byte) (data : List Byte) : Byte :=
  xorBytes (seq ^^^ codeTerm c x ^^^ lengthTerm c len) data

/-- The length byte of a payload (R93). -/
def lengthByte (data : List Byte) : Byte := BitVec.ofNat 8 data.length

/-- The checksum of a frame whose payload is `data`: R150 with the payload's own length. -/
def frameChecksum (c : Config) (seq x : Byte) (data : List Byte) : Byte :=
  checksum c seq x (lengthByte data) data

/-- The high byte of a diagnostic line, by shift and mask, never modulo 255 (R72, R159, R257). -/
def lineHigh (line : Half) : Byte := (line >>> 8).setWidth 8

/-- The low byte of a diagnostic line (R72, R257). -/
def lineLow (line : Half) : Byte := line.setWidth 8

/-- The two payload bytes of an ErrorFrame, high byte first (R72, R97). -/
def lineBytes (line : Half) : List Byte := [lineHigh line, lineLow line]

/-- The return code an ErrorFrame carries (R97). -/
def errByte (c : Config) : ErrCode → Byte
  | .oob => c.retOob
  | .timeout => c.retTimeout
  | .checksum => c.retChecksum

end Sys2Proof.Machine
end

