-- ==== Sys2Proof/WellFormed.lean ====
section
/-! DEFINITION. Which instructions are well formed under a configuration: the operand is one the row's encoding admits,
and the instruction is the one its words are read as. -/

namespace Sys2Proof

/-- The payload fits the one-byte length field (R93). -/
def payloadFits (data : List Byte) : Bool := decide (data.length ≤ Config.cap)

/-- The chunk fits behind a ManyHeader (R99). -/
def chunkFits (chunk : List Byte) : Bool := decide (chunk.length ≤ Config.chunkMax)

/-- The code is one of the three reserved return codes (R104). -/
def reservedCode (c : Config) (r : Byte) : Bool :=
  r == c.retOob || r == c.retTimeout || r == c.retChecksum

/-- The words of a reply a host takes for an ErrorFrame: a reserved code and length 2 (R106). -/
def looksLikeError (c : Config) (ret : Byte) (payload : List Byte) : Bool :=
  reservedCode c ret && payload.length == 2

/-- The checksum byte an ErrorFrame carries (R97, R151). -/
def errorChecksum (c : Config) (code : ErrCode) (seq : Byte) (line : Half) : Byte :=
  Machine.frameChecksum c seq (Machine.errByte c code) (Machine.lineBytes line)

/-- No earlier site of R258 has the value of site `k` (the seven values need not be distinct). -/
def siteIsFirst (c : Config) (k : Nat) : Bool :=
  match c.lines[k]? with
  | some line => !(c.lines.take k).contains line
  | none => false

/-- A well-formed instruction under configuration `c`. -/
def Instr.wellFormed (c : Config) : Instr → Bool
  | .rawSof => true
  | .rawSos => c.hasSif
  | .rawEscpair _ => true
  | .rawPlain v => !c.reserved v
  | .frameReq _ _ payload _ => payloadFits payload
  | .frameReply seq ret payload csum =>
    payloadFits payload && !looksLikeError c ret payload && csum == Machine.frameChecksum c seq ret payload
  | .frameErrOob seq line csum => csum == errorChecksum c .oob seq line
  | .frameErrTimeout seq line csum => csum == errorChecksum c .timeout seq line
  | .frameErrChecksum seq line csum => csum == errorChecksum c .checksum seq line
  | .frameSif seq cmd payload csum =>
    c.hasSif && payloadFits payload && csum == Machine.frameChecksum c seq cmd payload
  | .manyhdrReq _ _ _ chunk => chunkFits chunk
  | .manyhdrReply _ _ _ chunk => chunkFits chunk
  | .manyflagIslast flags => flags.getLsbD c.isLastBit
  | .manyflagIswrite flags => flags.getLsbD c.isWriteBit && !flags.getLsbD c.isLastBit
  | .cmdGetmap0 => decide (0 < c.tableSize)
  | .cmdMany1 => decide (1 < c.tableSize)
  | .cmdEcho2 => decide (2 < c.tableSize)
  | .cmdEcho3 => decide (3 < c.tableSize)
  | .cmdEcho4 => decide (4 < c.tableSize)
  | .cmdOob cmd => decide (c.tableSize ≤ cmd.toNat)
  | .manyidxProps0 => decide (0 < c.chunkedSize)
  | .manyidxBlob1 => decide (1 < c.chunkedSize)
  | .manyidxOob idx => decide (c.chunkedSize ≤ idx.toNat)
  | .retOk => true
  | .retFail => true
  | .retOob => true
  | .retTimeout => true
  | .retChecksum => true
  | .rdByte _ => true
  | .rdTimeout => true
  | .rdEscerr => true
  | .fpIdle => true
  | .fpReadSeq => true
  | .fpReadCmdOffset => true
  | .fpReadLength => true
  | .fpReadPayload => true
  | .fpReadChecksum => true
  | .fpDispatch => true
  | .fpSendReply => true
  | .siteLineCmd => siteIsFirst c 0
  | .siteLineOob => siteIsFirst c 1
  | .siteLineLen => siteIsFirst c 2
  | .siteLinePayload => siteIsFirst c 3
  | .siteLineCsumRd => siteIsFirst c 4
  | .siteLineCsumBad => siteIsFirst c 5
  | .siteLineManyOob => siteIsFirst c 6
  | .opRawrd => true
  | .opDec => true
  | .opEnc _ => true
  | .opCsum _ _ data => payloadFits data
  | .opPoll => true
  | .opSendframe _ _ _ data => payloadFits data
  | .opDispatch _ => true
  | .opHcallB _ => true
  | .opEcho => true
  | .opGetmap => true
  | .opMany => true
  | .opHcallC _ _ _ _ clen => decide (clen.toNat ≤ Config.chunkMax)
  | .opProps _ _ _ clen => decide (clen.toNat ≤ Config.chunkMax)
  | .opChBlob _ _ _ _ _ _ clen => decide (clen.toNat ≤ Config.chunkMax)
  | .opTas => true
  | .opRel => true
  | .opSifsend _ data => payloadFits data
  | .opErrframe _ _ _ => true
  | .opReset => true

end Sys2Proof
end

