-- ==== Sys2Proof/Decode.lean ====
section
/-! DEFINITION. The decoder, total on any bytes and rejecting by name, and the encoder, both written from the encodings
of 30_encoding.md and the opcode table. A word is read in a layer (R90); a table row's number has its first byte in its
most significant position. -/

namespace Sys2Proof

/-- Why a word is not an instruction. -/
inductive DecodeError where
  /-- no bytes at all -/
  | empty
  /-- bytes are missing: `ESC` alone, or a frame shorter than its length field says -/
  | truncated
  /-- bytes are left over after the instruction -/
  | trailing
  /-- the first byte of a frame is no start marker of that direction (R91, R95) -/
  | notAMarker
  /-- a legal byte of its layer for which the opcode table has no row -/
  | noTableRow
  /-- a Many payload longer than one frame carries (R99) -/
  | tooLong
  /-- the result-bus value is neither a byte nor a sentinel (R133) -/
  | notAReadResult
  /-- an operation number the block does not have -/
  | noSuchOperation
  /-- operand bytes of an operation that stand for nothing -/
  | badOperand
deriving DecidableEq, Repr

/-! ### Byte order -/

/-- Two bytes, high byte first (DEDUCED, entry 4). -/
def join16 (a b : Byte) : Half := a ++ b

/-- The two bytes of a half word, high byte first (DEDUCED, entry 4). -/
def split16 (x : Half) : List Byte := [x.extractLsb' 8 8, x.extractLsb' 0 8]

/-- Four bytes, most significant first. -/
def join32 (a b c d : Byte) : Offset := a ++ b ++ c ++ d

/-- The four bytes of an offset, most significant first. -/
def split32 (x : Offset) : List Byte :=
  [x.extractLsb' 24 8, x.extractLsb' 16 8, x.extractLsb' 8 8, x.extractLsb' 0 8]

/-- Five bytes, most significant first. -/
def join40 (a b c d e : Byte) : BitVec 40 := a ++ b ++ c ++ d ++ e

/-- Five bytes of a 40-bit store address or size, most significant first. -/
def split40 (x : BitVec 40) : List Byte :=
  [x.extractLsb' 32 8, x.extractLsb' 24 8, x.extractLsb' 16 8, x.extractLsb' 8 8, x.extractLsb' 0 8]

/-- The Many offset from header bytes 2 to 5 in `NATIVE_ENDIAN` (R73, R101d). -/
def joinOffset (e : Endian) (b2 b3 b4 b5 : Byte) : Offset :=
  match e with
  | .little => join32 b5 b4 b3 b2
  | .big => join32 b2 b3 b4 b5

/-- Header bytes 2 to 5 of a Many offset in `NATIVE_ENDIAN` (R73, R107 `bytes32`). -/
def splitOffset (e : Endian) (x : Offset) : List Byte :=
  match e with
  | .little => (split32 x).reverse
  | .big => split32 x

/-- A Boolean operand of an operation. -/
def splitBool (b : Bool) : Byte := if b then 1 else 0

/-- A Boolean operand read back. -/
def joinBool (b : Byte) : Except DecodeError Bool :=
  if b = 0 then .ok false else if b = 1 then .ok true else .error .badOperand

/-! ### The layers -/

/-- Layer 0: the raw byte classes and the escape pair (R91, R92). -/
def decodeRaw (c : Config) : List Byte → Except DecodeError Instr
  | [] => .error .empty
  | [b] =>
    if b = c.sof then .ok .rawSof
    else if c.hasSif && b == c.sos then .ok .rawSos
    else if b = c.esc then .error .truncated
    else .ok (.rawPlain b)
  | [b, x] => if b = c.esc then .ok (.rawEscpair x) else .error .trailing
  | _ => .error .trailing

/-- The logical bytes after a start marker: sequence, code, length, payload, checksum (R93). -/
def parseBody : List Byte → Except DecodeError (Byte × Byte × List Byte × Byte)
  | seq :: x :: len :: rest =>
    match rest.drop len.toNat with
    | [] => .error .truncated
    | [csum] => .ok (seq, x, rest.take len.toNat, csum)
    | _ => .error .trailing
  | _ => .error .truncated

/-- A request frame (R95). -/
def decodeHostFrame (c : Config) : List Byte → Except DecodeError Instr
  | [] => .error .empty
  | m :: body =>
    if m = c.sof then
      match parseBody body with
      | .error e => .error e
      | .ok (seq, cmd, payload, csum) => .ok (.frameReq seq cmd payload csum)
    else .error .notAMarker

/-- A `SOF` frame from the device: an ErrorFrame when its code is reserved and its length 2, else a reply (R96, R97,
R106). -/
def deviceSofFrame (c : Config) (seq ret : Byte) (payload : List Byte) (csum : Byte) : Instr :=
  match payload with
  | [hi, lo] =>
    if ret = c.retOob then .frameErrOob seq (join16 hi lo) csum
    else if ret = c.retTimeout then .frameErrTimeout seq (join16 hi lo) csum
    else if ret = c.retChecksum then .frameErrChecksum seq (join16 hi lo) csum
    else .frameReply seq ret payload csum
  | _ => .frameReply seq ret payload csum

/-- A frame from the device (R96 to R98). -/
def decodeDeviceFrame (c : Config) : List Byte → Except DecodeError Instr
  | [] => .error .empty
  | m :: body =>
    match parseBody body with
    | .error e => .error e
    | .ok (seq, x, payload, csum) =>
      if m = c.sof then .ok (deviceSofFrame c seq x payload csum)
      else if c.hasSif && m == c.sos then .ok (.frameSif seq x payload csum)
      else .error .notAMarker

/-- A request ManyHeader with its chunk (R99). -/
def decodeManyRequest (c : Config) : List Byte → Except DecodeError Instr
  | idx :: flags :: b2 :: b3 :: b4 :: b5 :: chunk =>
    if chunk.length ≤ Config.chunkMax then
      .ok (.manyhdrReq idx flags (joinOffset c.nativeEndian b2 b3 b4 b5) chunk)
    else .error .tooLong
  | _ => .error .truncated

/-- A reply ManyHeader with its chunk (R100). -/
def decodeManyReply (c : Config) : List Byte → Except DecodeError Instr
  | r :: flags :: b2 :: b3 :: b4 :: b5 :: chunk =>
    if chunk.length ≤ Config.chunkMax then
      .ok (.manyhdrReply r flags (joinOffset c.nativeEndian b2 b3 b4 b5) chunk)
    else .error .tooLong
  | _ => .error .truncated

/-- The flags byte: the row of the first flag that is set (R223); the table has no row for a byte with neither. -/
def decodeManyFlags (c : Config) : List Byte → Except DecodeError Instr
  | [] => .error .empty
  | [f] =>
    if f.getLsbD c.isLastBit then .ok (.manyflagIslast f)
    else if f.getLsbD c.isWriteBit then .ok (.manyflagIswrite f)
    else .error .noTableRow
  | _ => .error .trailing

/-- The command offset (R103, R166): the five rows of CFG_REF's table, and the reserved space `c >= N`. -/
def decodeCommand (c : Config) : List Byte → Except DecodeError Instr
  | [] => .error .empty
  | [b] =>
    if c.tableSize ≤ b.toNat then .ok (.cmdOob b)
    else match b.toNat with
      | 0 => .ok .cmdGetmap0
      | 1 => .ok .cmdMany1
      | 2 => .ok .cmdEcho2
      | 3 => .ok .cmdEcho3
      | 4 => .ok .cmdEcho4
      | _ => .error .noTableRow
  | _ => .error .trailing

/-- The Chunked index (R103, R222). -/
def decodeManyIndex (c : Config) : List Byte → Except DecodeError Instr
  | [] => .error .empty
  | [b] =>
    if c.chunkedSize ≤ b.toNat then .ok (.manyidxOob b)
    else match b.toNat with
      | 0 => .ok .manyidxProps0
      | 1 => .ok .manyidxBlob1
      | _ => .error .noTableRow
  | _ => .error .trailing

/-- A return code (R104); the other values belong to application handlers and have no row. -/
def decodeReturnCode (c : Config) : List Byte → Except DecodeError Instr
  | [] => .error .empty
  | [b] =>
    if b = Config.retOk then .ok .retOk
    else if b = c.retFail then .ok .retFail
    else if b = c.retOob then .ok .retOob
    else if b = c.retTimeout then .ok .retTimeout
    else if b = c.retChecksum then .ok .retChecksum
    else .error .noTableRow
  | _ => .error .trailing

/-- A value of the 16-bit read-result bus (R133). -/
def decodeReadResult (c : Config) : List Byte → Except DecodeError Instr
  | [] => .error .empty
  | [_] => .error .truncated
  | [hi, lo] =>
    if hi = 0 then .ok (.rdByte lo)
    else if join16 hi lo = c.rdTimeout then .ok .rdTimeout
    else if join16 hi lo = c.rdEscErr then .ok .rdEscerr
    else .error .notAReadResult
  | _ => .error .trailing

/-- The 3-bit sequencer state (R21). -/
def decodeFpState : List Byte → Except DecodeError Instr
  | [] => .error .empty
  | [b] =>
    match b.toNat with
    | 0 => .ok .fpIdle
    | 1 => .ok .fpReadSeq
    | 2 => .ok .fpReadCmdOffset
    | 3 => .ok .fpReadLength
    | 4 => .ok .fpReadPayload
    | 5 => .ok .fpReadChecksum
    | 6 => .ok .fpDispatch
    | 7 => .ok .fpSendReply
    | _ => .error .noTableRow
  | _ => .error .trailing

/-- An error-exit site, the first of R258's table that has the value. -/
def decodeSite (c : Config) : List Byte → Except DecodeError Instr
  | [] => .error .empty
  | [_] => .error .truncated
  | [hi, lo] =>
    let line := join16 hi lo
    if line = c.lineCmd then .ok .siteLineCmd
    else if line = c.lineOob then .ok .siteLineOob
    else if line = c.lineLen then .ok .siteLineLen
    else if line = c.linePayload then .ok .siteLinePayload
    else if line = c.lineCsumRd then .ok .siteLineCsumRd
    else if line = c.lineCsumBad then .ok .siteLineCsumBad
    else if line = c.lineManyOob then .ok .siteLineManyOob
    else .error .noTableRow
  | _ => .error .trailing

/-! ### Operations

The spec gives an operation no wire pattern ("an operation of the block, not a wire pattern"), so their numbers and
operand bytes are the model's own: the operations in the table's order are numbered 0 to 18. DESIGN CHOICE, entry 5;
safe: nothing on the wire reads them. -/

/-- A Bounded handler reference and the bytes after it. -/
def parseBounded : List Byte → Except DecodeError (BoundedHandler × List Byte)
  | k :: rest =>
    match k.toNat, rest with
    | 0, _ => .ok (.echo, rest)
    | 1, _ => .ok (.getmap, rest)
    | 2, _ => .ok (.many, rest)
    | 3, id :: rest => .ok (.app id, rest)
    | 3, [] => .error .truncated
    | _, _ => .error .badOperand
  | [] => .error .truncated

/-- The bytes of a Bounded handler reference. -/
def boundedBytes : BoundedHandler → List Byte
  | .echo => [0]
  | .getmap => [1]
  | .many => [2]
  | .app id => [3, id]

/-- Store base, size and writable bit of a blob operand, and the bytes after them. -/
def parseBlob : List Byte → Except DecodeError (BitVec 40 × BitVec 40 × Bool × List Byte)
  | a :: b :: c :: d :: e :: f :: g :: h :: i :: j :: w :: rest =>
    match joinBool w with
    | .error err => .error err
    | .ok writable => .ok (join40 a b c d e, join40 f g h i j, writable, rest)
  | _ => .error .truncated

/-- The bytes of a blob operand. -/
def blobBytes (base size : BitVec 40) (writable : Bool) : List Byte :=
  split40 base ++ split40 size ++ [splitBool writable]

/-- A Chunked handler reference and the bytes after it. -/
def parseChunked : List Byte → Except DecodeError (ChunkedHandler × List Byte)
  | k :: rest =>
    match k.toNat, rest with
    | 0, _ => .ok (.props, rest)
    | 1, _ =>
      match parseBlob rest with
      | .error e => .error e
      | .ok (base, size, writable, rest) => .ok (.blob base size writable, rest)
    | 2, id :: rest => .ok (.app id, rest)
    | 2, [] => .error .truncated
    | _, _ => .error .badOperand
  | [] => .error .truncated

/-- The bytes of a Chunked handler reference. -/
def chunkedBytes : ChunkedHandler → List Byte
  | .props => [0]
  | .blob base size writable => 1 :: blobBytes base size writable
  | .app id => [2, id]

/-- The arguments of a Chunked call: isLast, isWrite, offset, chunk length (R224). -/
def parseCall : List Byte → Except DecodeError (Bool × Bool × Offset × Byte)
  | [l, w, b2, b3, b4, b5, clen] =>
    match joinBool l, joinBool w with
    | .ok isLast, .ok isWrite => .ok (isLast, isWrite, join32 b2 b3 b4 b5, clen)
    | _, _ => .error .badOperand
  | _ => .error .badOperand

/-- The bytes of a Chunked call's arguments. -/
def callBytes (isLast isWrite : Bool) (off : Offset) (clen : Byte) : List Byte :=
  [splitBool isLast, splitBool isWrite] ++ split32 off ++ [clen]

/-- A marker operand. -/
def markerByte : Marker → Byte
  | .sof => 0
  | .sos => 1

/-- A marker operand read back. -/
def parseMarker (b : Byte) : Except DecodeError Marker :=
  if b = 0 then .ok .sof else if b = 1 then .ok .sos else .error .badOperand

/-- An error-code operand. -/
def codeByte : ErrCode → Byte
  | .oob => 0
  | .timeout => 1
  | .checksum => 2

/-- An error-code operand read back. -/
def parseCode (b : Byte) : Except DecodeError ErrCode :=
  if b = 0 then .ok .oob else if b = 1 then .ok .timeout else if b = 2 then .ok .checksum
  else .error .badOperand

/-- An operation that takes no operand. -/
def noOperand (i : Instr) : List Byte → Except DecodeError Instr
  | [] => .ok i
  | _ => .error .trailing

/-- A length byte and exactly that many bytes. -/
def parseData : List Byte → Except DecodeError (List Byte)
  | [] => .error .truncated
  | len :: data =>
    if data.length < len.toNat then .error .truncated
    else if len.toNat < data.length then .error .trailing
    else .ok data

/-- `OP.ENC b`. -/
def decodeEnc : List Byte → Except DecodeError Instr
  | [] => .error .truncated
  | [b] => .ok (.opEnc b)
  | _ => .error .trailing

/-- `OP.CSUM seq c data`. -/
def decodeCsum : List Byte → Except DecodeError Instr
  | seq :: x :: rest =>
    match parseData rest with
    | .error e => .error e
    | .ok data => .ok (.opCsum seq x data)
  | _ => .error .truncated

/-- `OP.SENDFRAME m seq c data`. -/
def decodeSendframe : List Byte → Except DecodeError Instr
  | m :: seq :: x :: rest =>
    match parseMarker m, parseData rest with
    | .ok marker, .ok data => .ok (.opSendframe marker seq x data)
    | .error e, _ => .error e
    | _, .error e => .error e
  | _ => .error .truncated

/-- `OP.DISPATCH c`. -/
def decodeDispatch : List Byte → Except DecodeError Instr
  | [] => .error .truncated
  | [b] => .ok (.opDispatch b)
  | _ => .error .trailing

/-- `OP.HCALL_B h`. -/
def decodeHcallB (bs : List Byte) : Except DecodeError Instr :=
  match parseBounded bs with
  | .error e => .error e
  | .ok (h, rest) => noOperand (.opHcallB h) rest

/-- `OP.HCALL_C h isLast isWrite off clen`. -/
def decodeHcallC (bs : List Byte) : Except DecodeError Instr :=
  match parseChunked bs with
  | .error e => .error e
  | .ok (h, rest) =>
    match parseCall rest with
    | .error e => .error e
    | .ok (isLast, isWrite, off, clen) => .ok (.opHcallC h isLast isWrite off clen)

/-- `OP.PROPS isLast isWrite off clen`. -/
def decodeProps (bs : List Byte) : Except DecodeError Instr :=
  match parseCall bs with
  | .error e => .error e
  | .ok (isLast, isWrite, off, clen) => .ok (.opProps isLast isWrite off clen)

/-- `OP.CH_BLOB base size writable isLast isWrite off clen`. -/
def decodeChBlob (bs : List Byte) : Except DecodeError Instr :=
  match parseBlob bs with
  | .error e => .error e
  | .ok (base, size, writable, rest) =>
    match parseCall rest with
    | .error e => .error e
    | .ok (isLast, isWrite, off, clen) => .ok (.opChBlob base size writable isLast isWrite off clen)

/-- `OP.SIFSEND c data`. -/
def decodeSifsend : List Byte → Except DecodeError Instr
  | x :: rest =>
    match parseData rest with
    | .error e => .error e
    | .ok data => .ok (.opSifsend x data)
  | _ => .error .truncated

/-- `OP.ERRFRAME code seq line`. -/
def decodeErrframe : List Byte → Except DecodeError Instr
  | [k, seq, hi, lo] =>
    match parseCode k with
    | .error e => .error e
    | .ok code => .ok (.opErrframe code seq (join16 hi lo))
  | bs => if bs.length < 4 then .error .truncated else .error .trailing

/-- An operation of the block (R18). -/
def decodeOperation : List Byte → Except DecodeError Instr
  | [] => .error .empty
  | k :: rest =>
    match k.toNat with
    | 0 => noOperand .opRawrd rest
    | 1 => noOperand .opDec rest
    | 2 => decodeEnc rest
    | 3 => decodeCsum rest
    | 4 => noOperand .opPoll rest
    | 5 => decodeSendframe rest
    | 6 => decodeDispatch rest
    | 7 => decodeHcallB rest
    | 8 => noOperand .opEcho rest
    | 9 => noOperand .opGetmap rest
    | 10 => noOperand .opMany rest
    | 11 => decodeHcallC rest
    | 12 => decodeProps rest
    | 13 => decodeChBlob rest
    | 14 => noOperand .opTas rest
    | 15 => noOperand .opRel rest
    | 16 => decodeSifsend rest
    | 17 => decodeErrframe rest
    | 18 => noOperand .opReset rest
    | _ => .error .noSuchOperation

/-- The instruction that bytes `bs` stand for in layer `l` under configuration `c`. -/
def decode (c : Config) (l : Layer) (bs : List Byte) : Except DecodeError Instr :=
  match l with
  | .raw => decodeRaw c bs
  | .hostFrame => decodeHostFrame c bs
  | .deviceFrame => decodeDeviceFrame c bs
  | .manyRequest => decodeManyRequest c bs
  | .manyReply => decodeManyReply c bs
  | .manyFlags => decodeManyFlags c bs
  | .command => decodeCommand c bs
  | .manyIndex => decodeManyIndex c bs
  | .returnCode => decodeReturnCode c bs
  | .readResult => decodeReadResult c bs
  | .fpState => decodeFpState bs
  | .site => decodeSite c bs
  | .operation => decodeOperation bs

/-! ### The encoder -/

/-- The layer an instruction's words belong to (the table's `format` column). -/
def layerOf : Instr → Layer
  | .rawSof | .rawSos | .rawEscpair _ | .rawPlain _ => .raw
  | .frameReq .. => .hostFrame
  | .frameReply .. | .frameErrOob .. | .frameErrTimeout .. | .frameErrChecksum .. | .frameSif .. => .deviceFrame
  | .manyhdrReq .. => .manyRequest
  | .manyhdrReply .. => .manyReply
  | .manyflagIslast _ | .manyflagIswrite _ => .manyFlags
  | .cmdGetmap0 | .cmdMany1 | .cmdEcho2 | .cmdEcho3 | .cmdEcho4 | .cmdOob _ => .command
  | .manyidxProps0 | .manyidxBlob1 | .manyidxOob _ => .manyIndex
  | .retOk | .retFail | .retOob | .retTimeout | .retChecksum => .returnCode
  | .rdByte _ | .rdTimeout | .rdEscerr => .readResult
  | .fpIdle | .fpReadSeq | .fpReadCmdOffset | .fpReadLength | .fpReadPayload | .fpReadChecksum | .fpDispatch
  | .fpSendReply => .fpState
  | .siteLineCmd | .siteLineOob | .siteLineLen | .siteLinePayload | .siteLineCsumRd | .siteLineCsumBad
  | .siteLineManyOob => .site
  | .opRawrd | .opDec | .opEnc _ | .opCsum .. | .opPoll | .opSendframe .. | .opDispatch _ | .opHcallB _ | .opEcho
  | .opGetmap | .opMany | .opHcallC .. | .opProps .. | .opChBlob .. | .opTas | .opRel | .opSifsend .. | .opErrframe ..
  | .opReset => .operation

/-- The logical bytes of a frame (R93). -/
def frameBytes (m seq x : Byte) (payload : List Byte) (csum : Byte) : List Byte :=
  m :: seq :: x :: Machine.lengthByte payload :: (payload ++ [csum])

/-- A length byte and its data, as an operation's operand. -/
def dataBytes (data : List Byte) : List Byte := Machine.lengthByte data :: data

/-- The bytes of an instruction in its layer, under configuration `c`. -/
def encode (c : Config) : Instr → List Byte
  | .rawSof => [c.sof]
  | .rawSos => [c.sos]
  | .rawEscpair x => [c.esc, x]
  | .rawPlain v => [v]
  | .frameReq seq cmd payload csum => frameBytes c.sof seq cmd payload csum
  | .frameReply seq ret payload csum => frameBytes c.sof seq ret payload csum
  | .frameErrOob seq line csum => frameBytes c.sof seq c.retOob (split16 line) csum
  | .frameErrTimeout seq line csum => frameBytes c.sof seq c.retTimeout (split16 line) csum
  | .frameErrChecksum seq line csum => frameBytes c.sof seq c.retChecksum (split16 line) csum
  | .frameSif seq cmd payload csum => frameBytes c.sos seq cmd payload csum
  | .manyhdrReq idx flags off chunk => [idx, flags] ++ splitOffset c.nativeEndian off ++ chunk
  | .manyhdrReply r flags off chunk => [r, flags] ++ splitOffset c.nativeEndian off ++ chunk
  | .manyflagIslast flags => [flags]
  | .manyflagIswrite flags => [flags]
  | .cmdGetmap0 => [0]
  | .cmdMany1 => [1]
  | .cmdEcho2 => [2]
  | .cmdEcho3 => [3]
  | .cmdEcho4 => [4]
  | .cmdOob cmd => [cmd]
  | .manyidxProps0 => [0]
  | .manyidxBlob1 => [1]
  | .manyidxOob idx => [idx]
  | .retOk => [Config.retOk]
  | .retFail => [c.retFail]
  | .retOob => [c.retOob]
  | .retTimeout => [c.retTimeout]
  | .retChecksum => [c.retChecksum]
  | .rdByte v => [0, v]
  | .rdTimeout => split16 c.rdTimeout
  | .rdEscerr => split16 c.rdEscErr
  | .fpIdle => [0]
  | .fpReadSeq => [1]
  | .fpReadCmdOffset => [2]
  | .fpReadLength => [3]
  | .fpReadPayload => [4]
  | .fpReadChecksum => [5]
  | .fpDispatch => [6]
  | .fpSendReply => [7]
  | .siteLineCmd => split16 c.lineCmd
  | .siteLineOob => split16 c.lineOob
  | .siteLineLen => split16 c.lineLen
  | .siteLinePayload => split16 c.linePayload
  | .siteLineCsumRd => split16 c.lineCsumRd
  | .siteLineCsumBad => split16 c.lineCsumBad
  | .siteLineManyOob => split16 c.lineManyOob
  | .opRawrd => [0]
  | .opDec => [1]
  | .opEnc b => [2, b]
  | .opCsum seq x data => [3, seq, x] ++ dataBytes data
  | .opPoll => [4]
  | .opSendframe m seq x data => [5, markerByte m, seq, x] ++ dataBytes data
  | .opDispatch x => [6, x]
  | .opHcallB h => 7 :: boundedBytes h
  | .opEcho => [8]
  | .opGetmap => [9]
  | .opMany => [10]
  | .opHcallC h isLast isWrite off clen => 11 :: (chunkedBytes h ++ callBytes isLast isWrite off clen)
  | .opProps isLast isWrite off clen => 12 :: callBytes isLast isWrite off clen
  | .opChBlob base size writable isLast isWrite off clen =>
    13 :: (blobBytes base size writable ++ callBytes isLast isWrite off clen)
  | .opTas => [14]
  | .opRel => [15]
  | .opSifsend x data => [16, x] ++ dataBytes data
  | .opErrframe code seq line => [17, codeByte code, seq] ++ split16 line
  | .opReset => [18]

/-! ### From logical bytes to raw bytes -/

/-- The raw bytes of one logical byte: itself, or `ESC` and `b - 1` when it is reserved (R92, R135). -/
def escapeByte (c : Config) (b : Byte) : List Byte := if c.reserved b then [c.esc, b - 1] else [b]

/-- The raw bytes of a frame body (R94). -/
def escapeBody (c : Config) (body : List Byte) : List Byte := body.flatMap (escapeByte c)

/-- The raw bytes of a frame: the marker raw, every later byte escape-coded (R94). -/
def escapeFrame (c : Config) : List Byte → List Byte
  | [] => []
  | m :: body => m :: escapeBody c body

/-! ### The opcode table's numbers -/

/-- The bytes of a table row's number: `n` bytes, the first in the most significant position. -/
def tableBytes : Nat → Nat → List Byte
  | 0, _ => []
  | n + 1, w => tableBytes n (w / 256) ++ [BitVec.ofNat 8 w]

/-- The layer and the complete bytes a table row's number is read as under CFG_REF. A row's bits alone do not say its
format, so where several formats have rows with the same bits one is chosen, in this order: raw markers, commands,
sequencer states, return codes, raw bytes; rows of two bytes and of four are unambiguous. Operand bytes the row gives no
bits are zero. DESIGN CHOICE, entry 4; safe. -/
def tableWord (bytes : List Byte) : Layer × List Byte :=
  let c := Config.ref
  match bytes with
  | [b] =>
    if b = c.sof ∨ b = c.sos then (.raw, [b])
    else if b = c.esc then (.raw, [b, 0])
    else if b.toNat < c.tableSize then (.command, [b])
    else if b.toNat < 8 then (.fpState, [b])
    else if reservedCode c b then (.returnCode, [b])
    else (.raw, [b])
  | [a, b] =>
    if a = c.esc then (.raw, [a, b])
    else if a = 0 ∨ join16 a b = c.rdTimeout ∨ join16 a b = c.rdEscErr then (.readResult, [a, b])
    else (.site, [a, b])
  | [m, seq, ret, len] => (.deviceFrame, [m, seq, ret, len] ++ List.replicate (len.toNat + 1) 0)
  | [_, _, _, _, _, _] => (.manyRequest, bytes)
  | _ => (.operation, bytes)

/-- The instruction the decoder reads from a table row's number. -/
def decodeTableWord (nbits w : Nat) : Option Instr :=
  let word := tableWord (tableBytes ((nbits + 7) / 8) w)
  match decode Config.ref word.1 word.2 with
  | .ok i => some i
  | .error _ => none

end Sys2Proof
end

