-- ==== Sys2Proof/Machine/State.lean ====
section
/-! DEFINITION. The state of the A2J engine and of what it is attached to, the reasons a step can stop, and the state
after reset (10_state.md, 20_memory.md R70, 70_reset_and_hazards.md). -/

namespace Sys2Proof.Machine

/-- Why the machine stops with a fault. -/
inductive Fault where
  /-- An application Chunked handler answered more than 249 chunk bytes (R225, U4: the model faults). Raised by the
  Chunked call of `MANY` and `HCALL_C`. Safe: the spec's own treatment of a broken contract. -/
  | chunkTooLong
  /-- A payload byte was to be stored at PayloadBuffer address 255, which does not exist (R32, R78). Raised by the
  receive path when its index register was changed from outside in the middle of an exchange. Safe. -/
  | bufferAddress
deriving DecidableEq, Repr

/-- Why the model gives an instruction no meaning. -/
inductive Refusal where
  /-- The instruction has no meaning yet. No arm of `exec` answers it. Safe. -/
  | notModelled (mnemonic : String)
  /-- The configuration breaks a constraint of R8 to R11 (U1: refuse). Raised by `step`. Safe. -/
  | illegalConfig
  /-- The word on the operation port is no instruction of its layer. Raised by `step`. Safe. -/
  | undecodable (e : DecodeError)
  /-- A data operand longer than 255 bytes, or a chunk longer than 249 (U18: refuse; R224). Raised by the meanings that
  take data operands. Safe. -/
  | operandTooLong
  /-- The operation belongs to a feature the configuration leaves out (R220, R229, R243: it exists only when the
  toggle is set). Raised by the Many family, `PROPS`, `GETMAP` and `SIFSEND`. Safe. -/
  | featureAbsent
deriving DecidableEq, Repr

/-- The eight states of the Frame Processor, the engine's program counter (R21). -/
inductive Fp where
  | idle
  | readSeq
  | readCmdOffset
  | readLength
  | readPayload
  | readChecksum
  | dispatch
  | sendReply
deriving DecidableEq, Repr

/-- The 3-bit encoding of a sequencer state, in a byte (R21). -/
def Fp.code : Fp → Byte
  | .idle => 0
  | .readSeq => 1
  | .readCmdOffset => 2
  | .readLength => 3
  | .readPayload => 4
  | .readChecksum => 5
  | .dispatch => 6
  | .sendReply => 7

/-- The result of a read (R16). -/
inductive RdResult where
  | byte (v : Byte)
  | timeout
  | escError
deriving DecidableEq, Repr

/-- Why a poll was a no-op (R181). -/
inductive NoOpReason where
  | notReady
  | noByte
  | busy
  | notSof
deriving DecidableEq, Repr

/-- The status of a poll (R181). -/
inductive PollStatus where
  | noOp (why : NoOpReason)
  | silentAbort
  | errorSent (code : Byte) (line : Half)
  | errorCutShort (code : Byte) (line : Half)
  | replied
  | replyCutShort
deriving DecidableEq, Repr

/-- The result of sending a frame (R176, R243). -/
inductive SendResult where
  | sent
  | busy
  | cutShort
deriving DecidableEq, Repr

/-- What the last completed operation returned: the model's result port (R181, D30). -/
inductive Result where
  | none
  | read (r : RdResult)
  | flag (ok : Bool)
  | sum (b : Byte)
  | poll (st : PollStatus)
  | send (r : SendResult)
  | handler (ret len : Byte)
  | chunked (ret : Byte) (isLast : Bool) (off : Offset) (clen : Byte)
deriving DecidableEq, Repr

/-- An event of the receive side (R70): a byte arrives; a whole timeout window passes without one; or, finer than a
`gap`, no byte arrives before the next `T.task()` (R131). -/
inductive RxEvent where
  | byte (v : Byte)
  | gap
  | quiet
deriving DecidableEq, Repr

/-- An event of the transmit side (R70): a byte enqueued, or a flush. -/
inductive TxEvent where
  | byte (b : Byte)
  | flush
deriving DecidableEq, Repr

/-- A `SIFSEND` past its `TAS`: the sequence number it took and the caller's operands (R243, R247). -/
structure SifJob where
  seq : Byte
  cmd : Byte
  data : List Byte
deriving DecidableEq, Repr

/-- What the outside does, one entry a step (R275, R282, R283, R305). -/
inductive Input where
  /-- a word on the operation port: it is decoded in its layer and executed -/
  | word (layer : Layer) (bytes : List Byte)
  /-- nothing: the operation in progress takes its next micro-step, or the caller polls an idle engine -/
  | run
  /-- the SIF trigger, with the caller's command byte and data (R243, R275) -/
  | sif (cmd : Byte) (data : List Byte)
  /-- the link goes up or down (R42, R63) -/
  | link (up : Bool)
  /-- bytes arrive, or fail to, behind what is already queued (R70) -/
  | arrive (events : List RxEvent)
  /-- time passes outside any wait, between frames (R64, R182) or between two micro-steps inside one: a leading `gap` or
  `quiet` is over, in a frame too with no Timeout (DESIGN CHOICE, entry 8) -/
  | elapse
  /-- the success or failure of the next `T.tx` calls on a link that is up (R66, R245, U13) -/
  | answers (ok : List Bool)
deriving DecidableEq, Repr

/-- A byte memory: address and byte pairs, addresses strictly rising. -/
abbrev Memory := List Host.Cell

/-- The PayloadBuffer (R32): the bytes written since the reset numbered `epoch`. Any other byte is the draw of that
reset (R45, U9). -/
structure PayloadBuffer where
  cells : Memory
  epoch : Nat
deriving DecidableEq, Repr

/-- The whole state. -/
structure State where
  /-- the configuration, never written (R36 to R41) -/
  cfg : Config
  -- the sequencer (R21, R22)
  fp : Fp
  idx : Byte
  -- frame registers (R24 to R30)
  seq : Byte
  seqv : Bool
  cmd : Byte
  len : Byte
  csum : Byte
  ret : Byte
  line : Half
  -- timeout counter (R31)
  tcnt : Nat
  -- PayloadBuffer (R32)
  buf : PayloadBuffer
  -- busy flag and SIF counter (R33, R34)
  busy : Bool
  sifseq : Byte
  -- Many working registers (R35)
  midx : Byte
  mflags : Byte
  moff : Offset
  mclen : Byte
  -- the SIF send in progress, and the poll past its `TAS` whose start marker is still to be read (R162, R163, R247)
  sif : Option SifJob
  entered : Bool
  -- the transport as the engine sees it (R42, R70)
  link : Bool
  rx : List RxEvent
  txAnswers : List Bool
  tx : List TxEvent
  tasks : Nat
  -- the handlers' own state (R41, R203, R230)
  store : Memory
  appState : Nat
  -- the model's own: result port, what the outside does next, number of resets drawn for
  result : Result
  inputs : List Input
  draws : Nat
deriving DecidableEq, Repr

/-- The machine right after reset (R45, R300): `FP = Idle`, `SEQV`, `BUSY`, `SIFSEQ`, `TCNT` zero, no PayloadBuffer
byte written. The registers R45 leaves unspecified are zero: DESIGN CHOICE, entry 1, unsafe. The configuration is
CFG_REF, the link up and nothing received: entries 2 and 7. -/
def State.reset : State where
  cfg := Config.ref
  fp := .idle
  idx := 0
  seq := 0
  seqv := false
  cmd := 0
  len := 0
  csum := 0
  ret := 0
  line := 0
  tcnt := 0
  buf := { cells := [], epoch := 0 }
  busy := false
  sifseq := 0
  midx := 0
  mflags := 0
  moff := 0
  mclen := 0
  sif := Option.none
  entered := false
  link := true
  rx := []
  txAnswers := []
  tx := []
  tasks := 0
  store := []
  appState := 0
  result := .none
  inputs := []
  draws := 1

end Sys2Proof.Machine
end

