-- ==== Sys2Proof/Machine/Memory.lean ====
section
/-! DEFINITION. The two byte memories: the PayloadBuffer (R32, R60, R61) and the store of the fixture handlers (R230).
Both are lists of address and byte pairs in one canonical form. -/

namespace Sys2Proof.Machine

/-- The byte listed at address `k`, if one is. -/
def Memory.find : Memory → Nat → Option Byte
  | [], _ => none
  | (a, v) :: m, k => if k = a then some v else Memory.find m k

/-- The memory with `v` listed at address `k`. -/
def Memory.put : Memory → Nat → Byte → Memory
  | [], k, v => [(k, v)]
  | (a, w) :: m, k, v =>
    if k < a then (k, v) :: (a, w) :: m
    else if k = a then (k, v) :: m
    else (a, w) :: Memory.put m k v

/-- The memory with nothing listed at address `k`. -/
def Memory.drop (m : Memory) (k : Nat) : Memory := m.filter (fun cell => cell.1 != k)

/-- The canonical form: addresses strictly rising. -/
def Memory.wf (m : Memory) : Bool := decide (m.Pairwise (fun x y => x.1 < y.1))

/-! ### The PayloadBuffer -/

/-- `BUF[a]`: the byte written last, or, when nothing has written it since the reset, that reset's draw (R45, U9). -/
def PayloadBuffer.read (b : PayloadBuffer) (a : Nat) : Byte :=
  (Memory.find b.cells a).getD (Config.bufDraw b.epoch a)

/-- `BUF[a] <- v`; the addresses are 0 to 254 (R32, R78). -/
def PayloadBuffer.write (b : PayloadBuffer) (a : Nat) (v : Byte) : PayloadBuffer :=
  if a < Config.cap then { b with cells := Memory.put b.cells a v } else b

/-- `BUF[a ..]` written with the bytes of a list (R14 `MemWrite`). -/
def PayloadBuffer.writeAll (b : PayloadBuffer) : Nat → List Byte → PayloadBuffer
  | _, [] => b
  | a, v :: vs => (b.write a v).writeAll (a + 1) vs

/-- `BUF[a .. a + n)` (R14 `MemRead`). -/
def PayloadBuffer.range (b : PayloadBuffer) (a n : Nat) : List Byte :=
  (List.range n).map (fun i => b.read (a + i))

/-- The canonical form of the PayloadBuffer: addresses strictly rising and below `CAP`. An unlisted byte has no value of
its own (a read of it is a draw), so every byte written is listed. -/
def PayloadBuffer.wf (b : PayloadBuffer) : Bool :=
  Memory.wf b.cells && b.cells.all (fun cell => decide (cell.1 < Config.cap))

/-! ### The store of the fixture handlers: initially all zero (R230) -/

/-- A byte of the store; an unlisted one is zero. -/
def storeRead (m : Memory) (a : Nat) : Byte := (Memory.find m a).getD 0

/-- A byte of the store written; zero is kept by listing nothing. -/
def storeWrite (m : Memory) (a : Nat) (v : Byte) : Memory :=
  if v = 0 then Memory.drop m a else Memory.put m a v

/-- Consecutive bytes of the store written. -/
def storeWriteAll (m : Memory) : Nat → List Byte → Memory
  | _, [] => m
  | a, v :: vs => storeWriteAll (storeWrite m a v) (a + 1) vs

/-- Consecutive bytes of the store. -/
def storeRange (m : Memory) (a n : Nat) : List Byte := (List.range n).map (fun i => storeRead m (a + i))

/-- The canonical form of the store: addresses strictly rising, no entry zero. -/
def storeWf (m : Memory) : Bool := Memory.wf m && m.all (fun cell => cell.2 != 0)

end Sys2Proof.Machine
end

