-- ==== Sys2Proof/Machine/Registers.lean ====
section
/-! DEFINITION. Writing one register (R14 `X <- v`): one named update per register, so that the operations are chains of
named updates. -/

namespace Sys2Proof.Machine

/-- `FP <- v` (R21). -/
def State.setFp (s : State) (v : Fp) : State := { s with fp := v }

/-- `IDX <- v` (R22). -/
def State.setIdx (s : State) (v : Byte) : State := { s with idx := v }

/-- `CMD <- v` (R26). -/
def State.setCmd (s : State) (v : Byte) : State := { s with cmd := v }

/-- `LEN <- v` (R27). -/
def State.setLen (s : State) (v : Byte) : State := { s with len := v }

/-- `CSUM <- v` (R28). -/
def State.setCsum (s : State) (v : Byte) : State := { s with csum := v }

/-- `RET <- v` (R29). -/
def State.setRet (s : State) (v : Byte) : State := { s with ret := v }

/-- `TCNT <- v` (R31). -/
def State.setTcnt (s : State) (v : Nat) : State := { s with tcnt := v }

/-- `BUSY <- v` (R33). -/
def State.setBusy (s : State) (v : Bool) : State := { s with busy := v }

/-- `MIDX <- v` (R35). -/
def State.setMidx (s : State) (v : Byte) : State := { s with midx := v }

/-- The receive side of the environment (R70). -/
def State.setRx (s : State) (v : List RxEvent) : State := { s with rx := v }

/-- The transport's answers to come (R66). -/
def State.setAnswers (s : State) (v : List Bool) : State := { s with txAnswers := v }

/-- The fixture handlers' store (R230). -/
def State.setStore (s : State) (v : Memory) : State := { s with store := v }

/-- The application handlers' own state (R41, R203). -/
def State.setAppState (s : State) (v : Nat) : State := { s with appState := v }

/-- What the outside does next. -/
def State.setInputs (s : State) (v : List Input) : State := { s with inputs := v }

/-- The link-status bit (R42). -/
def State.setLink (s : State) (v : Bool) : State := { s with link := v }

end Sys2Proof.Machine
end

