-- ==== Sys2Proof/Machine/Transport.lean ====
section
/-! DEFINITION. The six transactions of the transport port (R62 to R69) on the environment model of R70. -/

namespace Sys2Proof.Machine

/-- `T.ready()` (R63): the link-status bit (R42). -/
def transportReady (s : State) : Bool := s.link

/-- `T.available()` (R64, R70): the next event is a byte. -/
def transportAvailable (s : State) : Bool :=
  match s.rx with
  | .byte _ :: _ => true
  | _ => false

/-- The receive queue after one `T.task()`: a `quiet` lasts until the next one (R68, R131). -/
def afterTask : List RxEvent → List RxEvent
  | .quiet :: rest => rest
  | rx => rx

/-- `T.task()` (R68). -/
def transportTask (s : State) : State := { s with rx := afterTask s.rx, tasks := s.tasks + 1 }

/-- The receive queue after a window has expired: the `gap` that was met is consumed (R70, R132). -/
def afterExpiry : List RxEvent → List RxEvent
  | .gap :: rest => rest
  | rx => rx

/-- The receive queue after time has passed outside any read, in whatever state of the sequencer. DESIGN CHOICE,
entry 8. -/
def afterElapse : List RxEvent → List RxEvent
  | .gap :: rest => rest
  | .quiet :: rest => rest
  | rx => rx

/-- The state with one event added to the transmit trace. -/
def State.pushTx (s : State) (e : TxEvent) : State := { s with tx := s.tx ++ [e] }

/-- `T.tx(b)` on a link that is up (R66): the environment answers success or failure, success once its answers are
used up; a byte that fails is not enqueued. DESIGN CHOICE, entry 29. -/
def transportTxUp (b : Byte) (s : State) : Bool × State :=
  match s.txAnswers with
  | [] => (true, s.pushTx (.byte b))
  | true :: rest => (true, (s.setAnswers rest).pushTx (.byte b))
  | false :: rest => (false, s.setAnswers rest)

/-- `T.tx(b)` (R66). On a link that is down it fails (R245), and the environment's answers stay for the calls on a link
that is up. -/
def transportTx (b : Byte) (s : State) : Bool × State :=
  if s.link then transportTxUp b s else (false, s)

/-- `T.flush()` (R67): it returns when all enqueued bytes are physically sent. -/
def transportFlush (s : State) : State := s.pushTx .flush

end Sys2Proof.Machine
end

