-- ==== Sys2Proof/Machine/Ops.lean ====
section
/-! DEFINITION. The named operations over registers, memory and transport that the meanings are made of: the frame
codec (40_codec.md), the arbiter and the frame sender (45_sif.md, 42_frame_processor.md R176), and, as ONE shared
operation, the error exit (60_exceptions.md) with the return to `Idle` beside it. -/

namespace Sys2Proof.Machine

/-- What a step or a meaning answers. -/
abbrev Answer := Host.Outcome State Fault Refusal

/-! ### Registers -/

/-- The state with a value on the result port. -/
def State.answer (s : State) (r : Result) : State := { s with result := r }

/-- A poll that did nothing (R161, R162): only the status says so. -/
def State.noOp (s : State) (why : NoOpReason) : State := s.answer (.poll (.noOp why))

/-- One `BUF` byte read. -/
def State.bufRead (s : State) (a : Nat) : Byte := s.buf.read a

/-- `BUF[a ..]` written with the bytes of a list. -/
def State.bufWriteAll (s : State) (a : Nat) (vs : List Byte) : State := { s with buf := s.buf.writeAll a vs }

/-- The end of a Bounded handler: its length is in `LEN` and its return code is handed to the caller, on the result
port. `RET` is not written: only `POLL`, from this code, and `ERRFRAME` write it (R43, C14). -/
def State.handlerDone (s : State) (ret len : Byte) : State := { s with len := len, result := .handler ret len }

/-! ### RAWRD and DEC -/

/-- The loop of `RAWRD` with `n` polls left before the window expires (R131). -/
def rawrdLoop : Nat → State → RdResult × State
  | n, s =>
    match s.rx with
    | .byte v :: rest => (.byte v, s.setRx rest)
    | _ =>
      match n with
      | 0 => (.timeout, s.setRx (afterExpiry s.rx))
      | n + 1 => rawrdLoop n ((transportTask s).setTcnt (s.tcnt + 1))

/-- `RAWRD()`, the bounded-wait raw byte read (R131, R132). -/
def rawrd (s : State) : RdResult × State := rawrdLoop s.cfg.timeoutWindow (s.setTcnt 0)

/-- What a raw byte that is not `ESC` reads as in a frame body: a delimiter is an escape error (R134). -/
def plainResult (c : Config) (v : Byte) : RdResult :=
  if v = c.sof ∨ (c.hasSif = true ∧ v = c.sos) then .escError else .byte v

/-- What the second raw byte of an escape pair reads as: plus 1 modulo 256, unexamined (R134, R136, R139). -/
def pairResult : RdResult → RdResult
  | .byte v => .byte (v + 1)
  | r => r

/-- `DEC()`, receive and unescape one logical byte (R134). -/
def dec (s : State) : RdResult × State :=
  match rawrd s with
  | (.byte v, s1) =>
    if v = s1.cfg.esc then
      let second := rawrd s1
      (pairResult second.1, second.2)
    else (plainResult s1.cfg v, s1)
  | (r, s1) => (r, s1)

/-! ### ENC and SENDFRAME -/

/-- Two sends in sequence; the second only if the first succeeded. -/
def andThen (r : Bool × State) (f : State → Bool × State) : Bool × State :=
  if r.1 then f r.2 else r

/-- `ENC(b)`, escape and transmit one logical byte (R135). -/
def enc (b : Byte) (s : State) : Bool × State :=
  if s.cfg.reserved b then andThen (transportTx s.cfg.esc s) (transportTx (b - 1)) else transportTx b s

/-- The payload bytes of a frame being sent, each XOR-ed into `CSUM` and counted by `IDX` (R176). -/
def sendData : List Byte → State → Bool × State
  | [], s => (true, s)
  | b :: bs, s =>
    andThen (enc b (s.setCsum (s.csum ^^^ b))) (fun s => sendData bs (s.setIdx (s.idx + 1)))

/-- The start marker's byte (R93). -/
def markerValue (c : Config) : Marker → Byte
  | .sof => c.sof
  | .sos => c.sos

/-- The bytes of a frame, start marker to checksum, up to the first failure (R176). -/
def sendBytes (m : Marker) (seq x : Byte) (data : List Byte) (s : State) : Bool × State :=
  andThen (transportTx (markerValue s.cfg m) s) fun s =>
  andThen (enc seq (s.setCsum seq)) fun s =>
  andThen (enc x (s.setCsum (s.csum ^^^ codeTerm s.cfg x))) fun s =>
  andThen (enc (lengthByte data) (s.setCsum (s.csum ^^^ lengthTerm s.cfg (lengthByte data)))) fun s =>
  andThen (sendData data (s.setIdx 0)) fun s => enc s.csum s

/-- `SENDFRAME(m, seq, c, len, data)` (R176 to R178): a complete frame is flushed, a cut-short one is not. -/
def sendFrame (m : Marker) (seq x : Byte) (data : List Byte) (s : State) : SendResult × State :=
  let r := sendBytes m seq x data s
  if r.1 then (.sent, transportFlush r.2) else (.cutShort, r.2)

/-! ### The arbiter -/

/-- `TAS(BUSY)` (R241). -/
def tas (s : State) : Bool × State := if s.busy then (false, s) else (true, s.setBusy true)

/-- `REL(BUSY)` (R242). -/
def rel (s : State) : State := s.setBusy false

/-- What a SIF send takes with its `TAS`: the flag and the sequence number, which is counted up (R243, R244). -/
def sifTake (x : Byte) (data : List Byte) (s : State) : State :=
  { s with busy := true, sif := some { seq := s.sifseq, cmd := x, data := data }, sifseq := s.sifseq + 1 }

/-- The first half of `SIFSEND`: `TAS`, and the sequence number taken and counted up (R243, R244). -/
def sifBegin (x : Byte) (data : List Byte) (s : State) : State :=
  if s.busy then s.answer (.send .busy) else sifTake x data s

/-- `REL` at the end of a SIF send, and its result (R243). -/
def endSif (r : SendResult) (s : State) : State := { s with busy := false, sif := none, result := .send r }

/-- The second half of `SIFSEND`: the frame, then `REL` (R243). -/
def sifFinish (j : SifJob) (s : State) : State :=
  let r := sendFrame .sos j.seq j.cmd j.data s
  endSif r.1 r.2

/-- The checks before a SIF send: the feature is there, and the caller's data fits (R243, U18). -/
def sifGuard (data : List Byte) (s : State) (go : State) : Answer :=
  if s.cfg.hasSif = false then .refused .featureAbsent
  else if Config.cap < data.length then .refused .operandTooLong
  else .next go

/-- `SIFSEND(c, len, data)` from its `TAS` to its `REL` (R243). -/
def sifWhole (x : Byte) (data : List Byte) (s : State) : State :=
  if s.busy then s.answer (.send .busy)
  else sifFinish { seq := s.sifseq, cmd := x, data := data } (sifBegin x data s)

/-! ### The error exit and the return to Idle -/

/-- The exit of every poll past its `TAS`: `REL(BUSY)`, `FP <- Idle` (R175, R278). -/
def endPoll (st : PollStatus) (s : State) : State :=
  { s with fp := .idle, busy := false, entered := false, result := .poll st }

/-- `LINE` and `RET` loaded by an error exit (R255). -/
def State.loadError (s : State) (line : Half) (code : Byte) : State := { s with line := line, ret := code }

/-- `ERRFRAME(code, seq, line)` (R255): `LINE` and `RET` are loaded and the ErrorFrame is sent, not through `BUF`. -/
def errFrame (code : ErrCode) (seq : Byte) (line : Half) (s : State) : SendResult × State :=
  sendFrame .sof seq (errByte s.cfg code) (lineBytes line) (s.loadError line (errByte s.cfg code))

/-- The status of an error exit (R181). -/
def errorStatus (r : SendResult) (code : Byte) (line : Half) : PollStatus :=
  match r with
  | .sent => .errorSent code line
  | _ => .errorCutShort code line

/-- An error exit, `raise X(line)` (R17, R266 to R270, R277): one ErrorFrame with the captured sequence number, then the
exit of the poll. Every exit but `SilentAbort` is this operation. -/
def raise (code : ErrCode) (line : Half) (s : State) : State :=
  let r := errFrame code s.seq line s
  endPoll (errorStatus r.1 (errByte s.cfg code) line) r.2

/-- `RxFail(line)` (R266, R267). -/
def rxFail (line : Half) (s : State) : State := raise .timeout line s

/-- `OutOfBounds(line)` (R269). -/
def outOfBounds (line : Half) (s : State) : State := raise .oob line s

/-- `ChecksumMismatch(line)` (R270). -/
def checksumMismatch (line : Half) (s : State) : State := raise .checksum line s

/-- `SilentAbort` (R268): nothing is sent. -/
def silentAbort (s : State) : State := endPoll .silentAbort s

end Sys2Proof.Machine
end

