-- ==== Sys2Proof/Machine/Flags.lean ====
section
/-! DEFINITION. The flags byte of the ManyHeader (R99, R100, R223): the only flags the engine computes with. -/

namespace Sys2Proof.Machine

/-- `isLast`, bit `ISLAST_BIT` of the flags byte (R223). -/
def isLastFlag (c : Config) (flags : Byte) : Bool := flags.getLsbD c.isLastBit

/-- `isWrite`, bit `ISWRITE_BIT` of the flags byte (R223). -/
def isWriteFlag (c : Config) (flags : Byte) : Bool := flags.getLsbD c.isWriteBit

/-- The byte with only bit `k` set. -/
def bitMask (k : Fin 8) : Byte := 1#8 <<< k.val

/-- The flags byte with bit `ISLAST_BIT` replaced and every other bit unchanged (R100, R223, R226). -/
def withIsLast (c : Config) (flags : Byte) (isLast : Bool) : Byte :=
  if isLast then flags ||| bitMask c.isLastBit else flags &&& ~~~ bitMask c.isLastBit

end Sys2Proof.Machine
end

