-- ==== Sys2Proof/Machine/Operands.lean ====
section
/-! DEFINITION. The operand forms: the ManyHeader and chunk in the PayloadBuffer (R44, R61, R73, R99 to R101) and the
data operands with their bounds (R225, U18). -/

namespace Sys2Proof.Machine

/-- The bytes of a ManyHeader: index or return value, flags, offset in `NATIVE_ENDIAN` (R99, R100). -/
def headerBytes (c : Config) (b0 flags : Byte) (off : Offset) : List Byte :=
  [b0, flags] ++ splitOffset c.nativeEndian off

/-- The offset in `BUF[2..6)` (R73). -/
def headerOffset (s : State) : Offset :=
  joinOffset s.cfg.nativeEndian (s.bufRead 2) (s.bufRead 3) (s.bufRead 4) (s.bufRead 5)

/-- The chunk bytes `BUF[6 .. 6 + n)` (R44). -/
def chunkRange (s : State) (n : Nat) : List Byte := s.buf.range Config.header n

/-- A write by a Chunked handler to chunk bytes 0 onward is a write to `BUF[6..)` (R44). -/
def State.chunkWrite (s : State) (bytes : List Byte) : State := s.bufWriteAll Config.header bytes

/-- A data operand of at most 255 bytes, else the caller's port does not take it (U18). -/
def withData (data : List Byte) (go : Answer) : Answer :=
  if Config.cap < data.length then .refused .operandTooLong else go

end Sys2Proof.Machine
end

