-- ==== Sys2Proof/Machine/Handlers.lean ====
section
/-! DEFINITION. The command table's two calling conventions and the built-in handlers (43_dispatch.md, 44_many.md). -/

namespace Sys2Proof.Machine

/-- What a Chunked handler answers besides the chunk, which it writes in place (R224, R44). -/
structure ChunkAnswer where
  ret : Byte
  isLast : Bool
  off : Offset
  clen : Byte
deriving DecidableEq, Repr

/-- What a Chunked call answers: the handler's answer and the state it left. -/
abbrev ChunkOutcome := Host.Outcome (ChunkAnswer × State) Fault Refusal

/-- What a Bounded call answers: the return code, and the state with its length and payload (R202, R203). -/
abbrev BoundedOutcome := Host.Outcome (Byte × State) Fault Refusal

/-- A Bounded call made by itself: its return code stays on the result port (entry 33). -/
def boundedDone : BoundedOutcome → Answer
  | .next r => .next r.2
  | .fault f => .fault f
  | .refused r => .refused r

/-! ### Built-in Bounded handlers -/

/-- A Bounded handler's return with this code and length. -/
def handlerReturn (ret len : Byte) (s : State) : Byte × State := (ret, s.handlerDone ret len)

/-- `ECHO`: `RET_OK`, length and payload unchanged (R206). -/
def echo (s : State) : Byte × State := handlerReturn Config.retOk s.len s

/-- The names that fit from position `pos` on, each with its NUL, and whether all did (R207). -/
def serialiseNames : Nat → List (List Byte) → Bool × List Byte
  | _, [] => (true, [])
  | pos, name :: names =>
    if Config.cap < pos + name.length + 1 then (false, [])
    else
      let rest := serialiseNames (pos + name.length + 1) names
      (rest.1, name ++ 0 :: rest.2)

/-- `GETMAP` (R207, R208): the names in table order, whole names only, `RET_FAIL` when one does not fit. -/
def getmap (s : State) : BoundedOutcome :=
  if s.cfg.hasNames = false then .refused .featureAbsent
  else
    let r := serialiseNames 0 s.cfg.names
    .next (handlerReturn (if r.1 then Config.retOk else s.cfg.retFail) (lengthByte r.2) (s.bufWriteAll 0 r.2))

/-- An application Bounded handler (R203): a function of its own state, `LEN` and `BUF`. -/
def appBounded (id : Byte) (s : State) : Byte × State :=
  let r := Config.appBounded id s.appState s.len (s.buf.range 0 Config.cap)
  handlerReturn r.2.1 r.2.2.1 ((s.setAppState r.1).bufWriteAll 0 (r.2.2.2.take Config.cap))

/-! ### Chunked handlers -/

/-- The failure answer of a read beyond the end: isLast is set (R230). -/
def readFailure (c : Config) (off : Offset) : ChunkAnswer :=
  { ret := c.retFail, isLast := true, off := off, clen := 0 }

/-- The failure answer of a write that does not fit or is not allowed: isLast unchanged (R230). -/
def writeFailure (c : Config) (isLast : Bool) (off : Offset) : ChunkAnswer :=
  { ret := c.retFail, isLast := isLast, off := off, clen := 0 }

/-- How many bytes a read at `off` delivers of an object of `size` bytes (R230). -/
def readCount (size off : Nat) : Nat := min Config.chunkMax (size - off)

/-- The read side of `CH_BLOB` over an object whose bytes from `off` on are given by `bytes` (R230). -/
def blobRead (size : Nat) (off : Offset) (bytes : List Byte) (s : State) : ChunkAnswer × State :=
  if size < off.toNat then (readFailure s.cfg off, s)
  else
    let n := readCount size off.toNat
    ({ ret := Config.retOk, isLast := decide (size ≤ off.toNat + n), off := off, clen := BitVec.ofNat 8 n },
      s.chunkWrite (bytes.take n))

/-- The write side of `CH_BLOB`: the chunk is stored, or the write fails (R230); the end is computed without wrap. -/
def blobWrite (base size : Nat) (writable isLast : Bool) (off : Offset) (clen : Byte) (s : State) :
    ChunkAnswer × State :=
  if writable = false ∨ size < off.toNat + clen.toNat then (writeFailure s.cfg isLast off, s)
  else
    ({ ret := Config.retOk, isLast := isLast, off := off, clen := 0 },
      s.setStore (storeWriteAll s.store (base + off.toNat) (chunkRange s clen.toNat)))

/-- `CH_BLOB(store, size, writable)` (R230) over the store bytes from `base` on. -/
def chBlob (base size : BitVec 40) (writable isLast isWrite : Bool) (off : Offset) (clen : Byte) (s : State) :
    ChunkAnswer × State :=
  if isWrite then blobWrite base.toNat size.toNat writable isLast off clen s
  else blobRead size.toNat off
    (storeRange s.store (base.toNat + off.toNat) (readCount size.toNat off.toNat)) s

/-- The property object `key 00 value 00 ...` in table order (R229). -/
def propsObject (c : Config) : List Byte := c.props.flatMap (fun p => p.1 ++ 0 :: (p.2 ++ [0]))

/-- `PROPS`, the read-only form of `CH_BLOB` over the property object (R229). -/
def props (isLast isWrite : Bool) (off : Offset) (s : State) : ChunkAnswer × State :=
  if isWrite then (writeFailure s.cfg isLast off, s)
  else blobRead (propsObject s.cfg).length off ((propsObject s.cfg).drop off.toNat) s

/-- An application Chunked handler (R224), held to its bound of 249 bytes (R225, U4). -/
def appChunked (id : Byte) (isLast isWrite : Bool) (off : Offset) (clen : Byte) (s : State) : ChunkOutcome :=
  let r := Config.appChunked id s.appState isLast isWrite off clen (chunkRange s Config.chunkMax)
  if Config.chunkMax < r.2.2.2.2.1.toNat then .fault .chunkTooLong
  else .next
    ({ ret := r.2.1, isLast := r.2.2.1, off := r.2.2.2.1, clen := r.2.2.2.2.1 },
      (s.setAppState r.1).chunkWrite (r.2.2.2.2.2.take Config.chunkMax))

/-- `HCALL_C(h, isLast, isWrite, off, clen, chunk)` (R224); the chunk is `BUF[6..)` itself. -/
def hcallC (h : ChunkedHandler) (isLast isWrite : Bool) (off : Offset) (clen : Byte) (s : State) : ChunkOutcome :=
  match h with
  | .props =>
    if s.cfg.hasProps = false then .refused .featureAbsent else .next (props isLast isWrite off s)
  | .blob base size writable => .next (chBlob base size writable isLast isWrite off clen s)
  | .app id => appChunked id isLast isWrite off clen s

/-- The answer of a Chunked call made by itself, on the result port. -/
def chunkedDone : ChunkOutcome → Answer
  | .next r => .next (r.2.answer (.chunked r.1.ret r.1.isLast r.1.off r.1.clen))
  | .fault f => .fault f
  | .refused r => .refused r

/-- A Chunked call with the chunk length within its bound of 249 (R224). -/
def withChunk (s : State) (clen : Byte) (go : Answer) : Answer :=
  if s.cfg.hasMany = false then .refused .featureAbsent
  else if Config.chunkMax < clen.toNat then .refused .operandTooLong
  else go

/-! ### MANY -/

/-- The write-back of a ManyHeader and the total length; the wrapper itself returns `RET_OK` (R100, R226). -/
def rewrap (r flags : Byte) (off : Offset) (clen : Byte) (s : State) : Byte × State :=
  handlerReturn Config.retOk (clen + 6) (s.bufWriteAll 0 (headerBytes s.cfg r flags off))

/-- The Many working registers loaded from the header in `BUF` and from `LEN` (R35, R221). -/
def loadMany (s : State) : State :=
  { s with mflags := s.bufRead 1, moff := headerOffset s, mclen := s.len - 6 }

/-- The call `MANY` makes once the working registers are loaded. -/
def manyCall (h : ChunkedHandler) (s : State) : ChunkOutcome :=
  hcallC h (isLastFlag s.cfg s.mflags) (isWriteFlag s.cfg s.mflags) s.moff s.mclen s

/-- What `MANY` does with the handler's answer (R221, R226). -/
def manyReturn : ChunkOutcome → BoundedOutcome
  | .next r => .next (rewrap r.1.ret (withIsLast r.2.cfg r.2.mflags r.1.isLast) r.1.off r.1.clen r.2)
  | .fault f => .fault f
  | .refused r => .refused r

/-- `MANY(len, buf)` (R221): header length, index range, forwarding, write-back. -/
def many (s : State) : BoundedOutcome :=
  if s.cfg.hasMany = false then .refused .featureAbsent
  else if s.len.toNat < Config.header then .next (handlerReturn s.cfg.retFail 0 s)
  else
    let s1 := s.setMidx (s.bufRead 0)
    match s.cfg.ct[s1.midx.toNat]? with
    | none => .next (handlerReturn s.cfg.retOob 0 s1)
    | some h => manyReturn (manyCall h (loadMany s1))

/-! ### HCALL_B and DISPATCH -/

/-- `HCALL_B(h, len, buf)` with `LEN` and `BUF` as its in/out operands (R203). -/
def hcallB (h : BoundedHandler) (s : State) : BoundedOutcome :=
  match h with
  | .echo => .next (echo s)
  | .getmap => getmap s
  | .many => many s
  | .app id => .next (appBounded id s)

/-- `DISPATCH(c, len, buf)` (R202): the Bounded call of `JT[c]`, if there is one (R201). -/
def dispatch (x : Byte) (s : State) : Option BoundedOutcome := s.cfg.jt[x.toNat]?.map fun h => hcallB h s

/-- `DISPATCH` by itself; an offset outside the table takes the out-of-range exit before any handler (R166, R201). -/
def dispatchTo (x : Byte) (s : State) : Answer :=
  match dispatch x s with
  | some o => boundedDone o
  | none => .next (outOfBounds s.cfg.lineOob s)

end Sys2Proof.Machine
end

