-- ==== Sys2Proof/Machine/Sequencer.lean ====
section
/-! DEFINITION. The Frame Processor (42_frame_processor.md): what each sequencer state does with a read result, its
micro-steps (rows FP.*), and one whole poll. -/

namespace Sys2Proof.Machine

/-! ### What a state does with the result of its read -/

/-- A frame begun: the start marker has been read (R163). -/
def beginFrame (s : State) : State := { s with fp := .readSeq, entered := false }

/-- The start-marker test on the first raw byte (R163). -/
def markerResult (r : RdResult) (s : State) : State :=
  if r = .byte s.cfg.sof then beginFrame s else endPoll (.noOp .notSof) s

/-- `SEQ` captured, the checksum begun with it (R164). -/
def captureSeq (v : Byte) (s : State) : State := { s with seq := v, seqv := true, csum := v, fp := .readCmdOffset }

/-- `ReadSeq` (R164). -/
def seqResult (r : RdResult) (s : State) : State :=
  match r with
  | .byte v => captureSeq v s
  | _ => silentAbort s

/-- `CMD` captured and its checksum term accumulated (R165). -/
def captureCmd (v : Byte) (s : State) : State := { s with cmd := v, csum := s.csum ^^^ codeTerm s.cfg v }

/-- `ReadCmdOffset` and the range check (R165, R166). -/
def cmdResult (r : RdResult) (s : State) : State :=
  match r with
  | .byte v =>
    if s.cfg.tableSize ≤ v.toNat then outOfBounds s.cfg.lineOob (captureCmd v s)
    else (captureCmd v s).setFp .readLength
  | _ => rxFail s.cfg.lineCmd s

/-- `LEN` captured and its checksum term accumulated, the payload index at 0 (R167). -/
def captureLen (v : Byte) (s : State) : State :=
  { s with len := v, csum := s.csum ^^^ lengthTerm s.cfg v, idx := 0, fp := .readPayload }

/-- `ReadLength` (R167). -/
def lenResult (r : RdResult) (s : State) : State :=
  match r with
  | .byte v => captureLen v s
  | _ => rxFail s.cfg.lineLen s

/-- The state after `ReadPayload` has counted a byte (R23, R168). -/
def nextOfPayload (idx len : Byte) : Fp := if idx = len then .readChecksum else .readPayload

/-- One payload byte stored at `BUF[IDX]`, accumulated and counted (R168). -/
def storePayload (v : Byte) (s : State) : State :=
  { s with
    buf := s.buf.write s.idx.toNat v
    csum := s.csum ^^^ v
    idx := s.idx + 1
    fp := nextOfPayload (s.idx + 1) s.len }

/-- `ReadPayload` (R168). -/
def payloadResult (r : RdResult) (s : State) : Answer :=
  match r with
  | .byte v => if s.idx.toNat < Config.cap then .next (storePayload v s) else .fault .bufferAddress
  | _ => .next (rxFail s.cfg.linePayload s)

/-- `ReadChecksum` and the verification (R169 to R171). -/
def csumResult (r : RdResult) (s : State) : State :=
  match r with
  | .byte k => if k = s.csum then s.setFp .dispatch else checksumMismatch s.cfg.lineCsumBad s
  | _ => rxFail s.cfg.lineCsumRd s

/-- `BUSY` taken by a poll: no sequence number is captured yet, and the start marker is to be read (R162). -/
def State.enter (s : State) : State := { s with busy := true, seqv := false, entered := true }

/-- The start-marker read of a poll past its `TAS`, and what it gives (R163). -/
def takeMarker (read : State → RdResult × State) (s : State) : State :=
  let r := read s
  markerResult r.1 (r.2.answer (.read r.1))

/-- A poll past its entry test: `TAS`, then the start-marker read (R162, R163). -/
def afterEntry (read : State → RdResult × State) (s : State) : State :=
  if s.busy then s.noOp .busy else takeMarker read s.enter

/-- The result of a read taken by the sequencer in the state it is in (rows RD.*). `Dispatch` and `SendReply` read
nothing, and `ReadPayload` with no byte left to read goes on to the checksum. -/
def takeResult (r : RdResult) (s : State) : Answer :=
  match s.fp with
  | .idle => .next (if s.entered then takeMarker (fun s => (r, s)) s else afterEntry (fun s => (r, s)) s)
  | .readSeq => .next (seqResult r s)
  | .readCmdOffset => .next (cmdResult r s)
  | .readLength => .next (lenResult r s)
  | .readPayload =>
    if s.idx = s.len then .next (csumResult r (s.setFp .readChecksum)) else payloadResult r s
  | .readChecksum => .next (csumResult r s)
  | .dispatch => .next s
  | .sendReply => .next s

/-- A read result on the result port, where the sequencer takes it (R133). -/
def deliver (r : RdResult) (s : State) : Answer := takeResult r (s.answer (.read r))

/-! ### Micro-steps -/

/-- What a poll does in `Idle` once its entry test is to be made: the link, the receive queue, then `go` (R161). -/
def entryTest (go : State → State) (s : State) : State :=
  if transportReady s = false then s.noOp .notReady
  else if transportAvailable s = false then s.noOp .noByte
  else go s

/-- The first micro-step of a poll: the entry test and its `TAS` (R161, R162). -/
def enterPoll (s : State) : State := entryTest (fun s => if s.busy then s.noOp .busy else s.enter) s

/-- `Idle`, whole: the start-marker read of a poll past its `TAS`; else the entry test of a poll, its `TAS` and the
start-marker read (R161 to R163). -/
def stepIdle (s : State) : Answer :=
  .next (if s.entered then takeMarker rawrd s else entryTest (afterEntry rawrd) s)

/-- A reading state: one `DEC`, and what the state does with its result. -/
def stepRead (s : State) : Answer :=
  let r := dec s
  deliver r.1 r.2

/-- `ReadPayload`: with no byte left it goes on without a read (R168). -/
def stepPayload (s : State) : Answer :=
  if s.idx = s.len then .next (s.setFp .readChecksum) else stepRead s

/-- The return code of the handler, in `RET`: the many entry's `RET_OOB` is an error exit (R173), every other code goes
to the reply (R174, R205). -/
def afterHandler (s : State) : State :=
  if s.cfg.hasMany = true ∧ s.cmd = s.cfg.manyOffset ∧ s.ret = s.cfg.retOob then
    outOfBounds s.cfg.lineManyOob s
  else s.setFp .sendReply

/-- What the poll does with the handler's return: the code goes to `RET` (R172, R173). -/
def dispatchReturn : BoundedOutcome → Answer
  | .next r => .next (afterHandler (r.2.setRet r.1))
  | .fault f => .fault f
  | .refused r => .refused r

/-- `Dispatch` (R172, R173); an offset outside the table, which the receive path excludes, takes its exit (R166). -/
def stepDispatch (s : State) : Answer :=
  match dispatch s.cmd s with
  | some o => dispatchReturn o
  | none => .next (outOfBounds s.cfg.lineOob s)

/-- The status of a poll that has sent its reply (R181). -/
def replyStatus : SendResult → PollStatus
  | .sent => .replied
  | _ => .replyCutShort

/-- `SendReply` and the exit (R174, R175). -/
def stepSendReply (s : State) : State :=
  let r := sendFrame .sof s.seq s.ret (s.buf.range 0 s.len.toNat) s
  endPoll (replyStatus r.1) r.2

/-- The micro-step of the state the sequencer is in (R23). -/
def fpStep (s : State) : Answer :=
  match s.fp with
  | .idle => stepIdle s
  | .readSeq => stepRead s
  | .readCmdOffset => stepRead s
  | .readLength => stepRead s
  | .readPayload => stepPayload s
  | .readChecksum => stepRead s
  | .dispatch => stepDispatch s
  | .sendReply => .next (stepSendReply s)

/-! ### One poll -/

/-- Micro-steps until the sequencer is back in `Idle`, at most `n` of them. -/
def runToIdle : Nat → State → Answer
  | 0, s => .next s
  | n + 1, s =>
    if s.fp = .idle then .next s
    else
      match fpStep s with
      | .next s1 => runToIdle n s1
      | .fault f => .fault f
      | .refused r => .refused r

/-- The micro-steps a poll takes after its first: sequence, command, length, at most 255 payload bytes, checksum,
dispatch, reply (R21, R179). -/
def pollSteps : Nat := 261

/-- `POLL()` (R160): the micro-step of `Idle`, then micro-steps back to `Idle`. A poll that the entry test turns away
changes nothing, whatever state the sequencer is in. -/
def poll (s : State) : Answer :=
  if transportReady s = false then .next (s.noOp .notReady)
  else if transportAvailable s = false then .next (s.noOp .noByte)
  else if s.busy then .next (s.noOp .busy)
  else runToIdle pollSteps (afterEntry rawrd s)

end Sys2Proof.Machine
end

