-- ==== Sys2Proof/Machine/Raw.lean ====
section
/-! DEFINITION. The meanings of the raw byte rows (R91, R92): the byte or pair is the oldest in the receive queue, and
the sequencer takes it in the state it is in. Where a start marker is expected only the first raw byte is taken (R163);
inside a frame body `DEC` takes it (R134); `Dispatch` and `SendReply` read nothing, and it stays queued (R82). -/

namespace Sys2Proof.Machine

/-- The state with raw bytes at the head of the receive queue. -/
def State.offer (s : State) (bytes : List Byte) : State := s.setRx (bytes.map .byte ++ s.rx)

/-- Raw bytes at the head of the receive queue, taken as the sequencer's state takes them (R91). -/
def rawArrival (bytes : List Byte) (s : State) : Answer :=
  match s.fp with
  | .idle => stepIdle (s.offer bytes)
  | .dispatch => .next (s.offer bytes)
  | .sendReply => .next (s.offer bytes)
  | _ => stepRead (s.offer bytes)

/-- RAW.SOF: begins a host frame; inside a body an escape error (R91). -/
def execRawSof (s : State) : Answer := rawArrival [s.cfg.sof] s

/-- RAW.SOS: not a host frame; inside a body an escape error when `HAS_SIF`, else a plain byte (R91). -/
def execRawSos (s : State) : Answer := rawArrival [s.cfg.sos] s

/-- RAW.ESCPAIR: inside a body the logical byte `x + 1`; as a first byte `ESC` alone is consumed (R91, R92). -/
def execRawEscpair (x : Byte) (s : State) : Answer := rawArrival [s.cfg.esc, x] s

/-- RAW.PLAIN: the logical byte itself; as a first byte it is discarded (R91). -/
def execRawPlain (v : Byte) (s : State) : Answer := rawArrival [v] s

end Sys2Proof.Machine
end

