-- ==== Sys2Proof/Machine/Frames.lean ====
section
/-! DEFINITION. The meanings of the frame rows (R95 to R98). A request is executed by `POLL` on its raw bytes; a frame
from the device is what the operation the row names produces: the checksum byte, and the sequence number of a SIF frame,
are computed by the engine (R153, R243), whatever the word says. -/

namespace Sys2Proof.Machine

/-- The logical bytes of a request frame (R95). -/
def requestBytes (c : Config) (seq cmd : Byte) (payload : List Byte) (csum : Byte) : List Byte :=
  frameBytes c.sof seq cmd payload csum

/-- FRAME.REQ: the request's raw bytes are at the head of the receive queue and the caller polls (R95, R160). -/
def execFrameReq (seq cmd : Byte) (payload : List Byte) (csum : Byte) (s : State) : Answer :=
  withData payload (poll (s.offer (escapeFrame s.cfg (requestBytes s.cfg seq cmd payload csum))))

/-- A frame sent by itself, its result on the result port. -/
def sendAlone (m : Marker) (seq x : Byte) (data : List Byte) (s : State) : State :=
  let r := sendFrame m seq x data s
  r.2.answer (.send r.1)

/-- An ErrorFrame sent by itself, its result on the result port. -/
def errAlone (code : ErrCode) (seq : Byte) (line : Half) (s : State) : State :=
  let r := errFrame code seq line s
  r.2.answer (.send r.1)

/-- FRAME.REPLY, produced by `SENDFRAME` (R96, R176). -/
def execFrameReply (seq ret : Byte) (payload : List Byte) (_csum : Byte) (s : State) : Answer :=
  withData payload (.next (sendAlone .sof seq ret payload s))

/-- FRAME.ERR.OOB, produced by `ERRFRAME` (R97, R255). -/
def execFrameErrOob (seq : Byte) (line : Half) (_csum : Byte) (s : State) : Answer :=
  .next (errAlone .oob seq line s)

/-- FRAME.ERR.TIMEOUT, produced by `ERRFRAME` (R97, R255). -/
def execFrameErrTimeout (seq : Byte) (line : Half) (_csum : Byte) (s : State) : Answer :=
  .next (errAlone .timeout seq line s)

/-- FRAME.ERR.CHECKSUM, produced by `ERRFRAME` (R97, R255). -/
def execFrameErrChecksum (seq : Byte) (line : Half) (_csum : Byte) (s : State) : Answer :=
  .next (errAlone .checksum seq line s)

/-- FRAME.SIF, produced by `SIFSEND`; its sequence number is `SIFSEQ` (R98, R243). -/
def execFrameSif (_seq cmd : Byte) (payload : List Byte) (_csum : Byte) (s : State) : Answer :=
  sifGuard payload s (sifWhole cmd payload s)

end Sys2Proof.Machine
end

