-- ==== Sys2Proof/Machine/Many.lean ====
section
/-! DEFINITION. The meanings of the Many rows (R99, R100, R222, R223): the header byte or header is in its place in
`BUF`, and `MANY` takes it. -/

namespace Sys2Proof.Machine

/-- A payload in `BUF` with its length in `LEN`. -/
def State.loadPayload (s : State) (payload : List Byte) : State :=
  (s.bufWriteAll 0 payload).setLen (lengthByte payload)

/-- MANYHDR.REQ: the header and chunk of a wrapper frame are the payload, and `MANY` executes it (R99, R221). -/
def execManyhdrReq (idx flags : Byte) (off : Offset) (chunk : List Byte) (s : State) : Answer :=
  if Config.chunkMax < chunk.length then .refused .operandTooLong
  else boundedDone (many (s.loadPayload (headerBytes s.cfg idx flags off ++ chunk)))

/-- MANYHDR.REPLY: the write-back of a forwarded call, chunk and header, with `LEN` (R100, R226). -/
def execManyhdrReply (r flags : Byte) (off : Offset) (chunk : List Byte) (s : State) : Answer :=
  withChunk s 0 (if Config.chunkMax < chunk.length then .refused .operandTooLong
    else boundedDone (.next (rewrap r flags off (lengthByte chunk) (s.chunkWrite chunk))))

/-- A flags byte in header byte 1, taken by `MANY` (R221, R223). -/
def flagsArrival (flags : Byte) (s : State) : Answer := boundedDone (many (s.bufWriteAll 1 [flags]))

/-- MANYFLAG.ISLAST: a flags byte with isLast set (R223). -/
def execManyflagIslast (flags : Byte) (s : State) : Answer := flagsArrival flags s

/-- MANYFLAG.ISWRITE: a flags byte with isWrite set (R223). -/
def execManyflagIswrite (flags : Byte) (s : State) : Answer := flagsArrival flags s

/-- A target handler index in header byte 0, taken by `MANY` (R221, R222). -/
def indexArrival (idx : Byte) (s : State) : Answer := boundedDone (many (s.bufWriteAll 0 [idx]))

/-- MANYIDX.PROPS@0: Chunked index 0, `CT[0]` (R103, R229). -/
def execManyidxProps0 (s : State) : Answer := indexArrival 0 s

/-- MANYIDX.BLOB300@1: Chunked index 1, `CT[1]` (R103, R230). -/
def execManyidxBlob1 (s : State) : Answer := indexArrival 1 s

/-- MANYIDX.OOB: a Chunked index outside `CT`; `MANY` returns `RET_OOB` with length 0 (R222). -/
def execManyidxOob (idx : Byte) (s : State) : Answer := indexArrival idx s

end Sys2Proof.Machine
end

