-- ==== Sys2Proof/Machine/Commands.lean ====
section
/-! DEFINITION. The meanings of the command-offset rows (R103, R166, R201): the offset selects an entry of `JT`, which
runs; an offset outside the table is the out-of-range exit. -/

namespace Sys2Proof.Machine

/-- A command offset in `CMD`, dispatched (R166, R202). -/
def commandArrival (x : Byte) (s : State) : Answer := dispatchTo x (s.setCmd x)

/-- CMD.GETMAP@0: offset 0, `JT[0]` (R103, R207). -/
def execCmdGetmap0 (s : State) : Answer := commandArrival 0 s

/-- CMD.MANY@1: offset 1, `JT[1]` (R103, R221). -/
def execCmdMany1 (s : State) : Answer := commandArrival 1 s

/-- CMD.ECHO@2: offset 2, `JT[2]` (R103, R206). -/
def execCmdEcho2 (s : State) : Answer := commandArrival 2 s

/-- CMD.ECHO@3: offset 3, `JT[3]` (R103, R206). -/
def execCmdEcho3 (s : State) : Answer := commandArrival 3 s

/-- CMD.ECHO@4: offset 4, `JT[4]` (R103, R206). -/
def execCmdEcho4 (s : State) : Answer := commandArrival 4 s

/-- CMD.OOB: the reserved command space, ErrorFrame(`RET_OOB`) with `LINE_OOB` and no handler (R166, R269). -/
def execCmdOob (x : Byte) (s : State) : Answer := commandArrival x s

end Sys2Proof.Machine
end

