-- ==== Sys2Proof/Machine/Returns.lean ====
section
/-! DEFINITION. The meanings of the return-code rows (R104, R172 to R174, R205) and of the read-result rows (R133,
R163 to R169). -/

namespace Sys2Proof.Machine

/-- A return code in `RET`; in `Dispatch`, where a handler's return is awaited, the poll goes on with it (R172, R173). -/
def returnArrival (r : Byte) (s : State) : Answer :=
  let s1 := s.setRet r
  if s.fp = .dispatch then .next (afterHandler s1) else .next s1

/-- RET.RET_OK: success (R104). -/
def execRetOk (s : State) : Answer := returnArrival Config.retOk s

/-- RET.RET_FAIL: the built-in handlers' failure code, an ordinary reply (R104, R273). -/
def execRetFail (s : State) : Answer := returnArrival s.cfg.retFail s

/-- RET.RET_OOB: an ErrorFrame when it comes from the many entry, else an ordinary reply (R173, R205). -/
def execRetOob (s : State) : Answer := returnArrival s.cfg.retOob s

/-- RET.RET_TIMEOUT from a handler: an ordinary reply (R104, R205). -/
def execRetTimeout (s : State) : Answer := returnArrival s.cfg.retTimeout s

/-- RET.RET_CHECKSUM from a handler: an ordinary reply (R104, R205). -/
def execRetChecksum (s : State) : Answer := returnArrival s.cfg.retChecksum s

/-- RD.BYTE: the read delivered a byte (R133). -/
def execRdByte (v : Byte) (s : State) : Answer := deliver (.byte v) s

/-- RD.TIMEOUT: the window expired (R133, R266). -/
def execRdTimeout (s : State) : Answer := deliver .timeout s

/-- RD.ESCERR: an unescaped delimiter (R133, R267). -/
def execRdEscerr (s : State) : Answer := deliver .escError s

end Sys2Proof.Machine
end

