-- ==== Sys2Proof/Machine/States.lean ====
section
/-! DEFINITION. The meanings of the sequencer-state rows (R21): `FP` holds the state and takes its micro-step. -/

namespace Sys2Proof.Machine

/-- FP.Idle: entry test, `TAS` and start marker (R161 to R163). -/
def execFpIdle (s : State) : Answer := stepIdle (s.setFp .idle)

/-- FP.ReadSeq (R164). -/
def execFpReadSeq (s : State) : Answer := stepRead (s.setFp .readSeq)

/-- FP.ReadCmdOffset, with the range check (R165, R166). -/
def execFpReadCmdOffset (s : State) : Answer := stepRead (s.setFp .readCmdOffset)

/-- FP.ReadLength (R167). -/
def execFpReadLength (s : State) : Answer := stepRead (s.setFp .readLength)

/-- FP.ReadPayload, one byte (R168). -/
def execFpReadPayload (s : State) : Answer := stepPayload (s.setFp .readPayload)

/-- FP.ReadChecksum, with the verification (R169 to R171). -/
def execFpReadChecksum (s : State) : Answer := stepRead (s.setFp .readChecksum)

/-- FP.Dispatch (R172, R173). -/
def execFpDispatch (s : State) : Answer := stepDispatch (s.setFp .dispatch)

/-- FP.SendReply, with the exit of the poll (R174, R175). -/
def execFpSendReply (s : State) : Answer := .next (stepSendReply (s.setFp .sendReply))

end Sys2Proof.Machine
end

