-- ==== Sys2Proof/Machine/Sites.lean ====
section
/-! DEFINITION. The meanings of the error-exit site rows (R258, R274): the exit of that site is taken. -/

namespace Sys2Proof.Machine

/-- SITE.LINE_CMD: the read of the command offset failed (R266, R267). -/
def execSiteLineCmd (s : State) : Answer := .next (rxFail s.cfg.lineCmd s)

/-- SITE.LINE_OOB: command offset outside the table (R269a). -/
def execSiteLineOob (s : State) : Answer := .next (outOfBounds s.cfg.lineOob s)

/-- SITE.LINE_LEN: the read of the length failed (R266, R267). -/
def execSiteLineLen (s : State) : Answer := .next (rxFail s.cfg.lineLen s)

/-- SITE.LINE_PAYLOAD: the read of a payload byte failed (R266, R267). -/
def execSiteLinePayload (s : State) : Answer := .next (rxFail s.cfg.linePayload s)

/-- SITE.LINE_CSUM_RD: the read of the checksum failed (R266, R267). -/
def execSiteLineCsumRd (s : State) : Answer := .next (rxFail s.cfg.lineCsumRd s)

/-- SITE.LINE_CSUM_BAD: the checksum differs (R270). -/
def execSiteLineCsumBad (s : State) : Answer := .next (checksumMismatch s.cfg.lineCsumBad s)

/-- SITE.LINE_MANY_OOB: the many entry returned `RET_OOB` (R269b). -/
def execSiteLineManyOob (s : State) : Answer := .next (outOfBounds s.cfg.lineManyOob s)

end Sys2Proof.Machine
end

