-- ==== Sys2Proof/Machine/Operations.lean ====
section
/-! DEFINITION. The meanings of the operation rows (R18). What an operation returns is on the result port. -/

namespace Sys2Proof.Machine

/-- OP.RAWRD (R131). -/
def execOpRawrd (s : State) : Answer :=
  let r := rawrd s
  .next (r.2.answer (.read r.1))

/-- OP.DEC (R134). -/
def execOpDec (s : State) : Answer :=
  let r := dec s
  .next (r.2.answer (.read r.1))

/-- OP.ENC (R135). -/
def execOpEnc (b : Byte) (s : State) : Answer :=
  let r := enc b s
  .next (r.2.answer (.flag r.1))

/-- OP.CSUM, a pure function (R150). -/
def execOpCsum (seq x : Byte) (data : List Byte) (s : State) : Answer :=
  withData data (.next (s.answer (.sum (frameChecksum s.cfg seq x data))))

/-- OP.POLL (R160). -/
def execOpPoll (s : State) : Answer := poll s

/-- OP.SENDFRAME (R176). -/
def execOpSendframe (m : Marker) (seq x : Byte) (data : List Byte) (s : State) : Answer :=
  withData data (.next (sendAlone m seq x data s))

/-- OP.DISPATCH (R202). -/
def execOpDispatch (x : Byte) (s : State) : Answer := dispatchTo x s

/-- OP.HCALL_B (R203). -/
def execOpHcallB (h : BoundedHandler) (s : State) : Answer := boundedDone (hcallB h s)

/-- OP.ECHO (R206). -/
def execOpEcho (s : State) : Answer := boundedDone (.next (echo s))

/-- OP.GETMAP (R207). -/
def execOpGetmap (s : State) : Answer := boundedDone (getmap s)

/-- OP.MANY (R221). -/
def execOpMany (s : State) : Answer := boundedDone (many s)

/-- OP.HCALL_C (R224). -/
def execOpHcallC (h : ChunkedHandler) (isLast isWrite : Bool) (off : Offset) (clen : Byte) (s : State) : Answer :=
  withChunk s clen (chunkedDone (hcallC h isLast isWrite off clen s))

/-- OP.PROPS (R229). -/
def execOpProps (isLast isWrite : Bool) (off : Offset) (clen : Byte) (s : State) : Answer :=
  withChunk s clen (chunkedDone (hcallC .props isLast isWrite off clen s))

/-- OP.CH_BLOB (R230). -/
def execOpChBlob (base size : BitVec 40) (writable isLast isWrite : Bool) (off : Offset) (clen : Byte) (s : State) :
    Answer :=
  withChunk s clen (chunkedDone (.next (chBlob base size writable isLast isWrite off clen s)))

/-- OP.TAS (R241). -/
def execOpTas (s : State) : Answer :=
  let r := tas s
  .next (r.2.answer (.flag r.1))

/-- OP.REL (R242). -/
def execOpRel (s : State) : Answer := .next (rel s)

/-- OP.SIFSEND (R243). -/
def execOpSifsend (x : Byte) (data : List Byte) (s : State) : Answer := sifGuard data s (sifWhole x data s)

/-- OP.ERRFRAME (R255). -/
def execOpErrframe (code : ErrCode) (seq : Byte) (line : Half) (s : State) : Answer :=
  .next (errAlone code seq line s)

/-- What RESET leaves: the values R45 lists, and a draw for every register and byte it leaves unspecified (R300, R301,
U9). The transport, the handlers' own state, the tables and constants are untouched; an operation in progress is
abandoned. -/
def resetState (s : State) : State :=
  { s with
    fp := .idle
    seqv := false
    busy := false
    sifseq := 0
    tcnt := 0
    sif := none
    entered := false
    idx := Config.freeByte (16 * s.draws)
    seq := Config.freeByte (16 * s.draws + 1)
    cmd := Config.freeByte (16 * s.draws + 2)
    len := Config.freeByte (16 * s.draws + 3)
    csum := Config.freeByte (16 * s.draws + 4)
    ret := Config.freeByte (16 * s.draws + 5)
    midx := Config.freeByte (16 * s.draws + 6)
    mflags := Config.freeByte (16 * s.draws + 7)
    mclen := Config.freeByte (16 * s.draws + 8)
    line := Config.freeHalf s.draws
    moff := Config.freeOffset s.draws
    buf := { cells := [], epoch := s.draws }
    draws := s.draws + 1
    result := .none }

/-- OP.RESET (R300). -/
def execOpReset (s : State) : Answer := .next (resetState s)

end Sys2Proof.Machine
end

