-- ==== Sys2Proof/Machine/Dispatch.lean ====
section
/-! DEFINITION. One arm per constructor of Instr, each one call of its meaning. -/

namespace Sys2Proof.Machine

/-- What an instruction does. -/
def exec (i : Instr) (s : State) : Host.Outcome State Fault Refusal :=
  match i with
  | .rawSof => Sys2Proof.Machine.execRawSof s
  | .rawSos => Sys2Proof.Machine.execRawSos s
  | .rawEscpair x => Sys2Proof.Machine.execRawEscpair x s
  | .rawPlain v => Sys2Proof.Machine.execRawPlain v s
  | .frameReq seq cmd payload csum => Sys2Proof.Machine.execFrameReq seq cmd payload csum s
  | .frameReply seq ret payload csum => Sys2Proof.Machine.execFrameReply seq ret payload csum s
  | .frameErrOob seq line csum => Sys2Proof.Machine.execFrameErrOob seq line csum s
  | .frameErrTimeout seq line csum => Sys2Proof.Machine.execFrameErrTimeout seq line csum s
  | .frameErrChecksum seq line csum => Sys2Proof.Machine.execFrameErrChecksum seq line csum s
  | .frameSif seq cmd payload csum => Sys2Proof.Machine.execFrameSif seq cmd payload csum s
  | .manyhdrReq idx flags off chunk => Sys2Proof.Machine.execManyhdrReq idx flags off chunk s
  | .manyhdrReply r flags off chunk => Sys2Proof.Machine.execManyhdrReply r flags off chunk s
  | .manyflagIslast flags => Sys2Proof.Machine.execManyflagIslast flags s
  | .manyflagIswrite flags => Sys2Proof.Machine.execManyflagIswrite flags s
  | .cmdGetmap0 => Sys2Proof.Machine.execCmdGetmap0 s
  | .cmdMany1 => Sys2Proof.Machine.execCmdMany1 s
  | .cmdEcho2 => Sys2Proof.Machine.execCmdEcho2 s
  | .cmdEcho3 => Sys2Proof.Machine.execCmdEcho3 s
  | .cmdEcho4 => Sys2Proof.Machine.execCmdEcho4 s
  | .cmdOob cmd => Sys2Proof.Machine.execCmdOob cmd s
  | .manyidxProps0 => Sys2Proof.Machine.execManyidxProps0 s
  | .manyidxBlob1 => Sys2Proof.Machine.execManyidxBlob1 s
  | .manyidxOob idx => Sys2Proof.Machine.execManyidxOob idx s
  | .retOk => Sys2Proof.Machine.execRetOk s
  | .retFail => Sys2Proof.Machine.execRetFail s
  | .retOob => Sys2Proof.Machine.execRetOob s
  | .retTimeout => Sys2Proof.Machine.execRetTimeout s
  | .retChecksum => Sys2Proof.Machine.execRetChecksum s
  | .rdByte v => Sys2Proof.Machine.execRdByte v s
  | .rdTimeout => Sys2Proof.Machine.execRdTimeout s
  | .rdEscerr => Sys2Proof.Machine.execRdEscerr s
  | .fpIdle => Sys2Proof.Machine.execFpIdle s
  | .fpReadSeq => Sys2Proof.Machine.execFpReadSeq s
  | .fpReadCmdOffset => Sys2Proof.Machine.execFpReadCmdOffset s
  | .fpReadLength => Sys2Proof.Machine.execFpReadLength s
  | .fpReadPayload => Sys2Proof.Machine.execFpReadPayload s
  | .fpReadChecksum => Sys2Proof.Machine.execFpReadChecksum s
  | .fpDispatch => Sys2Proof.Machine.execFpDispatch s
  | .fpSendReply => Sys2Proof.Machine.execFpSendReply s
  | .siteLineCmd => Sys2Proof.Machine.execSiteLineCmd s
  | .siteLineOob => Sys2Proof.Machine.execSiteLineOob s
  | .siteLineLen => Sys2Proof.Machine.execSiteLineLen s
  | .siteLinePayload => Sys2Proof.Machine.execSiteLinePayload s
  | .siteLineCsumRd => Sys2Proof.Machine.execSiteLineCsumRd s
  | .siteLineCsumBad => Sys2Proof.Machine.execSiteLineCsumBad s
  | .siteLineManyOob => Sys2Proof.Machine.execSiteLineManyOob s
  | .opRawrd => Sys2Proof.Machine.execOpRawrd s
  | .opDec => Sys2Proof.Machine.execOpDec s
  | .opEnc b => Sys2Proof.Machine.execOpEnc b s
  | .opCsum seq c data => Sys2Proof.Machine.execOpCsum seq c data s
  | .opPoll => Sys2Proof.Machine.execOpPoll s
  | .opSendframe m seq c data => Sys2Proof.Machine.execOpSendframe m seq c data s
  | .opDispatch c => Sys2Proof.Machine.execOpDispatch c s
  | .opHcallB h => Sys2Proof.Machine.execOpHcallB h s
  | .opEcho => Sys2Proof.Machine.execOpEcho s
  | .opGetmap => Sys2Proof.Machine.execOpGetmap s
  | .opMany => Sys2Proof.Machine.execOpMany s
  | .opHcallC h isLast isWrite off clen => Sys2Proof.Machine.execOpHcallC h isLast isWrite off clen s
  | .opProps isLast isWrite off clen => Sys2Proof.Machine.execOpProps isLast isWrite off clen s
  | .opChBlob base size writable isLast isWrite off clen => Sys2Proof.Machine.execOpChBlob base size writable isLast isWrite off clen s
  | .opTas => Sys2Proof.Machine.execOpTas s
  | .opRel => Sys2Proof.Machine.execOpRel s
  | .opSifsend c data => Sys2Proof.Machine.execOpSifsend c data s
  | .opErrframe code seq line => Sys2Proof.Machine.execOpErrframe code seq line s
  | .opReset => Sys2Proof.Machine.execOpReset s

end Sys2Proof.Machine
end

