-- ==== Sys2Proof/Machine/Run.lean ====
section
/-! DEFINITION. What one step runs: a word of the operation port, the next micro-step of the operation in progress, or
the next thing the outside does (R81, R247, R275, R305). -/

namespace Sys2Proof.Machine

/-- A word read in its layer and executed. -/
def runWord (l : Layer) (bytes : List Byte) (s : State) : Host.Outcome State Fault Refusal :=
  match decode s.cfg l bytes with
  | .ok i => exec i s
  | .error e => .refused (.undecodable e)

/-- The next micro-step: of the SIF send in progress; of an idle engine, the entry of its caller's next poll; else of
the sequencer, whose state register is the engine's program counter and is decoded as such (R21, R162, R247). -/
def advance (s : State) : Host.Outcome State Fault Refusal :=
  match s.sif with
  | some j => .next (sifFinish j s)
  | none =>
    if s.fp = .idle ∧ s.entered = false then .next (enterPoll s) else runWord .fpState [s.fp.code] s

/-- One thing the outside does. Time elapses in any state of the sequencer: also between two micro-steps inside a frame
a `gap` may be over with no Timeout, since only a `RAWRD` counts a window (R131; R315 leaves the time between two reads
open: DESIGN CHOICE, entry 8). -/
def applyInput (i : Input) (s : State) : Host.Outcome State Fault Refusal :=
  match i with
  | .word l bytes => runWord l bytes s
  | .run => advance s
  | .sif x data => sifGuard data s (sifBegin x data s)
  | .link up => .next (s.setLink up)
  | .arrive events => .next (s.setRx (s.rx ++ events))
  | .elapse => .next (s.setRx (afterElapse s.rx))
  | .answers ok => .next (s.setAnswers (s.txAnswers ++ ok))

/-- The word of an opcode-table row placed next on the operation port. -/
def placeTableWord (s : State) (nbits w : Nat) : State :=
  let word := tableWord (tableBytes ((nbits + 7) / 8) w)
  s.setInputs (.word word.1 word.2 :: s.inputs)

end Sys2Proof.Machine
end

