-- ==== Sys2Proof/Machine/Step.lean ====
section
/-! DEFINITION. One step of the machine (R81, R247, R275): the outside does the next thing it has to do, or, when it has
nothing, the operation in progress takes its next micro-step; an idle engine is polled again by its caller (R305). -/

namespace Sys2Proof.Machine

/-- One step. A configuration that breaks R8 to R11 is refused (U1). -/
def step (s : State) : Host.Outcome State Fault Refusal :=
  if s.cfg.legal then
    match s.inputs with
    | [] => advance s
    | i :: rest => applyInput i (s.setInputs rest)
  else .refused .illegalConfig

/-- The state with a table row's word next on the operation port, so that the very next step runs it. -/
def State.withFetchWord (s : State) (nbits w : Nat) : State := placeTableWord s nbits w

end Sys2Proof.Machine
end

