-- ==== Sys2Proof/Safety.lean ====
section
/-! DEFINITION. What counts as a safe run, in the terms the statements use: the invariants of the machine, the shape of
an error exit, and how many bytes of a frame a transport takes. -/

namespace Sys2Proof.Machine

/-- Of `n` bytes offered in order on a link that is up, how many are taken before the first failure (R66, R178). -/
def accepted : List Bool → Nat → Nat
  | _, 0 => 0
  | [], n + 1 => n + 1
  | true :: rest, n + 1 => accepted rest n + 1
  | false :: _, _ + 1 => 0

/-- The answers left after `n` bytes have been offered on a link that is up, up to the first failure. -/
def answersLeft : List Bool → Nat → List Bool
  | ans, 0 => ans
  | [], _ + 1 => []
  | true :: rest, n + 1 => answersLeft rest n
  | false :: rest, _ + 1 => rest

/-- Of `n` bytes offered in order, how many the transport takes: on a link that is down none (R66, R178, R245). -/
def taken (s : State) (n : Nat) : Nat := if s.link then accepted s.txAnswers n else 0

/-- The answers still to come after `n` bytes have been offered, up to the first failure. -/
def answersAfter (s : State) (n : Nat) : List Bool := if s.link then answersLeft s.txAnswers n else s.txAnswers

/-- The transmit trace after a frame of raw bytes `raw` has been sent: the bytes taken, and a flush when all were
(R176 to R178). -/
def sentTrace (s : State) (raw : List Byte) : List TxEvent :=
  s.tx ++ (raw.take (taken s raw.length)).map .byte ++
    (if taken s raw.length = raw.length then [.flush] else [])

/-- Whether the transport takes all of `raw`. -/
def takesAll (s : State) (raw : List Byte) : Bool := taken s raw.length == raw.length

/-- The raw bytes of a frame with the checksum of R150 (R93, R94). -/
def rawFrame (c : Config) (m : Marker) (seq x : Byte) (data : List Byte) : List Byte :=
  escapeFrame c (frameBytes (markerValue c m) seq x data (frameChecksum c seq x data))

/-- The raw bytes of an ErrorFrame (R97). -/
def rawError (c : Config) (code : ErrCode) (seq : Byte) (line : Half) : List Byte :=
  rawFrame c .sof seq (errByte c code) (lineBytes line)

/-- `r` answers whether the transport took all of `raw`, and the state after as much of it as was taken has been enqueued:
besides the transmit side only `CSUM` and `IDX` may differ from `s` (R66, R176, R178). -/
def Offered (s : State) (raw : List Byte) (r : Bool × State) : Prop :=
  r.1 = takesAll s raw ∧
  r.2 = { s with
    csum := r.2.csum, idx := r.2.idx
    tx := s.tx ++ (raw.take (taken s raw.length)).map .byte
    txAnswers := answersAfter s raw.length }

/-- Every byte of memory reads the same in both states: the PayloadBuffer and the handlers' store. -/
def SameMemory (s t : State) : Prop :=
  ∀ a, t.bufRead a = s.bufRead a ∧ storeRead t.store a = storeRead s.store a

/-- `t` differs from `s` at most in what a Chunked handler may write: the chunk in `BUF` and the handlers' own state
(R44, R203, R224). -/
def ChunkFrame (s t : State) : Prop := t = { s with buf := t.buf, store := t.store, appState := t.appState }

/-- `t` differs from `s` at most in what a Bounded handler may write: `BUF`, `LEN`, the handlers' own state, for `MANY`
its working registers, and the result port (R43, R203). -/
def HandlerFrame (s t : State) : Prop :=
  t = { s with
    buf := t.buf, len := t.len, store := t.store, appState := t.appState
    midx := t.midx, mflags := t.mflags, moff := t.moff, mclen := t.mclen, result := t.result }

/-- `t` is `s` after one frame of raw bytes `raw` has been sent with result port `r`: only the transmit side, `CSUM`,
`IDX` and the result port differ. -/
def FrameSent (s t : State) (raw : List Byte) (r : Result) : Prop :=
  t = { s with csum := t.csum, idx := t.idx, tx := sentTrace s raw,
               txAnswers := answersAfter s raw.length, result := r }

/-- `t` is `s` after the error exit with this code and line: `LINE` and `RET` loaded, one ErrorFrame with the captured
sequence number, `BUSY` released and `FP` in `Idle`; nothing else but `CSUM` and `IDX` differs (R266 to R270, R277). -/
def ErrorExit (s t : State) (code : ErrCode) (line : Half) : Prop :=
  t = { s with
    line := line, ret := errByte s.cfg code, csum := t.csum, idx := t.idx
    tx := sentTrace s (rawError s.cfg code s.seq line)
    txAnswers := answersAfter s (rawError s.cfg code s.seq line).length
    fp := .idle, busy := false, entered := false
    result := .poll (if takesAll s (rawError s.cfg code s.seq line) then .errorSent (errByte s.cfg code) line
      else .errorCutShort (errByte s.cfg code) line) }

/-- The data invariant: the configuration is legal, both memories are in canonical form, and the timeout counter is in
its range (R31, R32). -/
structure DataInv (s : State) : Prop where
  legal : s.cfg.legal = true
  buffer : s.buf.wf = true
  store : storeWf s.store = true
  counter : s.tcnt ≤ s.cfg.timeoutWindow

/-- Nothing from outside but triggers and transport events is waiting: no word on the operation port. -/
def triggersOnly (s : State) : Bool :=
  s.inputs.all fun i =>
    match i with
    | .word _ _ => false
    | _ => true

/-- The states in which a sequence number has been captured (R25). -/
def Fp.hasSequence : Fp → Bool
  | .idle | .readSeq => false
  | _ => true

/-- The states past the range check of the command offset (R166). -/
def Fp.hasCommand : Fp → Bool
  | .idle | .readSeq | .readCmdOffset => false
  | _ => true

/-- `CSUM` is the checksum of the fields received so far (R152, R170). -/
def receiveChecksum (s : State) : Prop :=
  match s.fp with
  | .readCmdOffset => s.csum = s.seq
  | .readLength => s.csum = s.seq ^^^ codeTerm s.cfg s.cmd
  | .readPayload => s.csum = checksum s.cfg s.seq s.cmd s.len (s.buf.range 0 s.idx.toNat)
  | .readChecksum => s.csum = checksum s.cfg s.seq s.cmd s.len (s.buf.range 0 s.len.toNat)
  | .dispatch => s.csum = checksum s.cfg s.seq s.cmd s.len (s.buf.range 0 s.len.toNat)
  | _ => True

/-- A poll is past its `TAS`: its start marker is to be read, or the sequencer has left `Idle` (R162, R163). -/
abbrev State.polling (s : State) : Prop := s.fp ≠ .idle ∨ s.entered = true

/-- The engine's invariant under its own two agents (R21, R25, R33, R86, R166, R246): `BUSY` is set exactly while a poll
or a SIF send is in progress, never both are, and the frame registers hold what the sequencer's state says. -/
structure EngineInv (s : State) : Prop where
  data : DataInv s
  triggers : triggersOnly s = true
  busy : s.busy = true ↔ (s.polling ∨ s.sif.isSome = true)
  oneHolder : s.polling → s.sif = none
  marker : s.entered = true → s.fp = .idle ∧ s.seqv = false
  sequence : s.fp ≠ .idle → s.seqv = s.fp.hasSequence
  command : s.fp.hasCommand = true → s.cmd.toNat < s.cfg.tableSize
  index : s.fp = .readPayload → s.idx.toNat ≤ s.len.toNat
  job : ∀ j, s.sif = some j → j.data.length ≤ Config.cap
  checksum : receiveChecksum s

/-- The successors of a sequencer state (R23): the next in the list, itself only for `ReadPayload` and `Idle`, or
`Idle`. -/
def Fp.successor : Fp → Fp → Bool
  | .idle, .readSeq => true
  | .readSeq, .readCmdOffset => true
  | .readCmdOffset, .readLength => true
  | .readLength, .readPayload => true
  | .readPayload, .readPayload => true
  | .readPayload, .readChecksum => true
  | .readChecksum, .dispatch => true
  | .dispatch, .sendReply => true
  | _, .idle => true
  | _, _ => false

/-- The row of a sequencer state (R21). -/
def Fp.instr : Fp → Instr
  | .idle => .fpIdle
  | .readSeq => .fpReadSeq
  | .readCmdOffset => .fpReadCmdOffset
  | .readLength => .fpReadLength
  | .readPayload => .fpReadPayload
  | .readChecksum => .fpReadChecksum
  | .dispatch => .fpDispatch
  | .sendReply => .fpSendReply

/-- The states in which the sequencer reads a byte of a frame body (R164 to R169). -/
def Fp.readsBody : Fp → Bool
  | .readSeq | .readCmdOffset | .readLength | .readPayload | .readChecksum => true
  | .idle | .dispatch | .sendReply => false

/-- The row of a read result (R133). -/
def RdResult.instr : RdResult → Instr
  | .byte v => .rdByte v
  | .timeout => .rdTimeout
  | .escError => .rdEscerr

/-- In `ReadPayload`, either no byte is left to read or there is a `BUF` address for the next one (R22, R32). -/
def State.payloadRoom (s : State) : Prop := s.fp = .readPayload → s.idx = s.len ∨ s.idx.toNat < Config.cap

/-- Whether the Chunked table holds no application handler, whose contract the engine cannot check (R225). -/
def builtinsOnly (c : Config) : Bool :=
  c.ct.all fun h =>
    match h with
    | .app _ => false
    | _ => true

/-- `DEC` repeated `n` times: the results, and the state after them. -/
def decRun : Nat → State → List RdResult × State
  | 0, s => ([], s)
  | n + 1, s =>
    let r := dec s
    let rest := decRun n r.2
    (r.1 :: rest.1, rest.2)

/-- The first `k` names, each with its NUL (R207). -/
def namesImage (c : Config) (k : Nat) : List Byte := (c.names.take k).flatMap (fun n => n ++ [0])

/-- A state that is ready to poll: the link is up, a byte is waiting, and nobody holds `BUSY` (R161, R162). -/
def State.pollable (s : State) : Bool := s.link && transportAvailable s && !s.busy

end Sys2Proof.Machine
end

