-- ==== Sys2Proof/Certificates/Slice0/Obligations.lean ====
section
/-! DEFINITION. The statements for the provers. A next state is written as a record update of the state before, so each
such statement is also its own frame: every register, both memories, the transport and the handlers' state not named
in the update are unchanged. -/

open Sys2Proof Sys2Proof.Machine

/-! ### Encoding -/

/-- Decoding the words of a well-formed instruction in its layer gives that instruction, with every operand at every
value its encoding admits, under every legal configuration (30_encoding.md; R73, R93 to R100, R107). The numbering of
operations is the model's own: DESIGN CHOICE, entry 5. Not the spec's words but the model's: that words are read in
layers (entry 4, DESIGN CHOICE); that a 16-bit value is two bytes, high byte first (entry 4, DEDUCED); the operation
words (entry 5, DESIGN CHOICE); that a reserved code with length 2 is an ErrorFrame (entry 15, DEDUCED); which of two
flags or equal site values names the row (entry 26, DESIGN CHOICE). -/
def Obligations.DecodeOfEncode : Prop :=
  ∀ (c : Config) (i : Instr), c.legal = true → i.wellFormed c = true →
    decode c (layerOf i) (encode c i) = .ok i

/-- The other direction: bytes that decode in a layer are the words of what they decode to, so every word of a layer
has one meaning and no bit of it is dropped. Not the spec's words but the model's: that words are read in layers
(entry 4, DESIGN CHOICE); the operation words (entry 5, DESIGN CHOICE). -/
def Obligations.EncodeOfDecode : Prop :=
  ∀ (c : Config) (l : Layer) (bs : List Byte) (i : Instr),
    decode c l bs = .ok i → layerOf i = l ∧ encode c i = bs

/-- Words written out from the spec's encodings decode to what they stand for under CFG_REF: raw bytes and frames
(R91, R92, R95, R96, R98), a ManyHeader (R99), a command offset (R103), a sequencer state (R21); with the model's
reading of a 16-bit value as two bytes, high byte first, a read result (R133) and a site (R258); and an ErrorFrame's
bytes as that ErrorFrame (R97, R106). Not the spec's words but the model's: that a 16-bit value is two bytes, high
byte first (entry 4, DEDUCED); that a reserved code with length 2 is an ErrorFrame (entry 15, DEDUCED). -/
def Obligations.SpecWordsDecode : Prop :=
  decode Config.ref .raw [0x12] = .ok .rawSof ∧
  decode Config.ref .raw [0x7D, 0x11] = .ok (.rawEscpair 0x11) ∧
  decode Config.ref .hostFrame [0x12, 0x03, 0x04, 0x02, 0xAA, 0xBB, 0x7E] = .ok (.frameReq 3 4 [0xAA, 0xBB] 0x7E) ∧
  decode Config.ref .deviceFrame [0x12, 0x03, 0x00, 0x02, 0xAA, 0xBB, 0x7A] =
    .ok (.frameReply 3 0 [0xAA, 0xBB] 0x7A) ∧
  decode Config.ref .deviceFrame [0x12, 0x03, 0xF0, 0x02, 0x01, 0x06, 0x9C] = .ok (.frameErrOob 3 0x0106 0x9C) ∧
  decode Config.ref .deviceFrame [0x14, 0x00, 0x30, 0x03, 1, 2, 3, 0x5F] = .ok (.frameSif 0 0x30 [1, 2, 3] 0x5F) ∧
  decode Config.ref .manyRequest [1, 2, 0xF9, 0, 0, 0, 0xAB] = .ok (.manyhdrReq 1 2 249 [0xAB]) ∧
  decode Config.ref .command [5] = .ok (.cmdOob 5) ∧
  decode Config.ref .fpState [4] = .ok .fpReadPayload ∧
  decode Config.ref .readResult [0x01, 0x00] = .ok .rdTimeout ∧
  decode Config.ref .site [0x01, 0x22] = .ok .siteLineManyOob

/-- R138: the encoding of bodies is injective, and the raw bytes of an encoded body hold neither `SOF` nor, when it is
reserved, `SOS`. -/
def Obligations.EscapingIsInjectiveAndDelimiterFree : Prop :=
  ∀ (c : Config) (body body' : List Byte), c.legal = true →
    (escapeBody c body = escapeBody c body' → body = body') ∧
    c.sof ∉ escapeBody c body ∧ (c.hasSif = true → c.sos ∉ escapeBody c body)

/-! ### Step -/

/-- A step runs the decoded instruction: when the next thing on the operation port is a word that decodes in its layer
to `i`, the step is `exec i` at the state with that word taken off the port, whatever else waits there. Not the spec's
words but the model's: the operation port (entry 6, DESIGN CHOICE). -/
def Obligations.StepRunsDecodedWord : Prop :=
  ∀ (s : State) (l : Layer) (bytes : List Byte) (rest : List Input) (i : Instr),
    s.cfg.legal = true → s.inputs = .word l bytes :: rest → decode s.cfg l bytes = .ok i →
    step s = exec i { s with inputs := rest }

/-- With nothing from outside, or at a `run` trigger, the step is the micro-step of the operation in progress (R21,
R247): of the SIF send past its `TAS`, else the row of the sequencer's state; of an idle engine it is the entry of its
caller's next poll, since the engine executes nothing on its own (R285, R302, R305): the tests of the link, the queue
and the flag in order, then the `TAS` (R161, R162). The entry and the start-marker read after it, taken one step each,
end as the row of `Idle` does. Not the spec's words but the model's: that with nothing from outside an idle engine is
polled (entry 6, DESIGN CHOICE); that the machine runs the state rows (entry 11, DESIGN CHOICE); the size of a
micro-step (entry 10, DESIGN CHOICE); that a SIF send is two (entry 20, DESIGN CHOICE); the result port (entry 9,
DESIGN CHOICE). -/
def Obligations.StepAdvancesTheOperation : Prop :=
  ∀ (s u : State) (rest : List Input), s.cfg.legal = true →
    (s.inputs = [] ∧ u = s) ∨ (s.inputs = .run :: rest ∧ u = { s with inputs := rest }) →
    (∀ j, u.sif = some j → step s = .next (sifFinish j u)) ∧
    (u.sif = none → u.fp ≠ .idle ∨ u.entered = true → step s = exec u.fp.instr u) ∧
    (u.sif = none → u.fp = .idle → u.entered = false →
      (u.link = false → step s = .next { u with result := .poll (.noOp .notReady) }) ∧
      (u.link = true → transportAvailable u = false → step s = .next { u with result := .poll (.noOp .noByte) }) ∧
      (u.link = true → transportAvailable u = true → u.busy = true →
        step s = .next { u with result := .poll (.noOp .busy) }) ∧
      (u.link = true → transportAvailable u = true → u.busy = false →
        step s = .next { u with busy := true, seqv := false, entered := true } ∧
        (u.inputs = [] → step { u with busy := true, seqv := false, entered := true } = exec .fpIdle u)))

/-- The other things the outside does: the SIF trigger takes `BUSY` and the counter or is turned away (R243, R275),
and transport events change the transport alone (R42, R70). Not the spec's words but the model's: the list of what the
outside does (entry 6, DESIGN CHOICE); the event `quiet`, and that `elapse` ends a `gap` or `quiet` in every state,
inside a frame too (entry 8, DESIGN CHOICE); that the trigger leaves the frame as a job for the next step (entry 20,
DESIGN CHOICE); the answer `Busy` on the result port (entry 9, DESIGN CHOICE). -/
def Obligations.StepServesTheOutside : Prop :=
  ∀ (s : State) (rest : List Input), s.cfg.legal = true →
    (∀ x data, s.inputs = .sif x data :: rest → s.cfg.hasSif = true → data.length ≤ Config.cap →
      (s.busy = true → step s = .next { s with inputs := rest, result := .send .busy }) ∧
      (s.busy = false → step s = .next { s with
        inputs := rest, busy := true, sifseq := s.sifseq + 1, sif := some ⟨s.sifseq, x, data⟩ })) ∧
    (∀ up, s.inputs = .link up :: rest → step s = .next { s with inputs := rest, link := up }) ∧
    (∀ ev, s.inputs = .arrive ev :: rest → step s = .next { s with inputs := rest, rx := s.rx ++ ev }) ∧
    (∀ ok, s.inputs = .answers ok :: rest → step s = .next { s with inputs := rest, txAnswers := s.txAnswers ++ ok }) ∧
    (s.inputs = .elapse :: rest → step s = .next { s with inputs := rest, rx := afterElapse s.rx })

/-- U1: a configuration that is not legal is refused, whatever is to be done, and a legal one never is; and a legal
one has what R8 to R11 ask: distinct markers, `b - 1` outside the reserved set for every reserved `b`, checksum
constants non-zero and distinct, distinct return codes, `MANY` at `MANY_OFFSET`, distinct flag bits, and tables of at
most 256 entries. Not the spec's words but the model's: the constraints on names, properties, features, `RET_OK` and
the read sentinels in `legal` (entry 25, DEDUCED). -/
def Obligations.IllegalConfigurationsRefused : Prop :=
  (∀ s : State, step s = .refused .illegalConfig ↔ s.cfg.legal = false) ∧
  ∀ c : Config, c.legal = true →
    (c.sof ≠ c.sos ∧ c.sof ≠ c.esc ∧ c.sos ≠ c.esc) ∧
    (∀ b, b = c.sof ∨ b = c.esc ∨ c.hasSif = true ∧ b = c.sos →
      b - 1 ≠ c.sof ∧ b - 1 ≠ c.esc ∧ ¬ (c.hasSif = true ∧ b - 1 = c.sos)) ∧
    (c.crcCmd ≠ 0 ∧ c.crcLen ≠ 0 ∧ c.crcCmd ≠ c.crcLen) ∧
    (c.retOob ≠ c.retTimeout ∧ c.retOob ≠ c.retChecksum ∧ c.retTimeout ≠ c.retChecksum) ∧
    (c.retFail ≠ 0 ∧ c.retFail ≠ c.retOob ∧ c.retFail ≠ c.retTimeout ∧ c.retFail ≠ c.retChecksum) ∧
    (c.hasMany = true → c.jt[c.manyOffset.toNat]? = some .many) ∧
    c.isLastBit ≠ c.isWriteBit ∧ c.jt.length ≤ 256 ∧ c.ct.length ≤ 256

/-! ### Reset -/

/-- R45: `State.reset` has the values the table gives, with no byte of `BUF` written; the configuration is CFG_REF
(R12) and legal. Not the spec's words but the model's: that the reset state holds CFG_REF (entry 2, DESIGN CHOICE). -/
def Obligations.ResetValues : Prop :=
  State.reset.fp = .idle ∧ State.reset.seqv = false ∧ State.reset.busy = false ∧ State.reset.sifseq = 0 ∧
  State.reset.tcnt = 0 ∧ State.reset.buf.cells = [] ∧ State.reset.cfg = Config.ref ∧ Config.ref.legal = true

/-- R300, R301: `RESET` completes in every state, gives every register of R45's table its value and abandons the
operation in progress; the transport, the handlers' own state, the tables and the constants are untouched. Every
register R45 leaves unspecified, and every byte of `BUF`, is whatever the new state says: the statement names none of
those values. Not the spec's words but the model's: that `inputs` is untouched (entry 30, DESIGN CHOICE); the result
port (entry 9, DESIGN CHOICE); the count of draws (entry 3, DESIGN CHOICE). -/
def Obligations.ResetOperation : Prop :=
  ∀ s : State, ∃ t, exec .opReset s = .next t ∧ t.buf.cells = [] ∧
    t = { s with
      fp := .idle, seqv := false, busy := false, sifseq := 0, tcnt := 0, sif := none, entered := false
      idx := t.idx, seq := t.seq, cmd := t.cmd, len := t.len, csum := t.csum, ret := t.ret, line := t.line
      midx := t.midx, mflags := t.mflags, moff := t.moff, mclen := t.mclen, buf := t.buf
      result := t.result, draws := t.draws }

/-! ### Frame codec -/

/-- R131, R132: `RAWRD` polls at most the window. A byte that is queued after `k` fruitless polls, `k` at most the
window, is answered with `k` counted and `T.task` called `k` times (so a byte already queued is answered whatever the
window). With none, because a gap comes, the input ends, or there are more fruitless polls than the window, the answer
is `Timeout` with `TCNT` at the window; the gap that was met is consumed. Not the spec's words but the model's: the
event `quiet` (entry 8, DESIGN CHOICE); the result port (entry 9, DESIGN CHOICE). -/
def Obligations.RawrdWaitsForTheWindow : Prop :=
  ∀ (s : State) (k : Nat) (rest : List RxEvent),
    (∀ v, k ≤ s.cfg.timeoutWindow → s.rx = List.replicate k .quiet ++ .byte v :: rest → exec .opRawrd s =
      .next { s with rx := rest, tcnt := k, tasks := s.tasks + k, result := .read (.byte v) }) ∧
    (k ≤ s.cfg.timeoutWindow → s.rx = List.replicate k .quiet ++ .gap :: rest → exec .opRawrd s =
      .next { s with rx := rest, tcnt := s.cfg.timeoutWindow, tasks := s.tasks + s.cfg.timeoutWindow
                     result := .read .timeout }) ∧
    (k ≤ s.cfg.timeoutWindow → s.rx = List.replicate k .quiet → exec .opRawrd s =
      .next { s with rx := [], tcnt := s.cfg.timeoutWindow, tasks := s.tasks + s.cfg.timeoutWindow
                     result := .read .timeout }) ∧
    (s.rx = List.replicate (s.cfg.timeoutWindow + 1) .quiet ++ rest → exec .opRawrd s =
      .next { s with rx := .quiet :: rest, tcnt := s.cfg.timeoutWindow, tasks := s.tasks + s.cfg.timeoutWindow
                     result := .read .timeout })

/-- R134, R136, R139, R140: `DEC` is one `RAWRD`, or two after an `ESC`. A timeout of either is `Timeout` (the `ESC`
is lost), an unescaped delimiter is `EscError` and consumed, a second byte is itself plus 1 modulo 256 and is not
examined, and any other byte is itself. Bytes that wait are taken at once, one for a plain byte or a delimiter and two
for an escape pair. Not the spec's words but the model's: the result port (entry 9, DESIGN CHOICE). -/
def Obligations.DecIsOneOrTwoRawReads : Prop :=
  ∀ s : State, s.cfg.legal = true →
    (∀ u, exec .opRawrd s = .next u →
      (u.result = .read .timeout → exec .opDec s = .next u) ∧
      (∀ v, u.result = .read (.byte v) → s.cfg.reserved v = false → exec .opDec s = .next u) ∧
      (∀ v, u.result = .read (.byte v) → v = s.cfg.sof ∨ s.cfg.hasSif = true ∧ v = s.cfg.sos →
        exec .opDec s = .next { u with result := .read .escError }) ∧
      (u.result = .read (.byte s.cfg.esc) → ∀ w, exec .opRawrd u = .next w →
        (w.result = .read .timeout → exec .opDec s = .next w) ∧
        (∀ x, w.result = .read (.byte x) → exec .opDec s = .next { w with result := .read (.byte (x + 1)) }))) ∧
    (∀ v rest,
      (s.rx = .byte v :: rest → s.cfg.reserved v = false → exec .opDec s =
        .next { s with rx := rest, tcnt := 0, result := .read (.byte v) }) ∧
      (s.rx = .byte v :: rest → v = s.cfg.sof ∨ s.cfg.hasSif = true ∧ v = s.cfg.sos → exec .opDec s =
        .next { s with rx := rest, tcnt := 0, result := .read .escError }) ∧
      (s.rx = .byte s.cfg.esc :: .byte v :: rest → exec .opDec s =
        .next { s with rx := rest, tcnt := 0, result := .read (.byte (v + 1)) }))

/-- R135: `ENC` offers `ESC` and `b - 1` for a reserved byte, else the byte itself, up to the transport's first
failure, and answers whether all of it was taken. Not the spec's words but the model's: the result port (entry 9,
DESIGN CHOICE); that the answers of `T.tx` on a link that is up are listed, then success (entry 29, DESIGN CHOICE). -/
def Obligations.EncEscapes : Prop :=
  ∀ (s : State) (b : Byte), ∃ raw,
    raw = (if s.cfg.reserved b then [s.cfg.esc, b - 1] else [b]) ∧
    exec (.opEnc b) s = .next { s with
      tx := s.tx ++ (raw.take (taken s raw.length)).map .byte
      txAnswers := answersAfter s raw.length
      result := .flag (takesAll s raw) }

/-- R137: the raw bytes `ENC` sends for a byte, presented to `DEC` with no gap, are consumed exactly and give the byte
back; for a whole body too. -/
def Obligations.CodecRoundTrip : Prop :=
  ∀ (s : State) (body : List Byte) (rest : List RxEvent), s.cfg.legal = true →
    s.rx = (escapeBody s.cfg body).map .byte ++ rest →
    (decRun body.length s).1 = body.map .byte ∧
    (body ≠ [] → (decRun body.length s).2 = { s with rx := rest, tcnt := 0 })

/-! ### Checksum -/

/-- R150: `CSUM` is the XOR of the sequence number, the code plus `CRC_CMD`, the length plus `CRC_LEN` and every
payload byte, and is a pure function; more than 255 data bytes, which no length byte can count, are refused. Not the
spec's words but the model's: the refusal (entry 27, DEDUCED); the result port (entry 9, DESIGN CHOICE). -/
def Obligations.ChecksumFormula : Prop :=
  ∀ (s : State) (seq x : Byte) (data : List Byte),
    (data.length ≤ 255 → exec (.opCsum seq x data) s = .next { s with
      result := .sum (seq ^^^ (x + s.cfg.crcCmd) ^^^ (BitVec.ofNat 8 data.length + s.cfg.crcLen) ^^^
        data.foldr (fun a b => a ^^^ b) 0) }) ∧
    (255 < data.length → exec (.opCsum seq x data) s = .refused .operandTooLong)

/-- Changing the sequence number alone, the code alone, the length alone with the payload held fixed, or one payload
byte alone changes the checksum (R156); and with two different constants, as every legal configuration has, the
checksum of the all-zero frame is `CRC_CMD ^ CRC_LEN` and not zero, 0x6A under CFG_REF (R157). -/
def Obligations.ChecksumDetectsOneChange : Prop :=
  ∀ (c : Config) (seq seq' x x' len len' : Byte) (data : List Byte),
    (seq ≠ seq' → checksum c seq x len data ≠ checksum c seq' x len data) ∧
    (x ≠ x' → checksum c seq x len data ≠ checksum c seq x' len data) ∧
    (len ≠ len' → checksum c seq x len data ≠ checksum c seq x len' data) ∧
    (∀ (k : Nat) (b : Byte) (h : k < data.length), b ≠ data[k] →
      checksum c seq x len data ≠ checksum c seq x len (data.set k b)) ∧
    (c.crcCmd ≠ c.crcLen → frameChecksum c 0 0 [] = c.crcCmd ^^^ c.crcLen ∧ frameChecksum c 0 0 [] ≠ 0) ∧
    frameChecksum Config.ref 0 0 [] = 0x6A

/-! ### Frame Processor: what each state does with a read result -/

/-- R162, R163: with `BUSY` free a first byte `SOF` takes it, clears `SEQV` and leaves `Idle`; any other first byte or
result is discarded with `BUSY` released and nothing sent; with `BUSY` held nothing changes; and where a poll past its
`TAS` waits for its start marker, `SOF` leaves `Idle` with `BUSY` held, and anything else ends the poll. Not the
spec's words but the model's: that a poll past its `TAS` has a micro-step of its own for its start marker (entry 10,
DESIGN CHOICE); that a read-result row acts in the state the sequencer is in (entry 12, DESIGN CHOICE); the result
port (entry 9, DESIGN CHOICE). -/
def Obligations.FirstByteStartsOnlyOnSof : Prop :=
  ∀ (s : State) (r : RdResult), s.fp = .idle →
    (s.entered = false → s.busy = false → r = .byte s.cfg.sof → exec r.instr s =
      .next { s with busy := true, seqv := false, fp := .readSeq, result := .read r }) ∧
    (s.entered = false → s.busy = false → r ≠ .byte s.cfg.sof → exec r.instr s =
      .next { s with seqv := false, result := .poll (.noOp .notSof) }) ∧
    (s.entered = false → s.busy = true → exec r.instr s = .next { s with result := .poll (.noOp .busy) }) ∧
    (s.entered = true → r = .byte s.cfg.sof → exec r.instr s =
      .next { s with fp := .readSeq, entered := false, result := .read r }) ∧
    (s.entered = true → r ≠ .byte s.cfg.sof → exec r.instr s =
      .next { s with busy := false, entered := false, result := .poll (.noOp .notSof) })

/-- R164, R268: the sequence byte goes to `SEQ`, sets `SEQV` and begins `CSUM`; a read failure here is the silent
abort: nothing is sent, `BUSY` released, `FP` in `Idle`. Not the spec's words but the model's: that a read-result row
acts in the state the sequencer is in (entry 12, DESIGN CHOICE); the result port (entry 9, DESIGN CHOICE). -/
def Obligations.SequenceByteIsCaptured : Prop :=
  ∀ s : State, s.fp = .readSeq →
    (∀ v, exec (.rdByte v) s =
      .next { s with seq := v, seqv := true, csum := v, fp := .readCmdOffset, result := .read (.byte v) }) ∧
    exec .rdTimeout s = .next { s with
      fp := .idle, busy := false, entered := false, result := .poll .silentAbort } ∧
    exec .rdEscerr s = .next { s with
      fp := .idle, busy := false, entered := false, result := .poll .silentAbort }

/-- R165, R166: the command byte goes to `CMD` and into `CSUM`; an offset at or above `N` is the out-of-range exit
with `LINE_OOB`, before the length is read and with the rest of the receive queue untouched; a failed read is the
timeout exit with `LINE_CMD`. Not the spec's words but the model's: that a read-result row acts in the state the
sequencer is in (entry 12, DESIGN CHOICE); the result port (entry 9, DESIGN CHOICE); that the answers of `T.tx` on a
link that is up are listed, then success (entry 29, DESIGN CHOICE). -/
def Obligations.CommandByteIsRangeChecked : Prop :=
  ∀ s : State, s.fp = .readCmdOffset →
    (∀ v : Byte, v.toNat < s.cfg.jt.length → exec (.rdByte v) s = .next { s with
      cmd := v, csum := s.csum ^^^ (v + s.cfg.crcCmd), fp := .readLength, result := .read (.byte v) }) ∧
    (∀ v : Byte, s.cfg.jt.length ≤ v.toNat →
      ∃ t, exec (.rdByte v) s = .next t ∧ ErrorExit { s with cmd := v } t .oob s.cfg.lineOob) ∧
    (∀ r : RdResult, r = .timeout ∨ r = .escError → ∃ t, exec r.instr s = .next t ∧ ErrorExit s t .timeout s.cfg.lineCmd)

/-- R167: every length byte goes to `LEN` and into `CSUM`, and the payload index is 0; a failed read is the timeout
exit with `LINE_LEN`. Not the spec's words but the model's: that a read-result row acts in the state the sequencer is
in (entry 12, DESIGN CHOICE); the result port (entry 9, DESIGN CHOICE); that the answers of `T.tx` on a link that is
up are listed, then success (entry 29, DESIGN CHOICE). -/
def Obligations.LengthByteIsAccepted : Prop :=
  ∀ s : State, s.fp = .readLength →
    (∀ v : Byte, exec (.rdByte v) s = .next { s with
      len := v, csum := s.csum ^^^ (v + s.cfg.crcLen), idx := 0, fp := .readPayload, result := .read (.byte v) }) ∧
    (∀ r : RdResult, r = .timeout ∨ r = .escError → ∃ t, exec r.instr s = .next t ∧ ErrorExit s t .timeout s.cfg.lineLen)

/-- R168: a payload byte is stored at `BUF[IDX]` and nowhere else, XOR-ed into `CSUM` and counted, and the state stays
`ReadPayload` while bytes are left; with none left the state goes on to `ReadChecksum` without a read. Not the spec's
words but the model's: that a read-result row acts in the state the sequencer is in (entry 12, DESIGN CHOICE); the
micro-step without a read (entry 10, DESIGN CHOICE); the result port (entry 9, DESIGN CHOICE). -/
def Obligations.PayloadByteIsStored : Prop :=
  ∀ (s : State) (v : Byte), s.fp = .readPayload →
    (s.idx ≠ s.len → s.idx.toNat < Config.cap → ∃ t, exec (.rdByte v) s = .next t ∧
      t = { s with
        buf := t.buf, csum := s.csum ^^^ v, idx := s.idx + 1, result := .read (.byte v)
        fp := if s.idx + 1 = s.len then .readChecksum else .readPayload } ∧
      t.bufRead s.idx.toNat = v ∧ ∀ a, a ≠ s.idx.toNat → t.bufRead a = s.bufRead a) ∧
    (s.idx = s.len → exec .fpReadPayload s = .next { s with fp := .readChecksum })

/-- R169 to R171, R270: a checksum byte equal to the accumulated `CSUM` goes on to `Dispatch`; any other is the
checksum exit with `LINE_CSUM_BAD`; a failed read is the timeout exit with `LINE_CSUM_RD`. Not the spec's words but
the model's: that a read-result row acts in the state the sequencer is in (entry 12, DESIGN CHOICE); the result port
(entry 9, DESIGN CHOICE); that the answers of `T.tx` on a link that is up are listed, then success (entry 29, DESIGN
CHOICE). -/
def Obligations.ChecksumByteIsVerified : Prop :=
  ∀ s : State, s.fp = .readChecksum →
    (exec (.rdByte s.csum) s = .next { s with fp := .dispatch, result := .read (.byte s.csum) }) ∧
    (∀ k, k ≠ s.csum → ∃ t, exec (.rdByte k) s = .next t ∧ ErrorExit s t .checksum s.cfg.lineCsumBad) ∧
    (∀ r : RdResult, r = .timeout ∨ r = .escError → ∃ t, exec r.instr s = .next t ∧ ErrorExit s t .timeout s.cfg.lineCsumRd)

/-- R266, R267: a timeout and an escape error in the four states past the sequence number take the same exit, an
ErrorFrame `RET_TIMEOUT` with the site's line, and leave the very same state. Not the spec's words but the model's:
that a read-result row acts in the state the sequencer is in (entry 12, DESIGN CHOICE); the result port (entry 9,
DESIGN CHOICE); that the answers of `T.tx` on a link that is up are listed, then success (entry 29, DESIGN CHOICE). -/
def Obligations.ReadFailuresExit : Prop :=
  ∀ (s : State) (line : Half),
    (s.fp = .readCmdOffset ∧ line = s.cfg.lineCmd) ∨ (s.fp = .readLength ∧ line = s.cfg.lineLen) ∨
      (s.fp = .readPayload ∧ s.idx ≠ s.len ∧ line = s.cfg.linePayload) ∨
      (s.fp = .readChecksum ∧ line = s.cfg.lineCsumRd) →
    ∃ t, exec .rdTimeout s = .next t ∧ exec .rdEscerr s = .next t ∧ ErrorExit s t .timeout line

/-- R91, second column, with R163: where a start marker is expected one raw byte is taken, without unescaping. `SOF`
begins a frame; `SOS`, a plain byte and `ESC` alone of an escape pair are discarded, the pair's second byte stays
queued. So of a poll begun by the byte, and of a poll past its `TAS` that waits for it. Not the spec's words but the
model's: that a poll past its `TAS` has a micro-step of its own for its start marker (entry 10, DESIGN CHOICE); that a
raw row stands at the head of the receive queue (entry 13, DESIGN CHOICE); the result port (entry 9, DESIGN CHOICE).
-/
def Obligations.RawBytesWhereAMarkerIsExpected : Prop :=
  ∀ s : State, s.cfg.legal = true → s.fp = .idle →
    (s.link = true → s.busy = false → s.entered = false →
      exec .rawSof s = .next { s with
        busy := true, seqv := false, tcnt := 0, fp := .readSeq, result := .read (.byte s.cfg.sof) } ∧
      exec .rawSos s = .next { s with seqv := false, tcnt := 0, result := .poll (.noOp .notSof) } ∧
      (∀ x, exec (.rawEscpair x) s = .next { s with
        rx := .byte x :: s.rx, seqv := false, tcnt := 0, result := .poll (.noOp .notSof) }) ∧
      (∀ v, s.cfg.reserved v = false → exec (.rawPlain v) s = .next { s with
        seqv := false, tcnt := 0, result := .poll (.noOp .notSof) })) ∧
    (s.entered = true →
      exec .rawSof s = .next { s with
        tcnt := 0, fp := .readSeq, entered := false, result := .read (.byte s.cfg.sof) } ∧
      exec .rawSos s = .next { s with
        busy := false, entered := false, tcnt := 0, result := .poll (.noOp .notSof) } ∧
      (∀ x, exec (.rawEscpair x) s = .next { s with
        rx := .byte x :: s.rx, busy := false, entered := false, tcnt := 0, result := .poll (.noOp .notSof) }) ∧
      (∀ v, s.cfg.reserved v = false → exec (.rawPlain v) s = .next { s with
        busy := false, entered := false, tcnt := 0, result := .poll (.noOp .notSof) }))

/-- R91, third column, with R92 and R136: inside a frame body a delimiter reads as an escape error, a pair as its
second byte plus 1, a plain byte as itself, and the state goes on as with that read result. Not the spec's words but
the model's: that a raw row stands at the head of the receive queue (entry 13, DESIGN CHOICE); that a read-result row
acts in the state the sequencer is in, also in `ReadPayload` with no byte left (entry 12, DESIGN CHOICE). -/
def Obligations.RawBytesInsideABody : Prop :=
  ∀ s : State, s.cfg.legal = true → s.fp.readsBody = true → s.payloadRoom →
    (∃ t, exec .rawSof s = .next t ∧ exec .rdEscerr { s with tcnt := 0 } = .next t) ∧
    (∃ t, exec .rawSos s = .next t ∧
      exec (if s.cfg.hasSif then .rdEscerr else .rdByte s.cfg.sos) { s with tcnt := 0 } = .next t) ∧
    (∀ x, ∃ t, exec (.rawEscpair x) s = .next t ∧ exec (.rdByte (x + 1)) { s with tcnt := 0 } = .next t) ∧
    (∀ v, s.cfg.reserved v = false →
      ∃ t, exec (.rawPlain v) s = .next t ∧ exec (.rdByte v) { s with tcnt := 0 } = .next t)

/-! ### Frame Processor: micro-steps -/

/-- R161 to R163: the row of `Idle` where no poll has begun, and a poll of an idle engine: a no-op when the link is
down or no byte waits, tested in this order, and when `BUSY` is held, with nothing consumed; else one raw byte is
taken, and discarded with `BUSY` free again when it is not `SOF`. Where a poll past its `TAS` waits for its start
marker, the row takes it with no further test. Not the spec's words but the model's: that a poll past its `TAS` has a
micro-step of its own for its start marker (entry 10, DESIGN CHOICE); that a state row sets `FP` (entry 11, DESIGN
CHOICE); the result port (entry 9, DESIGN CHOICE). -/
def Obligations.IdleTestsInOrder : Prop :=
  ∀ (s : State) (i : Instr), s.fp = .idle → (i = .fpIdle ∧ s.entered = false) ∨ i = .opPoll →
    (s.link = false → exec i s = .next { s with result := .poll (.noOp .notReady) }) ∧
    (s.link = true → transportAvailable s = false → exec i s = .next { s with result := .poll (.noOp .noByte) }) ∧
    (s.link = true → transportAvailable s = true → s.busy = true →
      exec i s = .next { s with result := .poll (.noOp .busy) }) ∧
    (∀ v rest, s.link = true → s.rx = .byte v :: rest → s.busy = false → v ≠ s.cfg.sof → exec i s =
      .next { s with rx := rest, seqv := false, tcnt := 0, entered := false, result := .poll (.noOp .notSof) }) ∧
    (∀ rest, s.entered = false → s.link = true → s.rx = .byte s.cfg.sof :: rest → s.busy = false → exec .fpIdle s =
      .next { s with rx := rest, busy := true, seqv := false, tcnt := 0, fp := .readSeq
                     result := .read (.byte s.cfg.sof) }) ∧
    (∀ v rest, s.entered = true → s.rx = .byte v :: rest →
      (v = s.cfg.sof → exec .fpIdle s = .next { s with
        rx := rest, tcnt := 0, fp := .readSeq, entered := false, result := .read (.byte v) }) ∧
      (v ≠ s.cfg.sof → exec .fpIdle s = .next { s with
        rx := rest, tcnt := 0, busy := false, entered := false, result := .poll (.noOp .notSof) }))

/-- R164 to R169: the micro-step of a reading state is one `DEC` and the row of its result in that state. Not the
spec's words but the model's: that a state row sets `FP` (entry 11, DESIGN CHOICE); that a read-result row acts in the
state the sequencer is in (entry 12, DESIGN CHOICE). -/
def Obligations.ReadingStatesDecodeOnce : Prop :=
  ∀ (s : State) (f : Fp), f.readsBody = true → (f = .readPayload → s.idx ≠ s.len ∧ s.idx.toNat < Config.cap) →
    ∃ t, exec f.instr s = .next t ∧ exec (dec s).1.instr { (dec s).2 with fp := f } = .next t

/-- R172, R173, R205: `Dispatch` runs the table entry and then replies with its return code in `RET`, but for the many
entry's `RET_OOB`, which is the out-of-range exit with `LINE_MANY_OOB`; `DISPATCH` itself leaves `RET` alone (R43); it
stops only where there is an application Chunked handler and it breaks its bound (R225); an offset outside the table
is the exit with `LINE_OOB`. Not the spec's words but the model's: that a state row sets `FP` (entry 11, DESIGN
CHOICE); an offset outside the table (entry 17, DESIGN CHOICE); that a return code is on the result port and `RET` is
left to the poll (entry 33, DEDUCED); the result port (entry 9, DESIGN CHOICE); that the answers of `T.tx` on a link
that is up are listed, then success (entry 29, DESIGN CHOICE). -/
def Obligations.DispatchThenReply : Prop :=
  ∀ s : State, s.cfg.legal = true →
    (s.cmd.toNat < s.cfg.jt.length →
      (∃ u t r, exec (.opDispatch s.cmd) { s with fp := .dispatch } = .next u ∧ u.result = .handler r u.len ∧
        u.ret = s.ret ∧ exec .fpDispatch s = .next t ∧
        (s.cfg.hasMany = true ∧ s.cmd = s.cfg.manyOffset ∧ r = s.cfg.retOob →
          ErrorExit { u with ret := r } t .oob s.cfg.lineManyOob) ∧
        (¬ (s.cfg.hasMany = true ∧ s.cmd = s.cfg.manyOffset ∧ r = s.cfg.retOob) →
          t = { u with ret := r, fp := .sendReply })) ∨
      (builtinsOnly s.cfg = false ∧ exec (.opDispatch s.cmd) { s with fp := .dispatch } = .fault .chunkTooLong ∧
        exec .fpDispatch s = .fault .chunkTooLong)) ∧
    (s.cfg.jt.length ≤ s.cmd.toNat → ∃ t, exec .fpDispatch s = .next t ∧ ErrorExit s t .oob s.cfg.lineOob)

/-- R174 to R178: `SendReply` sends `SOF`, the echoed sequence number, `RET`, `LEN` and `BUF[0..LEN)` with their own
checksum, then releases `BUSY` and returns to `Idle`, whether or not the transport took all of it. Not the spec's
words but the model's: that a state row sets `FP` (entry 11, DESIGN CHOICE); the result port (entry 9, DESIGN CHOICE);
that the answers of `T.tx` on a link that is up are listed, then success (entry 29, DESIGN CHOICE). -/
def Obligations.ReplyIsSentAndThePollEnds : Prop :=
  ∀ s : State, ∃ t raw, exec .fpSendReply s = .next t ∧
    raw = rawFrame s.cfg .sof s.seq s.ret (s.buf.range 0 s.len.toNat) ∧
    FrameSent { s with fp := .idle, busy := false, entered := false } t raw
      (.poll (if takesAll s raw then .replied else .replyCutShort)) ∧
    (takesAll s raw = true → t.csum = checksum s.cfg s.seq s.ret s.len (s.buf.range 0 s.len.toNat) ∧ t.idx = s.len)

/-- R23: from each state the sequencer's micro-step leads to the next state of the list, to the same state only in
`ReadPayload`, with bytes left to read before and after, and `Idle`, or to `Idle`. Not the spec's words but the
model's: that a state row sets `FP` (entry 11, DESIGN CHOICE); the micro-step of an idle poll that is turned away
(entry 10, DESIGN CHOICE). -/
def Obligations.SequencerSuccessors : Prop :=
  ∀ (s t : State) (f : Fp), exec f.instr s = .next t → f.successor t.fp = true ∧
    (f = .readPayload → t.fp = .readPayload → s.idx ≠ s.len ∧ t.idx ≠ t.len)

/-! ### POLL -/

/-- R175, R265, R278: whatever bytes arrive or fail to and whatever the transport takes, a poll past its entry test
ends in `Idle` with `BUSY` released, leaves a final part of the receive queue (R180), takes nothing back from the
wire, and counts no SIF; and under a legal configuration it completes or faults because an application Chunked handler
broke its bound (R225), and completes when there is no such handler. Not the spec's words but the model's: that a poll
is one step (entry 10, DESIGN CHOICE); application handlers as functions that return (entry 21, DESIGN CHOICE). -/
def Obligations.PollAlwaysReturnsToIdle : Prop :=
  ∀ s : State, s.pollable = true →
    (∀ t, exec .opPoll s = .next t →
      t.fp = .idle ∧ t.busy = false ∧ t.entered = false ∧ t.rx <:+ s.rx ∧ s.tx <+: t.tx ∧ t.sifseq = s.sifseq ∧ t.sif = s.sif ∧
      t.link = s.link ∧ t.inputs = s.inputs) ∧
    (s.cfg.legal = true → (∃ t, exec .opPoll s = .next t) ∨ exec .opPoll s = .fault .chunkTooLong) ∧
    (s.cfg.legal = true → builtinsOnly s.cfg = true → ∃ t, exec .opPoll s = .next t)

/-- R95, R160, R174, R206: a request with a right checksum to an `ECHO` entry is answered with its sequence number,
`RET_OK` and its payload under a checksum of the reply's own; every raw byte of the request is consumed and none after
it. Not the spec's words but the model's: that a request row stands at the head of the receive queue and is polled
(entry 13, DESIGN CHOICE); the result port (entry 9, DESIGN CHOICE); that the answers of `T.tx` on a link that is up
are listed, then success (entry 29, DESIGN CHOICE). -/
def Obligations.EchoExchange : Prop :=
  ∀ (s : State) (seq cmd : Byte) (payload : List Byte), s.cfg.legal = true → payload.length ≤ 255 →
    s.cfg.jt[cmd.toNat]? = some .echo → s.link = true → s.busy = false →
    ∃ t raw, exec (.frameReq seq cmd payload (frameChecksum s.cfg seq cmd payload)) s = .next t ∧
      raw = rawFrame s.cfg .sof seq Config.retOk payload ∧
      FrameSent { s with
          fp := .idle, entered := false, seq := seq, seqv := true, cmd := cmd, len := BitVec.ofNat 8 payload.length
          ret := 0, tcnt := 0, buf := s.buf.writeAll 0 payload } t raw
        (.poll (if takesAll s raw then .replied else .replyCutShort))

/-- R155, R171, R276: a request in range with a wrong checksum is answered with the checksum exit; no handler runs and
`BUF` keeps the received payload. Not the spec's words but the model's: that a request row stands at the head of the
receive queue and is polled (entry 13, DESIGN CHOICE); the result port (entry 9, DESIGN CHOICE); that the answers of
`T.tx` on a link that is up are listed, then success (entry 29, DESIGN CHOICE). -/
def Obligations.WrongChecksumExchange : Prop :=
  ∀ (s : State) (seq cmd csum : Byte) (payload : List Byte), s.cfg.legal = true → payload.length ≤ 255 →
    cmd.toNat < s.cfg.jt.length → s.link = true → s.busy = false → csum ≠ frameChecksum s.cfg seq cmd payload →
    ∃ t, exec (.frameReq seq cmd payload csum) s = .next t ∧
      ErrorExit { s with
          seq := seq, seqv := true, cmd := cmd, len := BitVec.ofNat 8 payload.length, tcnt := 0
          buf := s.buf.writeAll 0 payload } t .checksum s.cfg.lineCsumBad

/-- R166, R180: a request whose offset is outside the table is answered with the out-of-range exit at once; its
length, payload and checksum stay in the receive queue, unread and unverified. Not the spec's words but the model's:
that a request row stands at the head of the receive queue and is polled (entry 13, DESIGN CHOICE); the result port
(entry 9, DESIGN CHOICE); that the answers of `T.tx` on a link that is up are listed, then success (entry 29, DESIGN
CHOICE). -/
def Obligations.OutOfRangeExchange : Prop :=
  ∀ (s : State) (seq cmd csum : Byte) (payload : List Byte), s.cfg.legal = true → payload.length ≤ 255 →
    s.cfg.jt.length ≤ cmd.toNat → s.link = true → s.busy = false →
    ∃ t, exec (.frameReq seq cmd payload csum) s = .next t ∧
      ErrorExit { s with
          seq := seq, seqv := true, cmd := cmd, tcnt := 0
          rx := (escapeBody s.cfg (BitVec.ofNat 8 payload.length :: (payload ++ [csum]))).map .byte ++ s.rx } t
        .oob s.cfg.lineOob

/-! ### Sending -/

/-- R176 to R178, R96, R153: `SENDFRAME`, and a reply frame as its product, send the frame with its own checksum up to
the transport's first failure, flush when and only when all of it was taken, and answer which; `CSUM` and `IDX` end as
the frame's checksum and length. Not the spec's words but the model's: that a device-frame row is its product and its
checksum operand is ignored (entry 14, DESIGN CHOICE); that the caller need not hold `BUSY` (entry 19, DESIGN CHOICE);
the result port (entry 9, DESIGN CHOICE); that the answers of `T.tx` on a link that is up are listed, then success
(entry 29, DESIGN CHOICE). -/
def Obligations.FramesAreSentWhole : Prop :=
  ∀ (s : State) (i : Instr) (m : Marker) (seq x csum : Byte) (data : List Byte), data.length ≤ 255 →
    i = .opSendframe m seq x data ∨ (m = .sof ∧ i = .frameReply seq x data csum) →
    ∃ t, exec i s = .next t ∧
      FrameSent s t (rawFrame s.cfg m seq x data)
        (.send (if takesAll s (rawFrame s.cfg m seq x data) then .sent else .cutShort)) ∧
      (takesAll s (rawFrame s.cfg m seq x data) = true →
        t.csum = frameChecksum s.cfg seq x data ∧ t.idx = BitVec.ofNat 8 data.length)

/-- R255 to R257, R97: `ERRFRAME`, and the three ErrorFrames as its products, load `LINE` and `RET` and send the frame
`SOF`, sequence number, code, 2, line high, line low and their checksum, without `BUF`; the two line bytes are the
high and the low byte of the line by masking (R159: the high byte of 0xFF06 is 0xFF, not its residue modulo 255). Not
the spec's words but the model's: that a device-frame row is its product and its checksum operand is ignored (entry
14, DESIGN CHOICE); that the caller need not hold `BUSY` (entry 19, DESIGN CHOICE); the result port (entry 9, DESIGN
CHOICE); that the answers of `T.tx` on a link that is up are listed, then success (entry 29, DESIGN CHOICE). -/
def Obligations.ErrorFramesAreSent : Prop :=
  ∀ (s : State) (i : Instr) (code : ErrCode) (seq csum : Byte) (line : Half) (raw : List Byte),
    i = .opErrframe code seq line ∨ (code = .oob ∧ i = .frameErrOob seq line csum) ∨
      (code = .timeout ∧ i = .frameErrTimeout seq line csum) ∨
      (code = .checksum ∧ i = .frameErrChecksum seq line csum) →
    raw = rawFrame s.cfg .sof seq (errByte s.cfg code)
      [BitVec.ofNat 8 (line.toNat / 256), BitVec.ofNat 8 line.toNat] →
    (∃ t, exec i s = .next t ∧
      FrameSent { s with line := line, ret := errByte s.cfg code } t raw
        (.send (if takesAll s raw then .sent else .cutShort))) ∧
    rawError s.cfg code seq line = raw ∧ lineBytes 0xFF06 = [0xFF, 0x06]

/-- R258, R266 to R270, R274, R277: the seven error-exit sites, each with its code and its own line. Not the spec's
words but the model's: that a site row takes its exit in any state (entry 19, DESIGN CHOICE); the result port (entry
9, DESIGN CHOICE); that the answers of `T.tx` on a link that is up are listed, then success (entry 29, DESIGN CHOICE).
-/
def Obligations.SitesTakeTheirExit : Prop :=
  ∀ s : State,
    (∃ t, exec .siteLineCmd s = .next t ∧ ErrorExit s t .timeout s.cfg.lineCmd) ∧
    (∃ t, exec .siteLineOob s = .next t ∧ ErrorExit s t .oob s.cfg.lineOob) ∧
    (∃ t, exec .siteLineLen s = .next t ∧ ErrorExit s t .timeout s.cfg.lineLen) ∧
    (∃ t, exec .siteLinePayload s = .next t ∧ ErrorExit s t .timeout s.cfg.linePayload) ∧
    (∃ t, exec .siteLineCsumRd s = .next t ∧ ErrorExit s t .timeout s.cfg.lineCsumRd) ∧
    (∃ t, exec .siteLineCsumBad s = .next t ∧ ErrorExit s t .checksum s.cfg.lineCsumBad) ∧
    (∃ t, exec .siteLineManyOob s = .next t ∧ ErrorExit s t .oob s.cfg.lineManyOob)

/-! ### Handlers and dispatch -/

/-- R104, R172 to R174, R205: a return code goes to `RET`; where the handler's return is awaited the poll goes on to
the reply with it, reserved codes included, but for `RET_OOB` from the many entry, which is the out-of-range exit. Not
the spec's words but the model's: what a return-code row does (entry 18, DESIGN CHOICE); the result port (entry 9,
DESIGN CHOICE); that the answers of `T.tx` on a link that is up are listed, then success (entry 29, DESIGN CHOICE). -/
def Obligations.ReturnCodesGoToTheReply : Prop :=
  ∀ s : State,
    (s.fp ≠ .dispatch → exec .retOk s = .next { s with ret := 0 } ∧
      exec .retFail s = .next { s with ret := s.cfg.retFail } ∧
      exec .retOob s = .next { s with ret := s.cfg.retOob } ∧
      exec .retTimeout s = .next { s with ret := s.cfg.retTimeout } ∧
      exec .retChecksum s = .next { s with ret := s.cfg.retChecksum }) ∧
    (s.fp = .dispatch → s.cfg.legal = true → exec .retOk s = .next { s with ret := 0, fp := .sendReply } ∧
      exec .retFail s = .next { s with ret := s.cfg.retFail, fp := .sendReply } ∧
      exec .retTimeout s = .next { s with ret := s.cfg.retTimeout, fp := .sendReply } ∧
      exec .retChecksum s = .next { s with ret := s.cfg.retChecksum, fp := .sendReply } ∧
      (s.cfg.hasMany = false ∨ s.cmd ≠ s.cfg.manyOffset →
        exec .retOob s = .next { s with ret := s.cfg.retOob, fp := .sendReply }) ∧
      (s.cfg.hasMany = true → s.cmd = s.cfg.manyOffset →
        ∃ t, exec .retOob s = .next t ∧ ErrorExit s t .oob s.cfg.lineManyOob))

/-- R206, R203: `ECHO` answers `RET_OK` with length and payload unchanged; a Bounded call of a built-in handler is
that handler, and a call of an application handler completes and changes only what a Bounded handler may. The return
code is the call's answer and `RET` is unchanged (R43). Not the spec's words but the model's: application handlers as
functions that return (entry 21, DESIGN CHOICE); that a return code is on the result port and `RET` is left to the
poll (entry 33, DEDUCED); the result port (entry 9, DESIGN CHOICE). -/
def Obligations.BoundedCallsRunTheHandler : Prop :=
  ∀ s : State,
    exec .opEcho s = .next { s with result := .handler 0 s.len } ∧
    exec (.opHcallB .echo) s = .next { s with result := .handler 0 s.len } ∧
    exec (.opHcallB .getmap) s = exec .opGetmap s ∧ exec (.opHcallB .many) s = exec .opMany s ∧
    ∀ id, ∃ t, exec (.opHcallB (.app id)) s = .next t ∧ HandlerFrame s t ∧ t.store = s.store ∧ t.midx = s.midx ∧
      t.mflags = s.mflags ∧ t.moff = s.moff ∧ t.mclen = s.mclen

/-- R207, R208: `GETMAP` writes the names in table order, each with its NUL, with `RET_OK` and their total length when
they fit in 255 bytes; else the names that fit whole, with `RET_FAIL` and their length; without a name table there is
no `GETMAP`, and it is refused. Not the spec's words but the model's: the refusal (entry 27, DEDUCED); that a return
code is on the result port and `RET` is left to the poll (entry 33, DEDUCED); the result port (entry 9, DESIGN
CHOICE). -/
def Obligations.GetmapListsWholeNames : Prop :=
  ∀ s : State,
    (s.cfg.hasNames = false → exec .opGetmap s = .refused .featureAbsent) ∧
    ∀ k : Nat, s.cfg.hasNames = true → k ≤ s.cfg.names.length → (namesImage s.cfg k).length ≤ 255 →
      (k = s.cfg.names.length → exec .opGetmap s = .next { s with
        buf := s.buf.writeAll 0 (namesImage s.cfg k), len := BitVec.ofNat 8 (namesImage s.cfg k).length
        result := .handler 0 (BitVec.ofNat 8 (namesImage s.cfg k).length) }) ∧
      (255 < (namesImage s.cfg (k + 1)).length → exec .opGetmap s = .next { s with
        buf := s.buf.writeAll 0 (namesImage s.cfg k), len := BitVec.ofNat 8 (namesImage s.cfg k).length
        result := .handler s.cfg.retFail (BitVec.ofNat 8 (namesImage s.cfg k).length) })

/-- R201, R202, R103: `DISPATCH` of an offset in the table is the call of that entry, and of one outside it the
out-of-range exit with no handler; each command row is the dispatch of its offset, held in `CMD`; under a legal
configuration each completes or faults because an application Chunked handler broke its bound (R225), and completes
when there is no such handler. Not the spec's words but the model's: the command rows and an offset outside the table
(entry 17, DESIGN CHOICE); application handlers as functions that return (entry 21, DESIGN CHOICE); the result port
(entry 9, DESIGN CHOICE); that the answers of `T.tx` on a link that is up are listed, then success (entry 29, DESIGN
CHOICE). -/
def Obligations.CommandsDispatchTheirEntry : Prop :=
  ∀ (s : State) (x : Byte),
    (∀ h, s.cfg.jt[x.toNat]? = some h → exec (.opDispatch x) s = exec (.opHcallB h) s) ∧
    (s.cfg.jt[x.toNat]? = none → ∃ t, exec (.opDispatch x) s = .next t ∧ ErrorExit s t .oob s.cfg.lineOob) ∧
    (s.cfg.legal = true → ∀ i, i = .opDispatch x ∨ i = .cmdGetmap0 ∨ i = .cmdMany1 ∨ i = .cmdEcho2 ∨ i = .cmdEcho3 ∨
      i = .cmdEcho4 ∨ i = .cmdOob x → (∃ t, exec i s = .next t) ∨ exec i s = .fault .chunkTooLong) ∧
    (s.cfg.legal = true → builtinsOnly s.cfg = true →
      (∃ t, exec (.opDispatch x) s = .next t) ∧
      (∃ t, exec .cmdGetmap0 s = .next t ∧ exec (.opDispatch 0) { s with cmd := 0 } = .next t) ∧
      (∃ t, exec .cmdMany1 s = .next t ∧ exec (.opDispatch 1) { s with cmd := 1 } = .next t) ∧
      (∃ t, exec .cmdEcho2 s = .next t ∧ exec (.opDispatch 2) { s with cmd := 2 } = .next t) ∧
      (∃ t, exec .cmdEcho3 s = .next t ∧ exec (.opDispatch 3) { s with cmd := 3 } = .next t) ∧
      (∃ t, exec .cmdEcho4 s = .next t ∧ exec (.opDispatch 4) { s with cmd := 4 } = .next t) ∧
      ∃ t, exec (.cmdOob x) s = .next t ∧ exec (.opDispatch x) { s with cmd := x } = .next t)

/-- The command rows under CFG_REF's table (R12, R166, R206, R207, R227): offset 0 answers the 26 bytes of names,
offset 1 with a payload shorter than a header the failure code, offsets 2 to 4 echo, offsets from 5 on are the
out-of-range exit. Not the spec's words but the model's: the command rows (entry 17, DESIGN CHOICE); that a return
code is on the result port and `RET` is left to the poll (entry 33, DEDUCED); the result port (entry 9, DESIGN
CHOICE); that the answers of `T.tx` on a link that is up are listed, then success (entry 29, DESIGN CHOICE). -/
def Obligations.ReferenceCommandsComplete : Prop :=
  ∀ s : State, s.cfg = Config.ref →
    exec .cmdGetmap0 s = .next { s with
      cmd := 0, len := 26, result := .handler 0 26
      buf := s.buf.writeAll 0 [0x6D, 0x61, 0x70, 0x00, 0x6D, 0x61, 0x6E, 0x79, 0x00, 0x65, 0x63, 0x68, 0x6F, 0x00,
        0x65, 0x63, 0x68, 0x6F, 0x32, 0x00, 0x65, 0x63, 0x68, 0x6F, 0x33, 0x00] } ∧
    (s.len.toNat < 6 → exec .cmdMany1 s = .next { s with cmd := 1, len := 0, result := .handler 1 0 }) ∧
    exec .cmdEcho2 s = .next { s with cmd := 2, result := .handler 0 s.len } ∧
    exec .cmdEcho3 s = .next { s with cmd := 3, result := .handler 0 s.len } ∧
    exec .cmdEcho4 s = .next { s with cmd := 4, result := .handler 0 s.len } ∧
    (∀ x : Byte, 5 ≤ x.toNat → ∃ t, exec (.cmdOob x) s = .next t ∧ ErrorExit { s with cmd := x } t .oob 0x0106)

/-! ### Many -/

/-- R222, R227: `MANY` with fewer than six bytes answers `RET_FAIL` and length 0; with an index at or above `M`,
`RET_OOB` and length 0, the index in `MIDX`; in both cases `BUF` is unchanged and no handler runs. Not the spec's
words but the model's: that a return code is on the result port and `RET` is left to the poll (entry 33, DEDUCED); the
result port (entry 9, DESIGN CHOICE). -/
def Obligations.ManyRejects : Prop :=
  ∀ s : State, s.cfg.hasMany = true →
    (s.len.toNat < 6 → exec .opMany s = .next { s with
      len := 0, result := .handler s.cfg.retFail 0 }) ∧
    (6 ≤ s.len.toNat → s.cfg.ct.length ≤ (s.bufRead 0).toNat → exec .opMany s = .next { s with
      midx := s.bufRead 0, len := 0, result := .handler s.cfg.retOob 0 })

/-- R221, R223, R226: `MANY` calls `CT[MIDX]` with the flags, the offset and the chunk length of the header, and
writes back the handler's return value in byte 0, the flags with the isLast bit alone replaced in byte 1, the offset
in bytes 2 to 5, nothing beyond byte 5, with `LEN` the chunk length plus 6; it returns `RET_OK`, and `RET` is
unchanged (R43). Not the spec's words but the model's: that the working registers keep what was loaded (entry 24,
DESIGN CHOICE); that a return code is on the result port and `RET` is left to the poll (entry 33, DEDUCED); the result
port (entry 9, DESIGN CHOICE). -/
def Obligations.ManyForwardsAndWritesBack : Prop :=
  ∀ (s u : State) (h : ChunkedHandler) (a : ChunkAnswer) (off : Offset), s.cfg.hasMany = true → 6 ≤ s.len.toNat →
    s.cfg.ct[(s.bufRead 0).toNat]? = some h →
    off = joinOffset s.cfg.nativeEndian (s.bufRead 2) (s.bufRead 3) (s.bufRead 4) (s.bufRead 5) →
    hcallC h ((s.bufRead 1).getLsbD s.cfg.isLastBit) ((s.bufRead 1).getLsbD s.cfg.isWriteBit) off (s.len - 6)
      { s with midx := s.bufRead 0, mflags := s.bufRead 1, moff := off, mclen := s.len - 6 } = .next (a, u) →
    ∃ t, exec .opMany s = .next t ∧
      t = { s with
        midx := s.bufRead 0, mflags := s.bufRead 1, moff := off, mclen := s.len - 6
        buf := t.buf, store := u.store, appState := u.appState
        len := a.clen + 6, result := .handler 0 (a.clen + 6) } ∧
      t.bufRead 0 = a.ret ∧
      (∀ k : Fin 8, (t.bufRead 1).getLsbD k = if k = s.cfg.isLastBit then a.isLast else (s.bufRead 1).getLsbD k) ∧
      joinOffset s.cfg.nativeEndian (t.bufRead 2) (t.bufRead 3) (t.bufRead 4) (t.bufRead 5) = a.off ∧
      ∀ k, 6 ≤ k → t.bufRead k = u.bufRead k

/-- A header in place, a flags byte in byte 1 and an index in byte 0 are taken by `MANY` as it stands (R99, R103,
R223), whatever the table holds. Under a legal configuration `MANY` and its header rows complete or fault because an
application Chunked handler broke its bound (R225), and complete when there is no such handler. `MANY` changes only
what a Bounded handler may, and leaves `RET` alone (R43). Not the spec's words but the model's: that a return code is
on the result port and `RET` is left to the poll (entry 33, DEDUCED); the header rows (entry 16, DESIGN CHOICE);
application handlers as functions that return (entry 21, DESIGN CHOICE); the result port (entry 9, DESIGN CHOICE). -/
def Obligations.ManyRowsComplete : Prop :=
  ∀ s : State,
    (∀ idx flags off chunk, chunk.length ≤ 249 → exec (.manyhdrReq idx flags off chunk) s = exec .opMany { s with
      buf := s.buf.writeAll 0 ([idx, flags] ++ splitOffset s.cfg.nativeEndian off ++ chunk)
      len := BitVec.ofNat 8 (chunk.length + 6) }) ∧
    (∀ flags, exec (.manyflagIslast flags) s = exec .opMany { s with buf := s.buf.writeAll 1 [flags] } ∧
      exec (.manyflagIswrite flags) s = exec .opMany { s with buf := s.buf.writeAll 1 [flags] }) ∧
    exec .manyidxProps0 s = exec .opMany { s with buf := s.buf.writeAll 0 [0] } ∧
    exec .manyidxBlob1 s = exec .opMany { s with buf := s.buf.writeAll 0 [1] } ∧
    (∀ idx, exec (.manyidxOob idx) s = exec .opMany { s with buf := s.buf.writeAll 0 [idx] }) ∧
    (s.cfg.legal = true → s.cfg.hasMany = true →
      ((∃ t, exec .opMany s = .next t ∧ HandlerFrame s t) ∨ exec .opMany s = .fault .chunkTooLong) ∧
      ∀ i, i = .opMany ∨ (∃ idx flags off chunk, chunk.length ≤ 249 ∧ i = .manyhdrReq idx flags off chunk) ∨
        (∃ flags, i = .manyflagIslast flags) ∨ (∃ flags, i = .manyflagIswrite flags) ∨ i = .manyidxProps0 ∨
        i = .manyidxBlob1 ∨ (∃ idx, i = .manyidxOob idx) →
        ((∃ t, exec i s = .next t) ∨ exec i s = .fault .chunkTooLong) ∧
        (builtinsOnly s.cfg = true → ∃ t, exec i s = .next t))

/-- R100, R226: the reply header and chunk as the write-back leaves them, with `LEN` their length and `RET_OK`. Not
the spec's words but the model's: the header rows (entry 16, DESIGN CHOICE); that a return code is on the result port
and `RET` is left to the poll (entry 33, DEDUCED); the result port (entry 9, DESIGN CHOICE). -/
def Obligations.ManyReplyIsWrittenBack : Prop :=
  ∀ (s : State) (r flags : Byte) (off : Offset) (chunk : List Byte), s.cfg.hasMany = true → chunk.length ≤ 249 →
    ∃ t, exec (.manyhdrReply r flags off chunk) s = .next t ∧
      t = { s with
        buf := t.buf, len := BitVec.ofNat 8 (chunk.length + 6)
        result := .handler 0 (BitVec.ofNat 8 (chunk.length + 6)) } ∧
      t.buf.range 0 (chunk.length + 6) = [r, flags] ++ splitOffset s.cfg.nativeEndian off ++ chunk ∧
      ∀ a, chunk.length + 6 ≤ a → t.bufRead a = s.bufRead a

/-- R230, write side: the chunk `BUF[6..6+clen)` is stored at the offset, when the handler is writable and its end,
computed without wrap, is within the store; else the failure answer with nothing stored; `BUF` unchanged. Not the
spec's words but the model's: the one store behind every blob (entry 23, DESIGN CHOICE); the result port (entry 9,
DESIGN CHOICE). -/
def Obligations.BlobWriteStoresTheChunk : Prop :=
  ∀ (s : State) (base size : BitVec 40) (writable isLast : Bool) (off : Offset) (clen : Byte),
    s.cfg.hasMany = true → clen.toNat ≤ 249 →
    (writable = true → off.toNat + clen.toNat ≤ size.toNat →
      ∃ t, exec (.opChBlob base size writable isLast true off clen) s = .next t ∧
        t = { s with store := t.store, result := .chunked 0 isLast off 0 } ∧
        (∀ k, k < clen.toNat → storeRead t.store (base.toNat + off.toNat + k) = s.bufRead (6 + k)) ∧
        ∀ a, a < base.toNat + off.toNat ∨ base.toNat + off.toNat + clen.toNat ≤ a →
          storeRead t.store a = storeRead s.store a) ∧
    (writable = false ∨ size.toNat < off.toNat + clen.toNat →
      exec (.opChBlob base size writable isLast true off clen) s =
        .next { s with result := .chunked s.cfg.retFail isLast off 0 })

/-- R230, read side: at most 249 bytes from the offset on are delivered to the chunk and nowhere else in `BUF`, with
isLast set when the end is reached; an offset past the end is the failure answer with isLast set. Not the spec's words
but the model's: the one store behind every blob (entry 23, DESIGN CHOICE); the result port (entry 9, DESIGN CHOICE).
-/
def Obligations.BlobReadDeliversTheChunk : Prop :=
  ∀ (s : State) (base size : BitVec 40) (writable isLast : Bool) (off : Offset) (clen : Byte) (n : Nat),
    s.cfg.hasMany = true → clen.toNat ≤ 249 → n = min 249 (size.toNat - off.toNat) →
    (off.toNat ≤ size.toNat →
      ∃ t, exec (.opChBlob base size writable isLast false off clen) s = .next t ∧
        t = { s with buf := t.buf
                     result := .chunked 0 (decide (size.toNat ≤ off.toNat + n)) off (BitVec.ofNat 8 n) } ∧
        (∀ k, k < n → t.bufRead (6 + k) = storeRead s.store (base.toNat + off.toNat + k)) ∧
        ∀ a, a < 6 ∨ 6 + n ≤ a → t.bufRead a = s.bufRead a) ∧
    (size.toNat < off.toNat → exec (.opChBlob base size writable isLast false off clen) s =
      .next { s with result := .chunked s.cfg.retFail true off 0 })

/-- R231: what a writable blob stored is delivered again by a read at the same offset, byte for byte, from every state
with that store and configuration, whatever its `BUF` and its other fields hold. Not the spec's words but the model's:
the one store behind every blob (entry 23, DESIGN CHOICE). -/
def Obligations.BlobReadsBackWhatWasWritten : Prop :=
  ∀ (s : State) (base size : BitVec 40) (isLast isLast' : Bool) (off : Offset) (clen clen' : Byte),
    s.cfg.hasMany = true → clen.toNat ≤ 249 → clen'.toNat ≤ 249 → off.toNat + clen.toNat ≤ size.toNat →
    ∃ t, exec (.opChBlob base size true isLast true off clen) s = .next t ∧
      ∀ s' : State, s'.store = t.store → s'.cfg = t.cfg →
        ∃ u, exec (.opChBlob base size true isLast' false off clen') s' = .next u ∧
          ∀ k, k < clen.toNat → u.bufRead (6 + k) = s.bufRead (6 + k)

/-- R229: `PROPS` delivers the object `key 00 value 00 ...` in table order from the offset on, as the read side of
R230, and answers a write with the failure code and nothing changed. Not the spec's words but the model's: the result
port (entry 9, DESIGN CHOICE). -/
def Obligations.PropsServesItsObject : Prop :=
  ∀ (s : State) (isLast : Bool) (off : Offset) (clen : Byte) (obj : List Byte) (n : Nat),
    s.cfg.hasMany = true → s.cfg.hasProps = true → clen.toNat ≤ 249 →
    obj = s.cfg.props.flatMap (fun p => p.1 ++ [0] ++ p.2 ++ [0]) → n = min 249 (obj.length - off.toNat) →
    (off.toNat ≤ obj.length → ∃ t, exec (.opProps isLast false off clen) s = .next t ∧
      t = { s with buf := t.buf
                   result := .chunked 0 (decide (obj.length ≤ off.toNat + n)) off (BitVec.ofNat 8 n) } ∧
      (∀ k, k < n → some (t.bufRead (6 + k)) = obj[off.toNat + k]?) ∧
      ∀ a, a < 6 ∨ 6 + n ≤ a → t.bufRead a = s.bufRead a) ∧
    (obj.length < off.toNat → exec (.opProps isLast false off clen) s =
      .next { s with result := .chunked s.cfg.retFail true off 0 }) ∧
    exec (.opProps isLast true off clen) s = .next { s with result := .chunked s.cfg.retFail isLast off 0 }

/-- R224, R225, R44: a Chunked call of a built-in handler is that handler's operation and completes, `PROPS` where its
feature is there and refused where it is not; one of an application handler completes within its bound of 249 bytes or
faults (U4); and no Chunked call changes the header bytes `BUF[0..6)` or anything but the chunk and the handlers' own
state. Not the spec's words but the model's: application handlers as functions that return (entry 21, DESIGN CHOICE);
how far they may write (entry 22, DESIGN CHOICE); the refusal (entry 27, DEDUCED); the result port (entry 9, DESIGN
CHOICE). -/
def Obligations.ChunkedCallsKeepTheirWindow : Prop :=
  ∀ (s : State) (h : ChunkedHandler) (isLast isWrite : Bool) (off : Offset) (clen : Byte),
    s.cfg.hasMany = true → clen.toNat ≤ 249 →
    (∀ base size w, h = .blob base size w → exec (.opHcallC h isLast isWrite off clen) s =
      exec (.opChBlob base size w isLast isWrite off clen) s ∧
      ∃ t, exec (.opHcallC h isLast isWrite off clen) s = .next t) ∧
    (h = .props → exec (.opHcallC h isLast isWrite off clen) s = exec (.opProps isLast isWrite off clen) s) ∧
    (h = .props → s.cfg.hasProps = true → ∃ t, exec (.opHcallC h isLast isWrite off clen) s = .next t) ∧
    (h = .props → s.cfg.hasProps = false → exec (.opHcallC h isLast isWrite off clen) s = .refused .featureAbsent) ∧
    (∀ id, h = .app id → (∃ t, exec (.opHcallC h isLast isWrite off clen) s = .next t) ∨
      exec (.opHcallC h isLast isWrite off clen) s = .fault .chunkTooLong) ∧
    (∀ t, exec (.opHcallC h isLast isWrite off clen) s = .next t →
      t = { s with buf := t.buf, store := t.store, appState := t.appState, result := t.result } ∧
      (∀ a, a < 6 → t.bufRead a = s.bufRead a) ∧
      ∃ r l o n, t.result = .chunked r l o n ∧ n.toNat ≤ 249)

/-! ### Busy flag and SIF -/

/-- R241, R242: `TAS` takes a free flag and answers true, leaves a held one and answers false; `REL` clears it. Not
the spec's words but the model's: that the operations check no precondition (entry 19, DESIGN CHOICE); the result port
(entry 9, DESIGN CHOICE). -/
def Obligations.TestAndSetAndRelease : Prop :=
  ∀ s : State,
    (s.busy = false → exec .opTas s = .next { s with busy := true, result := .flag true }) ∧
    (s.busy = true → exec .opTas s = .next { s with result := .flag false }) ∧
    exec .opRel s = .next { s with busy := false }

/-- R243 to R245, R272: `SIFSEND`, and a SIF frame as its product: with the flag held it answers `Busy` and changes
nothing else; with it free it sends `SOS`, the counter's value, the caller's command byte and data with their
checksum, counts up modulo 256 even when cut short, and releases the flag; `BUF` plays no part and `T.ready` is not
asked: on a link that is down the send is `CutShort`, with nothing enqueued. More than 255 data bytes are refused
(U18), and so is every send without `HAS_SIF`. Not the spec's words but the model's: that a SIF-frame row is the
product of `SIFSEND` and its sequence and checksum operands are ignored (entry 14, DESIGN CHOICE); the refusal without
`HAS_SIF` (entry 27, DEDUCED); the result port (entry 9, DESIGN CHOICE); that the answers of `T.tx` on a link that is
up are listed, then success (entry 29, DESIGN CHOICE). -/
def Obligations.SifsendSendsOrIsBusy : Prop :=
  ∀ (s : State) (i : Instr) (x seq csum : Byte) (data : List Byte),
    i = .opSifsend x data ∨ i = .frameSif seq x data csum →
    (s.cfg.hasSif = true → data.length ≤ 255 → s.busy = true →
      exec i s = .next { s with result := .send .busy }) ∧
    (s.cfg.hasSif = true → data.length ≤ 255 → s.busy = false → ∃ t raw, exec i s = .next t ∧
      raw = rawFrame s.cfg .sos s.sifseq x data ∧
      FrameSent { s with sifseq := s.sifseq + 1, sif := none } t raw
        (.send (if takesAll s raw then .sent else .cutShort))) ∧
    (s.cfg.hasSif = true → data.length ≤ 255 → s.busy = false → s.link = false →
      exec i s = .next { s with sifseq := s.sifseq + 1, sif := none, result := .send .cutShort }) ∧
    (s.cfg.hasSif = true → 255 < data.length → exec i s = .refused .operandTooLong) ∧
    (s.cfg.hasSif = false → exec i s = .refused .featureAbsent)

/-- R246, R247: between a SIF trigger's `TAS` and its `REL` a poll is a no-op that consumes nothing, and while a poll
is past its `TAS` a SIF trigger answers `Busy`, also between the `TAS` and the read of a first byte that will be
discarded; a SIF send taken in two micro-steps ends as the whole operation does. Not the spec's words but the model's:
that a poll past its `TAS` has a micro-step of its own for its start marker (entry 10, DESIGN CHOICE); the list of
what the outside does (entry 6, DESIGN CHOICE); the two micro-steps of a SIF send (entry 20, DESIGN CHOICE); the
result port (entry 9, DESIGN CHOICE). -/
def Obligations.PollAndSifExclude : Prop :=
  ∀ (s t : State) (x : Byte) (data : List Byte) (rest : List Input), s.cfg.legal = true → s.cfg.hasSif = true →
    data.length ≤ 255 →
    (s.inputs = .sif x data :: rest → step s = .next t →
      (s.busy = false → t.link = true → transportAvailable t = true →
        exec .opPoll t = .next { t with result := .poll (.noOp .busy) }) ∧
      (s.busy = false → rest = [] → ∃ u, step t = .next u ∧ exec (.opSifsend x data) { s with inputs := [] } = .next u) ∧
      (s.busy = true → t = { s with inputs := rest, result := .send .busy })) ∧
    (s.inputs = .run :: .sif x data :: rest → s.sif = none → s.fp = .idle → s.entered = false → s.pollable = true →
      ∃ u, step s = .next u ∧ step u = .next { s with
        inputs := rest, busy := true, seqv := false, entered := true, result := .send .busy })

/-! ### Whole machine -/

/-- R36 to R40, R178, R244: no instruction changes the configuration and its tables, none takes back what has been
transmitted, and none but `SIFSEND`, a SIF frame and `RESET` changes `SIFSEQ`. -/
def Obligations.TablesConstantAndWireOnlyGrows : Prop :=
  ∀ (i : Instr) (s t : State), exec i s = .next t →
    t.cfg = s.cfg ∧ s.tx <+: t.tx ∧
    ((∀ x d, i ≠ .opSifsend x d) → (∀ q x d k, i ≠ .frameSif q x d k) → i ≠ .opReset → t.sifseq = s.sifseq)

/-- Every byte of `BUF` and of the handlers' store reads as before after every instruction that stores nothing: the
reads, the senders, the error exits, the read results and raw bytes but in `ReadPayload`, the return codes, the flag,
the checksum, `ECHO`, and the micro-steps but `ReadPayload` and `Dispatch` (R43). -/
def Obligations.NonStoringInstructionsKeepMemory : Prop :=
  ∀ (i : Instr) (s t : State), exec i s = .next t →
    (i ∈ [.opRawrd, .opDec, .opTas, .opRel, .opEcho, .fpIdle, .fpReadSeq, .fpReadCmdOffset, .fpReadLength,
      .fpReadChecksum, .fpSendReply, .siteLineCmd, .siteLineOob, .siteLineLen, .siteLinePayload, .siteLineCsumRd,
      .siteLineCsumBad, .siteLineManyOob, .retOk, .retFail, .retOob, .retTimeout, .retChecksum] ∨
    (∃ b, i = .opEnc b) ∨ (∃ q x d, i = .opCsum q x d) ∨ (∃ m q x d, i = .opSendframe m q x d) ∨
    (∃ k q l, i = .opErrframe k q l) ∨ (∃ x d, i = .opSifsend x d) ∨ (∃ q x d k, i = .frameReply q x d k) ∨
    (∃ q x d k, i = .frameSif q x d k) ∨ (∃ q l k, i = .frameErrOob q l k) ∨ (∃ q l k, i = .frameErrTimeout q l k) ∨
    (∃ q l k, i = .frameErrChecksum q l k) ∨
    (s.fp ≠ .readPayload ∧ ((∃ v, i = .rdByte v) ∨ i = .rdTimeout ∨ i = .rdEscerr ∨ i = .rawSof ∨ i = .rawSos ∨
      (∃ x, i = .rawEscpair x) ∨ ∃ v, i = .rawPlain v))) →
    SameMemory s t

/-- Every step from a state with a legal configuration, canonical memories and `TCNT` within the window leads to such
a state (R31, R32, R40), whatever the outside does. Not the spec's words but the model's: the list of what the outside
does (entry 6, DESIGN CHOICE); the constraints on names, properties, features, `RET_OK` and the read sentinels in
`legal` (entry 25, DEDUCED). -/
def Obligations.StepKeepsDataInvariant : Prop :=
  ∀ s t : State, DataInv s → step s = .next t → DataInv t

/-- Under its own two agents the engine keeps its invariant at every step: `BUSY` is held exactly while a poll or a
SIF send is in progress and never by both (R33, R246), `SEQV` says whether a sequence number was captured (R25), `CMD`
is in range from the range check on (R166), `IDX` never passes `LEN` (R22), and `CSUM` is the checksum of the fields
received so far (R152, R170). Not the spec's words but the model's: the list of what the outside does (entry 6, DESIGN
CHOICE); the micro-steps (entry 10, DESIGN CHOICE); the two micro-steps of a SIF send (entry 20, DESIGN CHOICE). -/
def Obligations.StepKeepsEngineInvariant : Prop :=
  ∀ s t : State, EngineInv s → step s = .next t → EngineInv t

/-- Both invariants hold at reset. Not the spec's words but the model's: that the reset state holds CFG_REF (entry 2,
DESIGN CHOICE). -/
def Obligations.ResetMeetsInvariants : Prop := DataInv State.reset ∧ EngineInv State.reset

/-- Under the engine's invariant and with no SIF trigger waiting, every step completes, or faults because an
application Chunked handler broke its bound (R225); with no application handler in the Chunked table every step
completes (R265, R278). Not the spec's words but the model's: the list of what the outside does (entry 6, DESIGN
CHOICE); application handlers as functions that return (entry 21, DESIGN CHOICE). -/
def Obligations.EngineNeverStops : Prop :=
  ∀ s : State, EngineInv s → (∀ x d rest, s.inputs ≠ .sif x d :: rest) →
    ((∃ t, step s = .next t) ∨ step s = .fault .chunkTooLong) ∧
    (builtinsOnly s.cfg = true → ∃ t, step s = .next t)
end

