-- ==== Sys2Proof/Laws/State.lean ====
section
/-! SUPPORT. One lemma per field per named update of the state, true by unfolding: no later proof unfolds a record
update. -/

namespace Sys2Proof.Machine

/-! ### State.setFp -/

@[simp] theorem State.setFp_cfg (v : Fp) (s : State) : (s.setFp v).cfg = s.cfg := rfl
@[simp] theorem State.setFp_fp (v : Fp) (s : State) : (s.setFp v).fp = v := rfl
@[simp] theorem State.setFp_idx (v : Fp) (s : State) : (s.setFp v).idx = s.idx := rfl
@[simp] theorem State.setFp_seq (v : Fp) (s : State) : (s.setFp v).seq = s.seq := rfl
@[simp] theorem State.setFp_seqv (v : Fp) (s : State) : (s.setFp v).seqv = s.seqv := rfl
@[simp] theorem State.setFp_cmd (v : Fp) (s : State) : (s.setFp v).cmd = s.cmd := rfl
@[simp] theorem State.setFp_len (v : Fp) (s : State) : (s.setFp v).len = s.len := rfl
@[simp] theorem State.setFp_csum (v : Fp) (s : State) : (s.setFp v).csum = s.csum := rfl
@[simp] theorem State.setFp_ret (v : Fp) (s : State) : (s.setFp v).ret = s.ret := rfl
@[simp] theorem State.setFp_line (v : Fp) (s : State) : (s.setFp v).line = s.line := rfl
@[simp] theorem State.setFp_tcnt (v : Fp) (s : State) : (s.setFp v).tcnt = s.tcnt := rfl
@[simp] theorem State.setFp_buf (v : Fp) (s : State) : (s.setFp v).buf = s.buf := rfl
@[simp] theorem State.setFp_busy (v : Fp) (s : State) : (s.setFp v).busy = s.busy := rfl
@[simp] theorem State.setFp_sifseq (v : Fp) (s : State) : (s.setFp v).sifseq = s.sifseq := rfl
@[simp] theorem State.setFp_midx (v : Fp) (s : State) : (s.setFp v).midx = s.midx := rfl
@[simp] theorem State.setFp_mflags (v : Fp) (s : State) : (s.setFp v).mflags = s.mflags := rfl
@[simp] theorem State.setFp_moff (v : Fp) (s : State) : (s.setFp v).moff = s.moff := rfl
@[simp] theorem State.setFp_mclen (v : Fp) (s : State) : (s.setFp v).mclen = s.mclen := rfl
@[simp] theorem State.setFp_sif (v : Fp) (s : State) : (s.setFp v).sif = s.sif := rfl
@[simp] theorem State.setFp_entered (v : Fp) (s : State) : (s.setFp v).entered = s.entered := rfl
@[simp] theorem State.setFp_link (v : Fp) (s : State) : (s.setFp v).link = s.link := rfl
@[simp] theorem State.setFp_rx (v : Fp) (s : State) : (s.setFp v).rx = s.rx := rfl
@[simp] theorem State.setFp_txAnswers (v : Fp) (s : State) : (s.setFp v).txAnswers = s.txAnswers := rfl
@[simp] theorem State.setFp_tx (v : Fp) (s : State) : (s.setFp v).tx = s.tx := rfl
@[simp] theorem State.setFp_tasks (v : Fp) (s : State) : (s.setFp v).tasks = s.tasks := rfl
@[simp] theorem State.setFp_store (v : Fp) (s : State) : (s.setFp v).store = s.store := rfl
@[simp] theorem State.setFp_appState (v : Fp) (s : State) : (s.setFp v).appState = s.appState := rfl
@[simp] theorem State.setFp_result (v : Fp) (s : State) : (s.setFp v).result = s.result := rfl
@[simp] theorem State.setFp_inputs (v : Fp) (s : State) : (s.setFp v).inputs = s.inputs := rfl
@[simp] theorem State.setFp_draws (v : Fp) (s : State) : (s.setFp v).draws = s.draws := rfl

/-! ### State.setIdx -/

@[simp] theorem State.setIdx_cfg (v : Byte) (s : State) : (s.setIdx v).cfg = s.cfg := rfl
@[simp] theorem State.setIdx_fp (v : Byte) (s : State) : (s.setIdx v).fp = s.fp := rfl
@[simp] theorem State.setIdx_idx (v : Byte) (s : State) : (s.setIdx v).idx = v := rfl
@[simp] theorem State.setIdx_seq (v : Byte) (s : State) : (s.setIdx v).seq = s.seq := rfl
@[simp] theorem State.setIdx_seqv (v : Byte) (s : State) : (s.setIdx v).seqv = s.seqv := rfl
@[simp] theorem State.setIdx_cmd (v : Byte) (s : State) : (s.setIdx v).cmd = s.cmd := rfl
@[simp] theorem State.setIdx_len (v : Byte) (s : State) : (s.setIdx v).len = s.len := rfl
@[simp] theorem State.setIdx_csum (v : Byte) (s : State) : (s.setIdx v).csum = s.csum := rfl
@[simp] theorem State.setIdx_ret (v : Byte) (s : State) : (s.setIdx v).ret = s.ret := rfl
@[simp] theorem State.setIdx_line (v : Byte) (s : State) : (s.setIdx v).line = s.line := rfl
@[simp] theorem State.setIdx_tcnt (v : Byte) (s : State) : (s.setIdx v).tcnt = s.tcnt := rfl
@[simp] theorem State.setIdx_buf (v : Byte) (s : State) : (s.setIdx v).buf = s.buf := rfl
@[simp] theorem State.setIdx_busy (v : Byte) (s : State) : (s.setIdx v).busy = s.busy := rfl
@[simp] theorem State.setIdx_sifseq (v : Byte) (s : State) : (s.setIdx v).sifseq = s.sifseq := rfl
@[simp] theorem State.setIdx_midx (v : Byte) (s : State) : (s.setIdx v).midx = s.midx := rfl
@[simp] theorem State.setIdx_mflags (v : Byte) (s : State) : (s.setIdx v).mflags = s.mflags := rfl
@[simp] theorem State.setIdx_moff (v : Byte) (s : State) : (s.setIdx v).moff = s.moff := rfl
@[simp] theorem State.setIdx_mclen (v : Byte) (s : State) : (s.setIdx v).mclen = s.mclen := rfl
@[simp] theorem State.setIdx_sif (v : Byte) (s : State) : (s.setIdx v).sif = s.sif := rfl
@[simp] theorem State.setIdx_entered (v : Byte) (s : State) : (s.setIdx v).entered = s.entered := rfl
@[simp] theorem State.setIdx_link (v : Byte) (s : State) : (s.setIdx v).link = s.link := rfl
@[simp] theorem State.setIdx_rx (v : Byte) (s : State) : (s.setIdx v).rx = s.rx := rfl
@[simp] theorem State.setIdx_txAnswers (v : Byte) (s : State) : (s.setIdx v).txAnswers = s.txAnswers := rfl
@[simp] theorem State.setIdx_tx (v : Byte) (s : State) : (s.setIdx v).tx = s.tx := rfl
@[simp] theorem State.setIdx_tasks (v : Byte) (s : State) : (s.setIdx v).tasks = s.tasks := rfl
@[simp] theorem State.setIdx_store (v : Byte) (s : State) : (s.setIdx v).store = s.store := rfl
@[simp] theorem State.setIdx_appState (v : Byte) (s : State) : (s.setIdx v).appState = s.appState := rfl
@[simp] theorem State.setIdx_result (v : Byte) (s : State) : (s.setIdx v).result = s.result := rfl
@[simp] theorem State.setIdx_inputs (v : Byte) (s : State) : (s.setIdx v).inputs = s.inputs := rfl
@[simp] theorem State.setIdx_draws (v : Byte) (s : State) : (s.setIdx v).draws = s.draws := rfl

/-! ### State.setCmd -/

@[simp] theorem State.setCmd_cfg (v : Byte) (s : State) : (s.setCmd v).cfg = s.cfg := rfl
@[simp] theorem State.setCmd_fp (v : Byte) (s : State) : (s.setCmd v).fp = s.fp := rfl
@[simp] theorem State.setCmd_idx (v : Byte) (s : State) : (s.setCmd v).idx = s.idx := rfl
@[simp] theorem State.setCmd_seq (v : Byte) (s : State) : (s.setCmd v).seq = s.seq := rfl
@[simp] theorem State.setCmd_seqv (v : Byte) (s : State) : (s.setCmd v).seqv = s.seqv := rfl
@[simp] theorem State.setCmd_cmd (v : Byte) (s : State) : (s.setCmd v).cmd = v := rfl
@[simp] theorem State.setCmd_len (v : Byte) (s : State) : (s.setCmd v).len = s.len := rfl
@[simp] theorem State.setCmd_csum (v : Byte) (s : State) : (s.setCmd v).csum = s.csum := rfl
@[simp] theorem State.setCmd_ret (v : Byte) (s : State) : (s.setCmd v).ret = s.ret := rfl
@[simp] theorem State.setCmd_line (v : Byte) (s : State) : (s.setCmd v).line = s.line := rfl
@[simp] theorem State.setCmd_tcnt (v : Byte) (s : State) : (s.setCmd v).tcnt = s.tcnt := rfl
@[simp] theorem State.setCmd_buf (v : Byte) (s : State) : (s.setCmd v).buf = s.buf := rfl
@[simp] theorem State.setCmd_busy (v : Byte) (s : State) : (s.setCmd v).busy = s.busy := rfl
@[simp] theorem State.setCmd_sifseq (v : Byte) (s : State) : (s.setCmd v).sifseq = s.sifseq := rfl
@[simp] theorem State.setCmd_midx (v : Byte) (s : State) : (s.setCmd v).midx = s.midx := rfl
@[simp] theorem State.setCmd_mflags (v : Byte) (s : State) : (s.setCmd v).mflags = s.mflags := rfl
@[simp] theorem State.setCmd_moff (v : Byte) (s : State) : (s.setCmd v).moff = s.moff := rfl
@[simp] theorem State.setCmd_mclen (v : Byte) (s : State) : (s.setCmd v).mclen = s.mclen := rfl
@[simp] theorem State.setCmd_sif (v : Byte) (s : State) : (s.setCmd v).sif = s.sif := rfl
@[simp] theorem State.setCmd_entered (v : Byte) (s : State) : (s.setCmd v).entered = s.entered := rfl
@[simp] theorem State.setCmd_link (v : Byte) (s : State) : (s.setCmd v).link = s.link := rfl
@[simp] theorem State.setCmd_rx (v : Byte) (s : State) : (s.setCmd v).rx = s.rx := rfl
@[simp] theorem State.setCmd_txAnswers (v : Byte) (s : State) : (s.setCmd v).txAnswers = s.txAnswers := rfl
@[simp] theorem State.setCmd_tx (v : Byte) (s : State) : (s.setCmd v).tx = s.tx := rfl
@[simp] theorem State.setCmd_tasks (v : Byte) (s : State) : (s.setCmd v).tasks = s.tasks := rfl
@[simp] theorem State.setCmd_store (v : Byte) (s : State) : (s.setCmd v).store = s.store := rfl
@[simp] theorem State.setCmd_appState (v : Byte) (s : State) : (s.setCmd v).appState = s.appState := rfl
@[simp] theorem State.setCmd_result (v : Byte) (s : State) : (s.setCmd v).result = s.result := rfl
@[simp] theorem State.setCmd_inputs (v : Byte) (s : State) : (s.setCmd v).inputs = s.inputs := rfl
@[simp] theorem State.setCmd_draws (v : Byte) (s : State) : (s.setCmd v).draws = s.draws := rfl

/-! ### State.setLen -/

@[simp] theorem State.setLen_cfg (v : Byte) (s : State) : (s.setLen v).cfg = s.cfg := rfl
@[simp] theorem State.setLen_fp (v : Byte) (s : State) : (s.setLen v).fp = s.fp := rfl
@[simp] theorem State.setLen_idx (v : Byte) (s : State) : (s.setLen v).idx = s.idx := rfl
@[simp] theorem State.setLen_seq (v : Byte) (s : State) : (s.setLen v).seq = s.seq := rfl
@[simp] theorem State.setLen_seqv (v : Byte) (s : State) : (s.setLen v).seqv = s.seqv := rfl
@[simp] theorem State.setLen_cmd (v : Byte) (s : State) : (s.setLen v).cmd = s.cmd := rfl
@[simp] theorem State.setLen_len (v : Byte) (s : State) : (s.setLen v).len = v := rfl
@[simp] theorem State.setLen_csum (v : Byte) (s : State) : (s.setLen v).csum = s.csum := rfl
@[simp] theorem State.setLen_ret (v : Byte) (s : State) : (s.setLen v).ret = s.ret := rfl
@[simp] theorem State.setLen_line (v : Byte) (s : State) : (s.setLen v).line = s.line := rfl
@[simp] theorem State.setLen_tcnt (v : Byte) (s : State) : (s.setLen v).tcnt = s.tcnt := rfl
@[simp] theorem State.setLen_buf (v : Byte) (s : State) : (s.setLen v).buf = s.buf := rfl
@[simp] theorem State.setLen_busy (v : Byte) (s : State) : (s.setLen v).busy = s.busy := rfl
@[simp] theorem State.setLen_sifseq (v : Byte) (s : State) : (s.setLen v).sifseq = s.sifseq := rfl
@[simp] theorem State.setLen_midx (v : Byte) (s : State) : (s.setLen v).midx = s.midx := rfl
@[simp] theorem State.setLen_mflags (v : Byte) (s : State) : (s.setLen v).mflags = s.mflags := rfl
@[simp] theorem State.setLen_moff (v : Byte) (s : State) : (s.setLen v).moff = s.moff := rfl
@[simp] theorem State.setLen_mclen (v : Byte) (s : State) : (s.setLen v).mclen = s.mclen := rfl
@[simp] theorem State.setLen_sif (v : Byte) (s : State) : (s.setLen v).sif = s.sif := rfl
@[simp] theorem State.setLen_entered (v : Byte) (s : State) : (s.setLen v).entered = s.entered := rfl
@[simp] theorem State.setLen_link (v : Byte) (s : State) : (s.setLen v).link = s.link := rfl
@[simp] theorem State.setLen_rx (v : Byte) (s : State) : (s.setLen v).rx = s.rx := rfl
@[simp] theorem State.setLen_txAnswers (v : Byte) (s : State) : (s.setLen v).txAnswers = s.txAnswers := rfl
@[simp] theorem State.setLen_tx (v : Byte) (s : State) : (s.setLen v).tx = s.tx := rfl
@[simp] theorem State.setLen_tasks (v : Byte) (s : State) : (s.setLen v).tasks = s.tasks := rfl
@[simp] theorem State.setLen_store (v : Byte) (s : State) : (s.setLen v).store = s.store := rfl
@[simp] theorem State.setLen_appState (v : Byte) (s : State) : (s.setLen v).appState = s.appState := rfl
@[simp] theorem State.setLen_result (v : Byte) (s : State) : (s.setLen v).result = s.result := rfl
@[simp] theorem State.setLen_inputs (v : Byte) (s : State) : (s.setLen v).inputs = s.inputs := rfl
@[simp] theorem State.setLen_draws (v : Byte) (s : State) : (s.setLen v).draws = s.draws := rfl

/-! ### State.setCsum -/

@[simp] theorem State.setCsum_cfg (v : Byte) (s : State) : (s.setCsum v).cfg = s.cfg := rfl
@[simp] theorem State.setCsum_fp (v : Byte) (s : State) : (s.setCsum v).fp = s.fp := rfl
@[simp] theorem State.setCsum_idx (v : Byte) (s : State) : (s.setCsum v).idx = s.idx := rfl
@[simp] theorem State.setCsum_seq (v : Byte) (s : State) : (s.setCsum v).seq = s.seq := rfl
@[simp] theorem State.setCsum_seqv (v : Byte) (s : State) : (s.setCsum v).seqv = s.seqv := rfl
@[simp] theorem State.setCsum_cmd (v : Byte) (s : State) : (s.setCsum v).cmd = s.cmd := rfl
@[simp] theorem State.setCsum_len (v : Byte) (s : State) : (s.setCsum v).len = s.len := rfl
@[simp] theorem State.setCsum_csum (v : Byte) (s : State) : (s.setCsum v).csum = v := rfl
@[simp] theorem State.setCsum_ret (v : Byte) (s : State) : (s.setCsum v).ret = s.ret := rfl
@[simp] theorem State.setCsum_line (v : Byte) (s : State) : (s.setCsum v).line = s.line := rfl
@[simp] theorem State.setCsum_tcnt (v : Byte) (s : State) : (s.setCsum v).tcnt = s.tcnt := rfl
@[simp] theorem State.setCsum_buf (v : Byte) (s : State) : (s.setCsum v).buf = s.buf := rfl
@[simp] theorem State.setCsum_busy (v : Byte) (s : State) : (s.setCsum v).busy = s.busy := rfl
@[simp] theorem State.setCsum_sifseq (v : Byte) (s : State) : (s.setCsum v).sifseq = s.sifseq := rfl
@[simp] theorem State.setCsum_midx (v : Byte) (s : State) : (s.setCsum v).midx = s.midx := rfl
@[simp] theorem State.setCsum_mflags (v : Byte) (s : State) : (s.setCsum v).mflags = s.mflags := rfl
@[simp] theorem State.setCsum_moff (v : Byte) (s : State) : (s.setCsum v).moff = s.moff := rfl
@[simp] theorem State.setCsum_mclen (v : Byte) (s : State) : (s.setCsum v).mclen = s.mclen := rfl
@[simp] theorem State.setCsum_sif (v : Byte) (s : State) : (s.setCsum v).sif = s.sif := rfl
@[simp] theorem State.setCsum_entered (v : Byte) (s : State) : (s.setCsum v).entered = s.entered := rfl
@[simp] theorem State.setCsum_link (v : Byte) (s : State) : (s.setCsum v).link = s.link := rfl
@[simp] theorem State.setCsum_rx (v : Byte) (s : State) : (s.setCsum v).rx = s.rx := rfl
@[simp] theorem State.setCsum_txAnswers (v : Byte) (s : State) : (s.setCsum v).txAnswers = s.txAnswers := rfl
@[simp] theorem State.setCsum_tx (v : Byte) (s : State) : (s.setCsum v).tx = s.tx := rfl
@[simp] theorem State.setCsum_tasks (v : Byte) (s : State) : (s.setCsum v).tasks = s.tasks := rfl
@[simp] theorem State.setCsum_store (v : Byte) (s : State) : (s.setCsum v).store = s.store := rfl
@[simp] theorem State.setCsum_appState (v : Byte) (s : State) : (s.setCsum v).appState = s.appState := rfl
@[simp] theorem State.setCsum_result (v : Byte) (s : State) : (s.setCsum v).result = s.result := rfl
@[simp] theorem State.setCsum_inputs (v : Byte) (s : State) : (s.setCsum v).inputs = s.inputs := rfl
@[simp] theorem State.setCsum_draws (v : Byte) (s : State) : (s.setCsum v).draws = s.draws := rfl

/-! ### State.setRet -/

@[simp] theorem State.setRet_cfg (v : Byte) (s : State) : (s.setRet v).cfg = s.cfg := rfl
@[simp] theorem State.setRet_fp (v : Byte) (s : State) : (s.setRet v).fp = s.fp := rfl
@[simp] theorem State.setRet_idx (v : Byte) (s : State) : (s.setRet v).idx = s.idx := rfl
@[simp] theorem State.setRet_seq (v : Byte) (s : State) : (s.setRet v).seq = s.seq := rfl
@[simp] theorem State.setRet_seqv (v : Byte) (s : State) : (s.setRet v).seqv = s.seqv := rfl
@[simp] theorem State.setRet_cmd (v : Byte) (s : State) : (s.setRet v).cmd = s.cmd := rfl
@[simp] theorem State.setRet_len (v : Byte) (s : State) : (s.setRet v).len = s.len := rfl
@[simp] theorem State.setRet_csum (v : Byte) (s : State) : (s.setRet v).csum = s.csum := rfl
@[simp] theorem State.setRet_ret (v : Byte) (s : State) : (s.setRet v).ret = v := rfl
@[simp] theorem State.setRet_line (v : Byte) (s : State) : (s.setRet v).line = s.line := rfl
@[simp] theorem State.setRet_tcnt (v : Byte) (s : State) : (s.setRet v).tcnt = s.tcnt := rfl
@[simp] theorem State.setRet_buf (v : Byte) (s : State) : (s.setRet v).buf = s.buf := rfl
@[simp] theorem State.setRet_busy (v : Byte) (s : State) : (s.setRet v).busy = s.busy := rfl
@[simp] theorem State.setRet_sifseq (v : Byte) (s : State) : (s.setRet v).sifseq = s.sifseq := rfl
@[simp] theorem State.setRet_midx (v : Byte) (s : State) : (s.setRet v).midx = s.midx := rfl
@[simp] theorem State.setRet_mflags (v : Byte) (s : State) : (s.setRet v).mflags = s.mflags := rfl
@[simp] theorem State.setRet_moff (v : Byte) (s : State) : (s.setRet v).moff = s.moff := rfl
@[simp] theorem State.setRet_mclen (v : Byte) (s : State) : (s.setRet v).mclen = s.mclen := rfl
@[simp] theorem State.setRet_sif (v : Byte) (s : State) : (s.setRet v).sif = s.sif := rfl
@[simp] theorem State.setRet_entered (v : Byte) (s : State) : (s.setRet v).entered = s.entered := rfl
@[simp] theorem State.setRet_link (v : Byte) (s : State) : (s.setRet v).link = s.link := rfl
@[simp] theorem State.setRet_rx (v : Byte) (s : State) : (s.setRet v).rx = s.rx := rfl
@[simp] theorem State.setRet_txAnswers (v : Byte) (s : State) : (s.setRet v).txAnswers = s.txAnswers := rfl
@[simp] theorem State.setRet_tx (v : Byte) (s : State) : (s.setRet v).tx = s.tx := rfl
@[simp] theorem State.setRet_tasks (v : Byte) (s : State) : (s.setRet v).tasks = s.tasks := rfl
@[simp] theorem State.setRet_store (v : Byte) (s : State) : (s.setRet v).store = s.store := rfl
@[simp] theorem State.setRet_appState (v : Byte) (s : State) : (s.setRet v).appState = s.appState := rfl
@[simp] theorem State.setRet_result (v : Byte) (s : State) : (s.setRet v).result = s.result := rfl
@[simp] theorem State.setRet_inputs (v : Byte) (s : State) : (s.setRet v).inputs = s.inputs := rfl
@[simp] theorem State.setRet_draws (v : Byte) (s : State) : (s.setRet v).draws = s.draws := rfl

/-! ### State.setTcnt -/

@[simp] theorem State.setTcnt_cfg (v : Nat) (s : State) : (s.setTcnt v).cfg = s.cfg := rfl
@[simp] theorem State.setTcnt_fp (v : Nat) (s : State) : (s.setTcnt v).fp = s.fp := rfl
@[simp] theorem State.setTcnt_idx (v : Nat) (s : State) : (s.setTcnt v).idx = s.idx := rfl
@[simp] theorem State.setTcnt_seq (v : Nat) (s : State) : (s.setTcnt v).seq = s.seq := rfl
@[simp] theorem State.setTcnt_seqv (v : Nat) (s : State) : (s.setTcnt v).seqv = s.seqv := rfl
@[simp] theorem State.setTcnt_cmd (v : Nat) (s : State) : (s.setTcnt v).cmd = s.cmd := rfl
@[simp] theorem State.setTcnt_len (v : Nat) (s : State) : (s.setTcnt v).len = s.len := rfl
@[simp] theorem State.setTcnt_csum (v : Nat) (s : State) : (s.setTcnt v).csum = s.csum := rfl
@[simp] theorem State.setTcnt_ret (v : Nat) (s : State) : (s.setTcnt v).ret = s.ret := rfl
@[simp] theorem State.setTcnt_line (v : Nat) (s : State) : (s.setTcnt v).line = s.line := rfl
@[simp] theorem State.setTcnt_tcnt (v : Nat) (s : State) : (s.setTcnt v).tcnt = v := rfl
@[simp] theorem State.setTcnt_buf (v : Nat) (s : State) : (s.setTcnt v).buf = s.buf := rfl
@[simp] theorem State.setTcnt_busy (v : Nat) (s : State) : (s.setTcnt v).busy = s.busy := rfl
@[simp] theorem State.setTcnt_sifseq (v : Nat) (s : State) : (s.setTcnt v).sifseq = s.sifseq := rfl
@[simp] theorem State.setTcnt_midx (v : Nat) (s : State) : (s.setTcnt v).midx = s.midx := rfl
@[simp] theorem State.setTcnt_mflags (v : Nat) (s : State) : (s.setTcnt v).mflags = s.mflags := rfl
@[simp] theorem State.setTcnt_moff (v : Nat) (s : State) : (s.setTcnt v).moff = s.moff := rfl
@[simp] theorem State.setTcnt_mclen (v : Nat) (s : State) : (s.setTcnt v).mclen = s.mclen := rfl
@[simp] theorem State.setTcnt_sif (v : Nat) (s : State) : (s.setTcnt v).sif = s.sif := rfl
@[simp] theorem State.setTcnt_entered (v : Nat) (s : State) : (s.setTcnt v).entered = s.entered := rfl
@[simp] theorem State.setTcnt_link (v : Nat) (s : State) : (s.setTcnt v).link = s.link := rfl
@[simp] theorem State.setTcnt_rx (v : Nat) (s : State) : (s.setTcnt v).rx = s.rx := rfl
@[simp] theorem State.setTcnt_txAnswers (v : Nat) (s : State) : (s.setTcnt v).txAnswers = s.txAnswers := rfl
@[simp] theorem State.setTcnt_tx (v : Nat) (s : State) : (s.setTcnt v).tx = s.tx := rfl
@[simp] theorem State.setTcnt_tasks (v : Nat) (s : State) : (s.setTcnt v).tasks = s.tasks := rfl
@[simp] theorem State.setTcnt_store (v : Nat) (s : State) : (s.setTcnt v).store = s.store := rfl
@[simp] theorem State.setTcnt_appState (v : Nat) (s : State) : (s.setTcnt v).appState = s.appState := rfl
@[simp] theorem State.setTcnt_result (v : Nat) (s : State) : (s.setTcnt v).result = s.result := rfl
@[simp] theorem State.setTcnt_inputs (v : Nat) (s : State) : (s.setTcnt v).inputs = s.inputs := rfl
@[simp] theorem State.setTcnt_draws (v : Nat) (s : State) : (s.setTcnt v).draws = s.draws := rfl

/-! ### State.setBusy -/

@[simp] theorem State.setBusy_cfg (v : Bool) (s : State) : (s.setBusy v).cfg = s.cfg := rfl
@[simp] theorem State.setBusy_fp (v : Bool) (s : State) : (s.setBusy v).fp = s.fp := rfl
@[simp] theorem State.setBusy_idx (v : Bool) (s : State) : (s.setBusy v).idx = s.idx := rfl
@[simp] theorem State.setBusy_seq (v : Bool) (s : State) : (s.setBusy v).seq = s.seq := rfl
@[simp] theorem State.setBusy_seqv (v : Bool) (s : State) : (s.setBusy v).seqv = s.seqv := rfl
@[simp] theorem State.setBusy_cmd (v : Bool) (s : State) : (s.setBusy v).cmd = s.cmd := rfl
@[simp] theorem State.setBusy_len (v : Bool) (s : State) : (s.setBusy v).len = s.len := rfl
@[simp] theorem State.setBusy_csum (v : Bool) (s : State) : (s.setBusy v).csum = s.csum := rfl
@[simp] theorem State.setBusy_ret (v : Bool) (s : State) : (s.setBusy v).ret = s.ret := rfl
@[simp] theorem State.setBusy_line (v : Bool) (s : State) : (s.setBusy v).line = s.line := rfl
@[simp] theorem State.setBusy_tcnt (v : Bool) (s : State) : (s.setBusy v).tcnt = s.tcnt := rfl
@[simp] theorem State.setBusy_buf (v : Bool) (s : State) : (s.setBusy v).buf = s.buf := rfl
@[simp] theorem State.setBusy_busy (v : Bool) (s : State) : (s.setBusy v).busy = v := rfl
@[simp] theorem State.setBusy_sifseq (v : Bool) (s : State) : (s.setBusy v).sifseq = s.sifseq := rfl
@[simp] theorem State.setBusy_midx (v : Bool) (s : State) : (s.setBusy v).midx = s.midx := rfl
@[simp] theorem State.setBusy_mflags (v : Bool) (s : State) : (s.setBusy v).mflags = s.mflags := rfl
@[simp] theorem State.setBusy_moff (v : Bool) (s : State) : (s.setBusy v).moff = s.moff := rfl
@[simp] theorem State.setBusy_mclen (v : Bool) (s : State) : (s.setBusy v).mclen = s.mclen := rfl
@[simp] theorem State.setBusy_sif (v : Bool) (s : State) : (s.setBusy v).sif = s.sif := rfl
@[simp] theorem State.setBusy_entered (v : Bool) (s : State) : (s.setBusy v).entered = s.entered := rfl
@[simp] theorem State.setBusy_link (v : Bool) (s : State) : (s.setBusy v).link = s.link := rfl
@[simp] theorem State.setBusy_rx (v : Bool) (s : State) : (s.setBusy v).rx = s.rx := rfl
@[simp] theorem State.setBusy_txAnswers (v : Bool) (s : State) : (s.setBusy v).txAnswers = s.txAnswers := rfl
@[simp] theorem State.setBusy_tx (v : Bool) (s : State) : (s.setBusy v).tx = s.tx := rfl
@[simp] theorem State.setBusy_tasks (v : Bool) (s : State) : (s.setBusy v).tasks = s.tasks := rfl
@[simp] theorem State.setBusy_store (v : Bool) (s : State) : (s.setBusy v).store = s.store := rfl
@[simp] theorem State.setBusy_appState (v : Bool) (s : State) : (s.setBusy v).appState = s.appState := rfl
@[simp] theorem State.setBusy_result (v : Bool) (s : State) : (s.setBusy v).result = s.result := rfl
@[simp] theorem State.setBusy_inputs (v : Bool) (s : State) : (s.setBusy v).inputs = s.inputs := rfl
@[simp] theorem State.setBusy_draws (v : Bool) (s : State) : (s.setBusy v).draws = s.draws := rfl

/-! ### State.setMidx -/

@[simp] theorem State.setMidx_cfg (v : Byte) (s : State) : (s.setMidx v).cfg = s.cfg := rfl
@[simp] theorem State.setMidx_fp (v : Byte) (s : State) : (s.setMidx v).fp = s.fp := rfl
@[simp] theorem State.setMidx_idx (v : Byte) (s : State) : (s.setMidx v).idx = s.idx := rfl
@[simp] theorem State.setMidx_seq (v : Byte) (s : State) : (s.setMidx v).seq = s.seq := rfl
@[simp] theorem State.setMidx_seqv (v : Byte) (s : State) : (s.setMidx v).seqv = s.seqv := rfl
@[simp] theorem State.setMidx_cmd (v : Byte) (s : State) : (s.setMidx v).cmd = s.cmd := rfl
@[simp] theorem State.setMidx_len (v : Byte) (s : State) : (s.setMidx v).len = s.len := rfl
@[simp] theorem State.setMidx_csum (v : Byte) (s : State) : (s.setMidx v).csum = s.csum := rfl
@[simp] theorem State.setMidx_ret (v : Byte) (s : State) : (s.setMidx v).ret = s.ret := rfl
@[simp] theorem State.setMidx_line (v : Byte) (s : State) : (s.setMidx v).line = s.line := rfl
@[simp] theorem State.setMidx_tcnt (v : Byte) (s : State) : (s.setMidx v).tcnt = s.tcnt := rfl
@[simp] theorem State.setMidx_buf (v : Byte) (s : State) : (s.setMidx v).buf = s.buf := rfl
@[simp] theorem State.setMidx_busy (v : Byte) (s : State) : (s.setMidx v).busy = s.busy := rfl
@[simp] theorem State.setMidx_sifseq (v : Byte) (s : State) : (s.setMidx v).sifseq = s.sifseq := rfl
@[simp] theorem State.setMidx_midx (v : Byte) (s : State) : (s.setMidx v).midx = v := rfl
@[simp] theorem State.setMidx_mflags (v : Byte) (s : State) : (s.setMidx v).mflags = s.mflags := rfl
@[simp] theorem State.setMidx_moff (v : Byte) (s : State) : (s.setMidx v).moff = s.moff := rfl
@[simp] theorem State.setMidx_mclen (v : Byte) (s : State) : (s.setMidx v).mclen = s.mclen := rfl
@[simp] theorem State.setMidx_sif (v : Byte) (s : State) : (s.setMidx v).sif = s.sif := rfl
@[simp] theorem State.setMidx_entered (v : Byte) (s : State) : (s.setMidx v).entered = s.entered := rfl
@[simp] theorem State.setMidx_link (v : Byte) (s : State) : (s.setMidx v).link = s.link := rfl
@[simp] theorem State.setMidx_rx (v : Byte) (s : State) : (s.setMidx v).rx = s.rx := rfl
@[simp] theorem State.setMidx_txAnswers (v : Byte) (s : State) : (s.setMidx v).txAnswers = s.txAnswers := rfl
@[simp] theorem State.setMidx_tx (v : Byte) (s : State) : (s.setMidx v).tx = s.tx := rfl
@[simp] theorem State.setMidx_tasks (v : Byte) (s : State) : (s.setMidx v).tasks = s.tasks := rfl
@[simp] theorem State.setMidx_store (v : Byte) (s : State) : (s.setMidx v).store = s.store := rfl
@[simp] theorem State.setMidx_appState (v : Byte) (s : State) : (s.setMidx v).appState = s.appState := rfl
@[simp] theorem State.setMidx_result (v : Byte) (s : State) : (s.setMidx v).result = s.result := rfl
@[simp] theorem State.setMidx_inputs (v : Byte) (s : State) : (s.setMidx v).inputs = s.inputs := rfl
@[simp] theorem State.setMidx_draws (v : Byte) (s : State) : (s.setMidx v).draws = s.draws := rfl

/-! ### State.setRx -/

@[simp] theorem State.setRx_cfg (v : List RxEvent) (s : State) : (s.setRx v).cfg = s.cfg := rfl
@[simp] theorem State.setRx_fp (v : List RxEvent) (s : State) : (s.setRx v).fp = s.fp := rfl
@[simp] theorem State.setRx_idx (v : List RxEvent) (s : State) : (s.setRx v).idx = s.idx := rfl
@[simp] theorem State.setRx_seq (v : List RxEvent) (s : State) : (s.setRx v).seq = s.seq := rfl
@[simp] theorem State.setRx_seqv (v : List RxEvent) (s : State) : (s.setRx v).seqv = s.seqv := rfl
@[simp] theorem State.setRx_cmd (v : List RxEvent) (s : State) : (s.setRx v).cmd = s.cmd := rfl
@[simp] theorem State.setRx_len (v : List RxEvent) (s : State) : (s.setRx v).len = s.len := rfl
@[simp] theorem State.setRx_csum (v : List RxEvent) (s : State) : (s.setRx v).csum = s.csum := rfl
@[simp] theorem State.setRx_ret (v : List RxEvent) (s : State) : (s.setRx v).ret = s.ret := rfl
@[simp] theorem State.setRx_line (v : List RxEvent) (s : State) : (s.setRx v).line = s.line := rfl
@[simp] theorem State.setRx_tcnt (v : List RxEvent) (s : State) : (s.setRx v).tcnt = s.tcnt := rfl
@[simp] theorem State.setRx_buf (v : List RxEvent) (s : State) : (s.setRx v).buf = s.buf := rfl
@[simp] theorem State.setRx_busy (v : List RxEvent) (s : State) : (s.setRx v).busy = s.busy := rfl
@[simp] theorem State.setRx_sifseq (v : List RxEvent) (s : State) : (s.setRx v).sifseq = s.sifseq := rfl
@[simp] theorem State.setRx_midx (v : List RxEvent) (s : State) : (s.setRx v).midx = s.midx := rfl
@[simp] theorem State.setRx_mflags (v : List RxEvent) (s : State) : (s.setRx v).mflags = s.mflags := rfl
@[simp] theorem State.setRx_moff (v : List RxEvent) (s : State) : (s.setRx v).moff = s.moff := rfl
@[simp] theorem State.setRx_mclen (v : List RxEvent) (s : State) : (s.setRx v).mclen = s.mclen := rfl
@[simp] theorem State.setRx_sif (v : List RxEvent) (s : State) : (s.setRx v).sif = s.sif := rfl
@[simp] theorem State.setRx_entered (v : List RxEvent) (s : State) : (s.setRx v).entered = s.entered := rfl
@[simp] theorem State.setRx_link (v : List RxEvent) (s : State) : (s.setRx v).link = s.link := rfl
@[simp] theorem State.setRx_rx (v : List RxEvent) (s : State) : (s.setRx v).rx = v := rfl
@[simp] theorem State.setRx_txAnswers (v : List RxEvent) (s : State) : (s.setRx v).txAnswers = s.txAnswers := rfl
@[simp] theorem State.setRx_tx (v : List RxEvent) (s : State) : (s.setRx v).tx = s.tx := rfl
@[simp] theorem State.setRx_tasks (v : List RxEvent) (s : State) : (s.setRx v).tasks = s.tasks := rfl
@[simp] theorem State.setRx_store (v : List RxEvent) (s : State) : (s.setRx v).store = s.store := rfl
@[simp] theorem State.setRx_appState (v : List RxEvent) (s : State) : (s.setRx v).appState = s.appState := rfl
@[simp] theorem State.setRx_result (v : List RxEvent) (s : State) : (s.setRx v).result = s.result := rfl
@[simp] theorem State.setRx_inputs (v : List RxEvent) (s : State) : (s.setRx v).inputs = s.inputs := rfl
@[simp] theorem State.setRx_draws (v : List RxEvent) (s : State) : (s.setRx v).draws = s.draws := rfl

/-! ### State.setAnswers -/

@[simp] theorem State.setAnswers_cfg (v : List Bool) (s : State) : (s.setAnswers v).cfg = s.cfg := rfl
@[simp] theorem State.setAnswers_fp (v : List Bool) (s : State) : (s.setAnswers v).fp = s.fp := rfl
@[simp] theorem State.setAnswers_idx (v : List Bool) (s : State) : (s.setAnswers v).idx = s.idx := rfl
@[simp] theorem State.setAnswers_seq (v : List Bool) (s : State) : (s.setAnswers v).seq = s.seq := rfl
@[simp] theorem State.setAnswers_seqv (v : List Bool) (s : State) : (s.setAnswers v).seqv = s.seqv := rfl
@[simp] theorem State.setAnswers_cmd (v : List Bool) (s : State) : (s.setAnswers v).cmd = s.cmd := rfl
@[simp] theorem State.setAnswers_len (v : List Bool) (s : State) : (s.setAnswers v).len = s.len := rfl
@[simp] theorem State.setAnswers_csum (v : List Bool) (s : State) : (s.setAnswers v).csum = s.csum := rfl
@[simp] theorem State.setAnswers_ret (v : List Bool) (s : State) : (s.setAnswers v).ret = s.ret := rfl
@[simp] theorem State.setAnswers_line (v : List Bool) (s : State) : (s.setAnswers v).line = s.line := rfl
@[simp] theorem State.setAnswers_tcnt (v : List Bool) (s : State) : (s.setAnswers v).tcnt = s.tcnt := rfl
@[simp] theorem State.setAnswers_buf (v : List Bool) (s : State) : (s.setAnswers v).buf = s.buf := rfl
@[simp] theorem State.setAnswers_busy (v : List Bool) (s : State) : (s.setAnswers v).busy = s.busy := rfl
@[simp] theorem State.setAnswers_sifseq (v : List Bool) (s : State) : (s.setAnswers v).sifseq = s.sifseq := rfl
@[simp] theorem State.setAnswers_midx (v : List Bool) (s : State) : (s.setAnswers v).midx = s.midx := rfl
@[simp] theorem State.setAnswers_mflags (v : List Bool) (s : State) : (s.setAnswers v).mflags = s.mflags := rfl
@[simp] theorem State.setAnswers_moff (v : List Bool) (s : State) : (s.setAnswers v).moff = s.moff := rfl
@[simp] theorem State.setAnswers_mclen (v : List Bool) (s : State) : (s.setAnswers v).mclen = s.mclen := rfl
@[simp] theorem State.setAnswers_sif (v : List Bool) (s : State) : (s.setAnswers v).sif = s.sif := rfl
@[simp] theorem State.setAnswers_entered (v : List Bool) (s : State) : (s.setAnswers v).entered = s.entered := rfl
@[simp] theorem State.setAnswers_link (v : List Bool) (s : State) : (s.setAnswers v).link = s.link := rfl
@[simp] theorem State.setAnswers_rx (v : List Bool) (s : State) : (s.setAnswers v).rx = s.rx := rfl
@[simp] theorem State.setAnswers_txAnswers (v : List Bool) (s : State) : (s.setAnswers v).txAnswers = v := rfl
@[simp] theorem State.setAnswers_tx (v : List Bool) (s : State) : (s.setAnswers v).tx = s.tx := rfl
@[simp] theorem State.setAnswers_tasks (v : List Bool) (s : State) : (s.setAnswers v).tasks = s.tasks := rfl
@[simp] theorem State.setAnswers_store (v : List Bool) (s : State) : (s.setAnswers v).store = s.store := rfl
@[simp] theorem State.setAnswers_appState (v : List Bool) (s : State) : (s.setAnswers v).appState = s.appState := rfl
@[simp] theorem State.setAnswers_result (v : List Bool) (s : State) : (s.setAnswers v).result = s.result := rfl
@[simp] theorem State.setAnswers_inputs (v : List Bool) (s : State) : (s.setAnswers v).inputs = s.inputs := rfl
@[simp] theorem State.setAnswers_draws (v : List Bool) (s : State) : (s.setAnswers v).draws = s.draws := rfl

/-! ### State.setStore -/

@[simp] theorem State.setStore_cfg (v : Memory) (s : State) : (s.setStore v).cfg = s.cfg := rfl
@[simp] theorem State.setStore_fp (v : Memory) (s : State) : (s.setStore v).fp = s.fp := rfl
@[simp] theorem State.setStore_idx (v : Memory) (s : State) : (s.setStore v).idx = s.idx := rfl
@[simp] theorem State.setStore_seq (v : Memory) (s : State) : (s.setStore v).seq = s.seq := rfl
@[simp] theorem State.setStore_seqv (v : Memory) (s : State) : (s.setStore v).seqv = s.seqv := rfl
@[simp] theorem State.setStore_cmd (v : Memory) (s : State) : (s.setStore v).cmd = s.cmd := rfl
@[simp] theorem State.setStore_len (v : Memory) (s : State) : (s.setStore v).len = s.len := rfl
@[simp] theorem State.setStore_csum (v : Memory) (s : State) : (s.setStore v).csum = s.csum := rfl
@[simp] theorem State.setStore_ret (v : Memory) (s : State) : (s.setStore v).ret = s.ret := rfl
@[simp] theorem State.setStore_line (v : Memory) (s : State) : (s.setStore v).line = s.line := rfl
@[simp] theorem State.setStore_tcnt (v : Memory) (s : State) : (s.setStore v).tcnt = s.tcnt := rfl
@[simp] theorem State.setStore_buf (v : Memory) (s : State) : (s.setStore v).buf = s.buf := rfl
@[simp] theorem State.setStore_busy (v : Memory) (s : State) : (s.setStore v).busy = s.busy := rfl
@[simp] theorem State.setStore_sifseq (v : Memory) (s : State) : (s.setStore v).sifseq = s.sifseq := rfl
@[simp] theorem State.setStore_midx (v : Memory) (s : State) : (s.setStore v).midx = s.midx := rfl
@[simp] theorem State.setStore_mflags (v : Memory) (s : State) : (s.setStore v).mflags = s.mflags := rfl
@[simp] theorem State.setStore_moff (v : Memory) (s : State) : (s.setStore v).moff = s.moff := rfl
@[simp] theorem State.setStore_mclen (v : Memory) (s : State) : (s.setStore v).mclen = s.mclen := rfl
@[simp] theorem State.setStore_sif (v : Memory) (s : State) : (s.setStore v).sif = s.sif := rfl
@[simp] theorem State.setStore_entered (v : Memory) (s : State) : (s.setStore v).entered = s.entered := rfl
@[simp] theorem State.setStore_link (v : Memory) (s : State) : (s.setStore v).link = s.link := rfl
@[simp] theorem State.setStore_rx (v : Memory) (s : State) : (s.setStore v).rx = s.rx := rfl
@[simp] theorem State.setStore_txAnswers (v : Memory) (s : State) : (s.setStore v).txAnswers = s.txAnswers := rfl
@[simp] theorem State.setStore_tx (v : Memory) (s : State) : (s.setStore v).tx = s.tx := rfl
@[simp] theorem State.setStore_tasks (v : Memory) (s : State) : (s.setStore v).tasks = s.tasks := rfl
@[simp] theorem State.setStore_store (v : Memory) (s : State) : (s.setStore v).store = v := rfl
@[simp] theorem State.setStore_appState (v : Memory) (s : State) : (s.setStore v).appState = s.appState := rfl
@[simp] theorem State.setStore_result (v : Memory) (s : State) : (s.setStore v).result = s.result := rfl
@[simp] theorem State.setStore_inputs (v : Memory) (s : State) : (s.setStore v).inputs = s.inputs := rfl
@[simp] theorem State.setStore_draws (v : Memory) (s : State) : (s.setStore v).draws = s.draws := rfl

/-! ### State.setAppState -/

@[simp] theorem State.setAppState_cfg (v : Nat) (s : State) : (s.setAppState v).cfg = s.cfg := rfl
@[simp] theorem State.setAppState_fp (v : Nat) (s : State) : (s.setAppState v).fp = s.fp := rfl
@[simp] theorem State.setAppState_idx (v : Nat) (s : State) : (s.setAppState v).idx = s.idx := rfl
@[simp] theorem State.setAppState_seq (v : Nat) (s : State) : (s.setAppState v).seq = s.seq := rfl
@[simp] theorem State.setAppState_seqv (v : Nat) (s : State) : (s.setAppState v).seqv = s.seqv := rfl
@[simp] theorem State.setAppState_cmd (v : Nat) (s : State) : (s.setAppState v).cmd = s.cmd := rfl
@[simp] theorem State.setAppState_len (v : Nat) (s : State) : (s.setAppState v).len = s.len := rfl
@[simp] theorem State.setAppState_csum (v : Nat) (s : State) : (s.setAppState v).csum = s.csum := rfl
@[simp] theorem State.setAppState_ret (v : Nat) (s : State) : (s.setAppState v).ret = s.ret := rfl
@[simp] theorem State.setAppState_line (v : Nat) (s : State) : (s.setAppState v).line = s.line := rfl
@[simp] theorem State.setAppState_tcnt (v : Nat) (s : State) : (s.setAppState v).tcnt = s.tcnt := rfl
@[simp] theorem State.setAppState_buf (v : Nat) (s : State) : (s.setAppState v).buf = s.buf := rfl
@[simp] theorem State.setAppState_busy (v : Nat) (s : State) : (s.setAppState v).busy = s.busy := rfl
@[simp] theorem State.setAppState_sifseq (v : Nat) (s : State) : (s.setAppState v).sifseq = s.sifseq := rfl
@[simp] theorem State.setAppState_midx (v : Nat) (s : State) : (s.setAppState v).midx = s.midx := rfl
@[simp] theorem State.setAppState_mflags (v : Nat) (s : State) : (s.setAppState v).mflags = s.mflags := rfl
@[simp] theorem State.setAppState_moff (v : Nat) (s : State) : (s.setAppState v).moff = s.moff := rfl
@[simp] theorem State.setAppState_mclen (v : Nat) (s : State) : (s.setAppState v).mclen = s.mclen := rfl
@[simp] theorem State.setAppState_sif (v : Nat) (s : State) : (s.setAppState v).sif = s.sif := rfl
@[simp] theorem State.setAppState_entered (v : Nat) (s : State) : (s.setAppState v).entered = s.entered := rfl
@[simp] theorem State.setAppState_link (v : Nat) (s : State) : (s.setAppState v).link = s.link := rfl
@[simp] theorem State.setAppState_rx (v : Nat) (s : State) : (s.setAppState v).rx = s.rx := rfl
@[simp] theorem State.setAppState_txAnswers (v : Nat) (s : State) : (s.setAppState v).txAnswers = s.txAnswers := rfl
@[simp] theorem State.setAppState_tx (v : Nat) (s : State) : (s.setAppState v).tx = s.tx := rfl
@[simp] theorem State.setAppState_tasks (v : Nat) (s : State) : (s.setAppState v).tasks = s.tasks := rfl
@[simp] theorem State.setAppState_store (v : Nat) (s : State) : (s.setAppState v).store = s.store := rfl
@[simp] theorem State.setAppState_appState (v : Nat) (s : State) : (s.setAppState v).appState = v := rfl
@[simp] theorem State.setAppState_result (v : Nat) (s : State) : (s.setAppState v).result = s.result := rfl
@[simp] theorem State.setAppState_inputs (v : Nat) (s : State) : (s.setAppState v).inputs = s.inputs := rfl
@[simp] theorem State.setAppState_draws (v : Nat) (s : State) : (s.setAppState v).draws = s.draws := rfl

/-! ### State.setInputs -/

@[simp] theorem State.setInputs_cfg (v : List Input) (s : State) : (s.setInputs v).cfg = s.cfg := rfl
@[simp] theorem State.setInputs_fp (v : List Input) (s : State) : (s.setInputs v).fp = s.fp := rfl
@[simp] theorem State.setInputs_idx (v : List Input) (s : State) : (s.setInputs v).idx = s.idx := rfl
@[simp] theorem State.setInputs_seq (v : List Input) (s : State) : (s.setInputs v).seq = s.seq := rfl
@[simp] theorem State.setInputs_seqv (v : List Input) (s : State) : (s.setInputs v).seqv = s.seqv := rfl
@[simp] theorem State.setInputs_cmd (v : List Input) (s : State) : (s.setInputs v).cmd = s.cmd := rfl
@[simp] theorem State.setInputs_len (v : List Input) (s : State) : (s.setInputs v).len = s.len := rfl
@[simp] theorem State.setInputs_csum (v : List Input) (s : State) : (s.setInputs v).csum = s.csum := rfl
@[simp] theorem State.setInputs_ret (v : List Input) (s : State) : (s.setInputs v).ret = s.ret := rfl
@[simp] theorem State.setInputs_line (v : List Input) (s : State) : (s.setInputs v).line = s.line := rfl
@[simp] theorem State.setInputs_tcnt (v : List Input) (s : State) : (s.setInputs v).tcnt = s.tcnt := rfl
@[simp] theorem State.setInputs_buf (v : List Input) (s : State) : (s.setInputs v).buf = s.buf := rfl
@[simp] theorem State.setInputs_busy (v : List Input) (s : State) : (s.setInputs v).busy = s.busy := rfl
@[simp] theorem State.setInputs_sifseq (v : List Input) (s : State) : (s.setInputs v).sifseq = s.sifseq := rfl
@[simp] theorem State.setInputs_midx (v : List Input) (s : State) : (s.setInputs v).midx = s.midx := rfl
@[simp] theorem State.setInputs_mflags (v : List Input) (s : State) : (s.setInputs v).mflags = s.mflags := rfl
@[simp] theorem State.setInputs_moff (v : List Input) (s : State) : (s.setInputs v).moff = s.moff := rfl
@[simp] theorem State.setInputs_mclen (v : List Input) (s : State) : (s.setInputs v).mclen = s.mclen := rfl
@[simp] theorem State.setInputs_sif (v : List Input) (s : State) : (s.setInputs v).sif = s.sif := rfl
@[simp] theorem State.setInputs_entered (v : List Input) (s : State) : (s.setInputs v).entered = s.entered := rfl
@[simp] theorem State.setInputs_link (v : List Input) (s : State) : (s.setInputs v).link = s.link := rfl
@[simp] theorem State.setInputs_rx (v : List Input) (s : State) : (s.setInputs v).rx = s.rx := rfl
@[simp] theorem State.setInputs_txAnswers (v : List Input) (s : State) : (s.setInputs v).txAnswers = s.txAnswers := rfl
@[simp] theorem State.setInputs_tx (v : List Input) (s : State) : (s.setInputs v).tx = s.tx := rfl
@[simp] theorem State.setInputs_tasks (v : List Input) (s : State) : (s.setInputs v).tasks = s.tasks := rfl
@[simp] theorem State.setInputs_store (v : List Input) (s : State) : (s.setInputs v).store = s.store := rfl
@[simp] theorem State.setInputs_appState (v : List Input) (s : State) : (s.setInputs v).appState = s.appState := rfl
@[simp] theorem State.setInputs_result (v : List Input) (s : State) : (s.setInputs v).result = s.result := rfl
@[simp] theorem State.setInputs_inputs (v : List Input) (s : State) : (s.setInputs v).inputs = v := rfl
@[simp] theorem State.setInputs_draws (v : List Input) (s : State) : (s.setInputs v).draws = s.draws := rfl

/-! ### State.setLink -/

@[simp] theorem State.setLink_cfg (v : Bool) (s : State) : (s.setLink v).cfg = s.cfg := rfl
@[simp] theorem State.setLink_fp (v : Bool) (s : State) : (s.setLink v).fp = s.fp := rfl
@[simp] theorem State.setLink_idx (v : Bool) (s : State) : (s.setLink v).idx = s.idx := rfl
@[simp] theorem State.setLink_seq (v : Bool) (s : State) : (s.setLink v).seq = s.seq := rfl
@[simp] theorem State.setLink_seqv (v : Bool) (s : State) : (s.setLink v).seqv = s.seqv := rfl
@[simp] theorem State.setLink_cmd (v : Bool) (s : State) : (s.setLink v).cmd = s.cmd := rfl
@[simp] theorem State.setLink_len (v : Bool) (s : State) : (s.setLink v).len = s.len := rfl
@[simp] theorem State.setLink_csum (v : Bool) (s : State) : (s.setLink v).csum = s.csum := rfl
@[simp] theorem State.setLink_ret (v : Bool) (s : State) : (s.setLink v).ret = s.ret := rfl
@[simp] theorem State.setLink_line (v : Bool) (s : State) : (s.setLink v).line = s.line := rfl
@[simp] theorem State.setLink_tcnt (v : Bool) (s : State) : (s.setLink v).tcnt = s.tcnt := rfl
@[simp] theorem State.setLink_buf (v : Bool) (s : State) : (s.setLink v).buf = s.buf := rfl
@[simp] theorem State.setLink_busy (v : Bool) (s : State) : (s.setLink v).busy = s.busy := rfl
@[simp] theorem State.setLink_sifseq (v : Bool) (s : State) : (s.setLink v).sifseq = s.sifseq := rfl
@[simp] theorem State.setLink_midx (v : Bool) (s : State) : (s.setLink v).midx = s.midx := rfl
@[simp] theorem State.setLink_mflags (v : Bool) (s : State) : (s.setLink v).mflags = s.mflags := rfl
@[simp] theorem State.setLink_moff (v : Bool) (s : State) : (s.setLink v).moff = s.moff := rfl
@[simp] theorem State.setLink_mclen (v : Bool) (s : State) : (s.setLink v).mclen = s.mclen := rfl
@[simp] theorem State.setLink_sif (v : Bool) (s : State) : (s.setLink v).sif = s.sif := rfl
@[simp] theorem State.setLink_entered (v : Bool) (s : State) : (s.setLink v).entered = s.entered := rfl
@[simp] theorem State.setLink_link (v : Bool) (s : State) : (s.setLink v).link = v := rfl
@[simp] theorem State.setLink_rx (v : Bool) (s : State) : (s.setLink v).rx = s.rx := rfl
@[simp] theorem State.setLink_txAnswers (v : Bool) (s : State) : (s.setLink v).txAnswers = s.txAnswers := rfl
@[simp] theorem State.setLink_tx (v : Bool) (s : State) : (s.setLink v).tx = s.tx := rfl
@[simp] theorem State.setLink_tasks (v : Bool) (s : State) : (s.setLink v).tasks = s.tasks := rfl
@[simp] theorem State.setLink_store (v : Bool) (s : State) : (s.setLink v).store = s.store := rfl
@[simp] theorem State.setLink_appState (v : Bool) (s : State) : (s.setLink v).appState = s.appState := rfl
@[simp] theorem State.setLink_result (v : Bool) (s : State) : (s.setLink v).result = s.result := rfl
@[simp] theorem State.setLink_inputs (v : Bool) (s : State) : (s.setLink v).inputs = s.inputs := rfl
@[simp] theorem State.setLink_draws (v : Bool) (s : State) : (s.setLink v).draws = s.draws := rfl

/-! ### State.answer -/

@[simp] theorem State.answer_cfg (r : Result) (s : State) : (s.answer r).cfg = s.cfg := rfl
@[simp] theorem State.answer_fp (r : Result) (s : State) : (s.answer r).fp = s.fp := rfl
@[simp] theorem State.answer_idx (r : Result) (s : State) : (s.answer r).idx = s.idx := rfl
@[simp] theorem State.answer_seq (r : Result) (s : State) : (s.answer r).seq = s.seq := rfl
@[simp] theorem State.answer_seqv (r : Result) (s : State) : (s.answer r).seqv = s.seqv := rfl
@[simp] theorem State.answer_cmd (r : Result) (s : State) : (s.answer r).cmd = s.cmd := rfl
@[simp] theorem State.answer_len (r : Result) (s : State) : (s.answer r).len = s.len := rfl
@[simp] theorem State.answer_csum (r : Result) (s : State) : (s.answer r).csum = s.csum := rfl
@[simp] theorem State.answer_ret (r : Result) (s : State) : (s.answer r).ret = s.ret := rfl
@[simp] theorem State.answer_line (r : Result) (s : State) : (s.answer r).line = s.line := rfl
@[simp] theorem State.answer_tcnt (r : Result) (s : State) : (s.answer r).tcnt = s.tcnt := rfl
@[simp] theorem State.answer_buf (r : Result) (s : State) : (s.answer r).buf = s.buf := rfl
@[simp] theorem State.answer_busy (r : Result) (s : State) : (s.answer r).busy = s.busy := rfl
@[simp] theorem State.answer_sifseq (r : Result) (s : State) : (s.answer r).sifseq = s.sifseq := rfl
@[simp] theorem State.answer_midx (r : Result) (s : State) : (s.answer r).midx = s.midx := rfl
@[simp] theorem State.answer_mflags (r : Result) (s : State) : (s.answer r).mflags = s.mflags := rfl
@[simp] theorem State.answer_moff (r : Result) (s : State) : (s.answer r).moff = s.moff := rfl
@[simp] theorem State.answer_mclen (r : Result) (s : State) : (s.answer r).mclen = s.mclen := rfl
@[simp] theorem State.answer_sif (r : Result) (s : State) : (s.answer r).sif = s.sif := rfl
@[simp] theorem State.answer_entered (r : Result) (s : State) : (s.answer r).entered = s.entered := rfl
@[simp] theorem State.answer_link (r : Result) (s : State) : (s.answer r).link = s.link := rfl
@[simp] theorem State.answer_rx (r : Result) (s : State) : (s.answer r).rx = s.rx := rfl
@[simp] theorem State.answer_txAnswers (r : Result) (s : State) : (s.answer r).txAnswers = s.txAnswers := rfl
@[simp] theorem State.answer_tx (r : Result) (s : State) : (s.answer r).tx = s.tx := rfl
@[simp] theorem State.answer_tasks (r : Result) (s : State) : (s.answer r).tasks = s.tasks := rfl
@[simp] theorem State.answer_store (r : Result) (s : State) : (s.answer r).store = s.store := rfl
@[simp] theorem State.answer_appState (r : Result) (s : State) : (s.answer r).appState = s.appState := rfl
@[simp] theorem State.answer_result (r : Result) (s : State) : (s.answer r).result = r := rfl
@[simp] theorem State.answer_inputs (r : Result) (s : State) : (s.answer r).inputs = s.inputs := rfl
@[simp] theorem State.answer_draws (r : Result) (s : State) : (s.answer r).draws = s.draws := rfl

/-! ### State.noOp -/

@[simp] theorem State.noOp_cfg (why : NoOpReason) (s : State) : (s.noOp why).cfg = s.cfg := rfl
@[simp] theorem State.noOp_fp (why : NoOpReason) (s : State) : (s.noOp why).fp = s.fp := rfl
@[simp] theorem State.noOp_idx (why : NoOpReason) (s : State) : (s.noOp why).idx = s.idx := rfl
@[simp] theorem State.noOp_seq (why : NoOpReason) (s : State) : (s.noOp why).seq = s.seq := rfl
@[simp] theorem State.noOp_seqv (why : NoOpReason) (s : State) : (s.noOp why).seqv = s.seqv := rfl
@[simp] theorem State.noOp_cmd (why : NoOpReason) (s : State) : (s.noOp why).cmd = s.cmd := rfl
@[simp] theorem State.noOp_len (why : NoOpReason) (s : State) : (s.noOp why).len = s.len := rfl
@[simp] theorem State.noOp_csum (why : NoOpReason) (s : State) : (s.noOp why).csum = s.csum := rfl
@[simp] theorem State.noOp_ret (why : NoOpReason) (s : State) : (s.noOp why).ret = s.ret := rfl
@[simp] theorem State.noOp_line (why : NoOpReason) (s : State) : (s.noOp why).line = s.line := rfl
@[simp] theorem State.noOp_tcnt (why : NoOpReason) (s : State) : (s.noOp why).tcnt = s.tcnt := rfl
@[simp] theorem State.noOp_buf (why : NoOpReason) (s : State) : (s.noOp why).buf = s.buf := rfl
@[simp] theorem State.noOp_busy (why : NoOpReason) (s : State) : (s.noOp why).busy = s.busy := rfl
@[simp] theorem State.noOp_sifseq (why : NoOpReason) (s : State) : (s.noOp why).sifseq = s.sifseq := rfl
@[simp] theorem State.noOp_midx (why : NoOpReason) (s : State) : (s.noOp why).midx = s.midx := rfl
@[simp] theorem State.noOp_mflags (why : NoOpReason) (s : State) : (s.noOp why).mflags = s.mflags := rfl
@[simp] theorem State.noOp_moff (why : NoOpReason) (s : State) : (s.noOp why).moff = s.moff := rfl
@[simp] theorem State.noOp_mclen (why : NoOpReason) (s : State) : (s.noOp why).mclen = s.mclen := rfl
@[simp] theorem State.noOp_sif (why : NoOpReason) (s : State) : (s.noOp why).sif = s.sif := rfl
@[simp] theorem State.noOp_entered (why : NoOpReason) (s : State) : (s.noOp why).entered = s.entered := rfl
@[simp] theorem State.noOp_link (why : NoOpReason) (s : State) : (s.noOp why).link = s.link := rfl
@[simp] theorem State.noOp_rx (why : NoOpReason) (s : State) : (s.noOp why).rx = s.rx := rfl
@[simp] theorem State.noOp_txAnswers (why : NoOpReason) (s : State) : (s.noOp why).txAnswers = s.txAnswers := rfl
@[simp] theorem State.noOp_tx (why : NoOpReason) (s : State) : (s.noOp why).tx = s.tx := rfl
@[simp] theorem State.noOp_tasks (why : NoOpReason) (s : State) : (s.noOp why).tasks = s.tasks := rfl
@[simp] theorem State.noOp_store (why : NoOpReason) (s : State) : (s.noOp why).store = s.store := rfl
@[simp] theorem State.noOp_appState (why : NoOpReason) (s : State) : (s.noOp why).appState = s.appState := rfl
@[simp] theorem State.noOp_result (why : NoOpReason) (s : State) : (s.noOp why).result = .poll (.noOp why) := rfl
@[simp] theorem State.noOp_inputs (why : NoOpReason) (s : State) : (s.noOp why).inputs = s.inputs := rfl
@[simp] theorem State.noOp_draws (why : NoOpReason) (s : State) : (s.noOp why).draws = s.draws := rfl

/-! ### State.bufWriteAll -/

@[simp] theorem State.bufWriteAll_cfg (a : Nat) (vs : List Byte) (s : State) : (s.bufWriteAll a vs).cfg = s.cfg := rfl
@[simp] theorem State.bufWriteAll_fp (a : Nat) (vs : List Byte) (s : State) : (s.bufWriteAll a vs).fp = s.fp := rfl
@[simp] theorem State.bufWriteAll_idx (a : Nat) (vs : List Byte) (s : State) : (s.bufWriteAll a vs).idx = s.idx := rfl
@[simp] theorem State.bufWriteAll_seq (a : Nat) (vs : List Byte) (s : State) : (s.bufWriteAll a vs).seq = s.seq := rfl
@[simp] theorem State.bufWriteAll_seqv (a : Nat) (vs : List Byte) (s : State) : (s.bufWriteAll a vs).seqv = s.seqv := rfl
@[simp] theorem State.bufWriteAll_cmd (a : Nat) (vs : List Byte) (s : State) : (s.bufWriteAll a vs).cmd = s.cmd := rfl
@[simp] theorem State.bufWriteAll_len (a : Nat) (vs : List Byte) (s : State) : (s.bufWriteAll a vs).len = s.len := rfl
@[simp] theorem State.bufWriteAll_csum (a : Nat) (vs : List Byte) (s : State) : (s.bufWriteAll a vs).csum = s.csum := rfl
@[simp] theorem State.bufWriteAll_ret (a : Nat) (vs : List Byte) (s : State) : (s.bufWriteAll a vs).ret = s.ret := rfl
@[simp] theorem State.bufWriteAll_line (a : Nat) (vs : List Byte) (s : State) : (s.bufWriteAll a vs).line = s.line := rfl
@[simp] theorem State.bufWriteAll_tcnt (a : Nat) (vs : List Byte) (s : State) : (s.bufWriteAll a vs).tcnt = s.tcnt := rfl
@[simp] theorem State.bufWriteAll_buf (a : Nat) (vs : List Byte) (s : State) : (s.bufWriteAll a vs).buf = s.buf.writeAll a vs := rfl
@[simp] theorem State.bufWriteAll_busy (a : Nat) (vs : List Byte) (s : State) : (s.bufWriteAll a vs).busy = s.busy := rfl
@[simp] theorem State.bufWriteAll_sifseq (a : Nat) (vs : List Byte) (s : State) : (s.bufWriteAll a vs).sifseq = s.sifseq := rfl
@[simp] theorem State.bufWriteAll_midx (a : Nat) (vs : List Byte) (s : State) : (s.bufWriteAll a vs).midx = s.midx := rfl
@[simp] theorem State.bufWriteAll_mflags (a : Nat) (vs : List Byte) (s : State) : (s.bufWriteAll a vs).mflags = s.mflags := rfl
@[simp] theorem State.bufWriteAll_moff (a : Nat) (vs : List Byte) (s : State) : (s.bufWriteAll a vs).moff = s.moff := rfl
@[simp] theorem State.bufWriteAll_mclen (a : Nat) (vs : List Byte) (s : State) : (s.bufWriteAll a vs).mclen = s.mclen := rfl
@[simp] theorem State.bufWriteAll_sif (a : Nat) (vs : List Byte) (s : State) : (s.bufWriteAll a vs).sif = s.sif := rfl
@[simp] theorem State.bufWriteAll_entered (a : Nat) (vs : List Byte) (s : State) : (s.bufWriteAll a vs).entered = s.entered := rfl
@[simp] theorem State.bufWriteAll_link (a : Nat) (vs : List Byte) (s : State) : (s.bufWriteAll a vs).link = s.link := rfl
@[simp] theorem State.bufWriteAll_rx (a : Nat) (vs : List Byte) (s : State) : (s.bufWriteAll a vs).rx = s.rx := rfl
@[simp] theorem State.bufWriteAll_txAnswers (a : Nat) (vs : List Byte) (s : State) : (s.bufWriteAll a vs).txAnswers = s.txAnswers := rfl
@[simp] theorem State.bufWriteAll_tx (a : Nat) (vs : List Byte) (s : State) : (s.bufWriteAll a vs).tx = s.tx := rfl
@[simp] theorem State.bufWriteAll_tasks (a : Nat) (vs : List Byte) (s : State) : (s.bufWriteAll a vs).tasks = s.tasks := rfl
@[simp] theorem State.bufWriteAll_store (a : Nat) (vs : List Byte) (s : State) : (s.bufWriteAll a vs).store = s.store := rfl
@[simp] theorem State.bufWriteAll_appState (a : Nat) (vs : List Byte) (s : State) : (s.bufWriteAll a vs).appState = s.appState := rfl
@[simp] theorem State.bufWriteAll_result (a : Nat) (vs : List Byte) (s : State) : (s.bufWriteAll a vs).result = s.result := rfl
@[simp] theorem State.bufWriteAll_inputs (a : Nat) (vs : List Byte) (s : State) : (s.bufWriteAll a vs).inputs = s.inputs := rfl
@[simp] theorem State.bufWriteAll_draws (a : Nat) (vs : List Byte) (s : State) : (s.bufWriteAll a vs).draws = s.draws := rfl

/-! ### State.chunkWrite -/

@[simp] theorem State.chunkWrite_cfg (vs : List Byte) (s : State) : (s.chunkWrite vs).cfg = s.cfg := rfl
@[simp] theorem State.chunkWrite_fp (vs : List Byte) (s : State) : (s.chunkWrite vs).fp = s.fp := rfl
@[simp] theorem State.chunkWrite_idx (vs : List Byte) (s : State) : (s.chunkWrite vs).idx = s.idx := rfl
@[simp] theorem State.chunkWrite_seq (vs : List Byte) (s : State) : (s.chunkWrite vs).seq = s.seq := rfl
@[simp] theorem State.chunkWrite_seqv (vs : List Byte) (s : State) : (s.chunkWrite vs).seqv = s.seqv := rfl
@[simp] theorem State.chunkWrite_cmd (vs : List Byte) (s : State) : (s.chunkWrite vs).cmd = s.cmd := rfl
@[simp] theorem State.chunkWrite_len (vs : List Byte) (s : State) : (s.chunkWrite vs).len = s.len := rfl
@[simp] theorem State.chunkWrite_csum (vs : List Byte) (s : State) : (s.chunkWrite vs).csum = s.csum := rfl
@[simp] theorem State.chunkWrite_ret (vs : List Byte) (s : State) : (s.chunkWrite vs).ret = s.ret := rfl
@[simp] theorem State.chunkWrite_line (vs : List Byte) (s : State) : (s.chunkWrite vs).line = s.line := rfl
@[simp] theorem State.chunkWrite_tcnt (vs : List Byte) (s : State) : (s.chunkWrite vs).tcnt = s.tcnt := rfl
@[simp] theorem State.chunkWrite_buf (vs : List Byte) (s : State) : (s.chunkWrite vs).buf = s.buf.writeAll Config.header vs := rfl
@[simp] theorem State.chunkWrite_busy (vs : List Byte) (s : State) : (s.chunkWrite vs).busy = s.busy := rfl
@[simp] theorem State.chunkWrite_sifseq (vs : List Byte) (s : State) : (s.chunkWrite vs).sifseq = s.sifseq := rfl
@[simp] theorem State.chunkWrite_midx (vs : List Byte) (s : State) : (s.chunkWrite vs).midx = s.midx := rfl
@[simp] theorem State.chunkWrite_mflags (vs : List Byte) (s : State) : (s.chunkWrite vs).mflags = s.mflags := rfl
@[simp] theorem State.chunkWrite_moff (vs : List Byte) (s : State) : (s.chunkWrite vs).moff = s.moff := rfl
@[simp] theorem State.chunkWrite_mclen (vs : List Byte) (s : State) : (s.chunkWrite vs).mclen = s.mclen := rfl
@[simp] theorem State.chunkWrite_sif (vs : List Byte) (s : State) : (s.chunkWrite vs).sif = s.sif := rfl
@[simp] theorem State.chunkWrite_entered (vs : List Byte) (s : State) : (s.chunkWrite vs).entered = s.entered := rfl
@[simp] theorem State.chunkWrite_link (vs : List Byte) (s : State) : (s.chunkWrite vs).link = s.link := rfl
@[simp] theorem State.chunkWrite_rx (vs : List Byte) (s : State) : (s.chunkWrite vs).rx = s.rx := rfl
@[simp] theorem State.chunkWrite_txAnswers (vs : List Byte) (s : State) : (s.chunkWrite vs).txAnswers = s.txAnswers := rfl
@[simp] theorem State.chunkWrite_tx (vs : List Byte) (s : State) : (s.chunkWrite vs).tx = s.tx := rfl
@[simp] theorem State.chunkWrite_tasks (vs : List Byte) (s : State) : (s.chunkWrite vs).tasks = s.tasks := rfl
@[simp] theorem State.chunkWrite_store (vs : List Byte) (s : State) : (s.chunkWrite vs).store = s.store := rfl
@[simp] theorem State.chunkWrite_appState (vs : List Byte) (s : State) : (s.chunkWrite vs).appState = s.appState := rfl
@[simp] theorem State.chunkWrite_result (vs : List Byte) (s : State) : (s.chunkWrite vs).result = s.result := rfl
@[simp] theorem State.chunkWrite_inputs (vs : List Byte) (s : State) : (s.chunkWrite vs).inputs = s.inputs := rfl
@[simp] theorem State.chunkWrite_draws (vs : List Byte) (s : State) : (s.chunkWrite vs).draws = s.draws := rfl

/-! ### State.handlerDone -/

@[simp] theorem State.handlerDone_cfg (ret len : Byte) (s : State) : (s.handlerDone ret len).cfg = s.cfg := rfl
@[simp] theorem State.handlerDone_fp (ret len : Byte) (s : State) : (s.handlerDone ret len).fp = s.fp := rfl
@[simp] theorem State.handlerDone_idx (ret len : Byte) (s : State) : (s.handlerDone ret len).idx = s.idx := rfl
@[simp] theorem State.handlerDone_seq (ret len : Byte) (s : State) : (s.handlerDone ret len).seq = s.seq := rfl
@[simp] theorem State.handlerDone_seqv (ret len : Byte) (s : State) : (s.handlerDone ret len).seqv = s.seqv := rfl
@[simp] theorem State.handlerDone_cmd (ret len : Byte) (s : State) : (s.handlerDone ret len).cmd = s.cmd := rfl
@[simp] theorem State.handlerDone_len (ret len : Byte) (s : State) : (s.handlerDone ret len).len = len := rfl
@[simp] theorem State.handlerDone_csum (ret len : Byte) (s : State) : (s.handlerDone ret len).csum = s.csum := rfl
@[simp] theorem State.handlerDone_ret (ret len : Byte) (s : State) : (s.handlerDone ret len).ret = s.ret := rfl
@[simp] theorem State.handlerDone_line (ret len : Byte) (s : State) : (s.handlerDone ret len).line = s.line := rfl
@[simp] theorem State.handlerDone_tcnt (ret len : Byte) (s : State) : (s.handlerDone ret len).tcnt = s.tcnt := rfl
@[simp] theorem State.handlerDone_buf (ret len : Byte) (s : State) : (s.handlerDone ret len).buf = s.buf := rfl
@[simp] theorem State.handlerDone_busy (ret len : Byte) (s : State) : (s.handlerDone ret len).busy = s.busy := rfl
@[simp] theorem State.handlerDone_sifseq (ret len : Byte) (s : State) : (s.handlerDone ret len).sifseq = s.sifseq := rfl
@[simp] theorem State.handlerDone_midx (ret len : Byte) (s : State) : (s.handlerDone ret len).midx = s.midx := rfl
@[simp] theorem State.handlerDone_mflags (ret len : Byte) (s : State) : (s.handlerDone ret len).mflags = s.mflags := rfl
@[simp] theorem State.handlerDone_moff (ret len : Byte) (s : State) : (s.handlerDone ret len).moff = s.moff := rfl
@[simp] theorem State.handlerDone_mclen (ret len : Byte) (s : State) : (s.handlerDone ret len).mclen = s.mclen := rfl
@[simp] theorem State.handlerDone_sif (ret len : Byte) (s : State) : (s.handlerDone ret len).sif = s.sif := rfl
@[simp] theorem State.handlerDone_entered (ret len : Byte) (s : State) : (s.handlerDone ret len).entered = s.entered := rfl
@[simp] theorem State.handlerDone_link (ret len : Byte) (s : State) : (s.handlerDone ret len).link = s.link := rfl
@[simp] theorem State.handlerDone_rx (ret len : Byte) (s : State) : (s.handlerDone ret len).rx = s.rx := rfl
@[simp] theorem State.handlerDone_txAnswers (ret len : Byte) (s : State) : (s.handlerDone ret len).txAnswers = s.txAnswers := rfl
@[simp] theorem State.handlerDone_tx (ret len : Byte) (s : State) : (s.handlerDone ret len).tx = s.tx := rfl
@[simp] theorem State.handlerDone_tasks (ret len : Byte) (s : State) : (s.handlerDone ret len).tasks = s.tasks := rfl
@[simp] theorem State.handlerDone_store (ret len : Byte) (s : State) : (s.handlerDone ret len).store = s.store := rfl
@[simp] theorem State.handlerDone_appState (ret len : Byte) (s : State) : (s.handlerDone ret len).appState = s.appState := rfl
@[simp] theorem State.handlerDone_result (ret len : Byte) (s : State) : (s.handlerDone ret len).result = .handler ret len := rfl
@[simp] theorem State.handlerDone_inputs (ret len : Byte) (s : State) : (s.handlerDone ret len).inputs = s.inputs := rfl
@[simp] theorem State.handlerDone_draws (ret len : Byte) (s : State) : (s.handlerDone ret len).draws = s.draws := rfl

/-! ### State.pushTx -/

@[simp] theorem State.pushTx_cfg (e : TxEvent) (s : State) : (s.pushTx e).cfg = s.cfg := rfl
@[simp] theorem State.pushTx_fp (e : TxEvent) (s : State) : (s.pushTx e).fp = s.fp := rfl
@[simp] theorem State.pushTx_idx (e : TxEvent) (s : State) : (s.pushTx e).idx = s.idx := rfl
@[simp] theorem State.pushTx_seq (e : TxEvent) (s : State) : (s.pushTx e).seq = s.seq := rfl
@[simp] theorem State.pushTx_seqv (e : TxEvent) (s : State) : (s.pushTx e).seqv = s.seqv := rfl
@[simp] theorem State.pushTx_cmd (e : TxEvent) (s : State) : (s.pushTx e).cmd = s.cmd := rfl
@[simp] theorem State.pushTx_len (e : TxEvent) (s : State) : (s.pushTx e).len = s.len := rfl
@[simp] theorem State.pushTx_csum (e : TxEvent) (s : State) : (s.pushTx e).csum = s.csum := rfl
@[simp] theorem State.pushTx_ret (e : TxEvent) (s : State) : (s.pushTx e).ret = s.ret := rfl
@[simp] theorem State.pushTx_line (e : TxEvent) (s : State) : (s.pushTx e).line = s.line := rfl
@[simp] theorem State.pushTx_tcnt (e : TxEvent) (s : State) : (s.pushTx e).tcnt = s.tcnt := rfl
@[simp] theorem State.pushTx_buf (e : TxEvent) (s : State) : (s.pushTx e).buf = s.buf := rfl
@[simp] theorem State.pushTx_busy (e : TxEvent) (s : State) : (s.pushTx e).busy = s.busy := rfl
@[simp] theorem State.pushTx_sifseq (e : TxEvent) (s : State) : (s.pushTx e).sifseq = s.sifseq := rfl
@[simp] theorem State.pushTx_midx (e : TxEvent) (s : State) : (s.pushTx e).midx = s.midx := rfl
@[simp] theorem State.pushTx_mflags (e : TxEvent) (s : State) : (s.pushTx e).mflags = s.mflags := rfl
@[simp] theorem State.pushTx_moff (e : TxEvent) (s : State) : (s.pushTx e).moff = s.moff := rfl
@[simp] theorem State.pushTx_mclen (e : TxEvent) (s : State) : (s.pushTx e).mclen = s.mclen := rfl
@[simp] theorem State.pushTx_sif (e : TxEvent) (s : State) : (s.pushTx e).sif = s.sif := rfl
@[simp] theorem State.pushTx_entered (e : TxEvent) (s : State) : (s.pushTx e).entered = s.entered := rfl
@[simp] theorem State.pushTx_link (e : TxEvent) (s : State) : (s.pushTx e).link = s.link := rfl
@[simp] theorem State.pushTx_rx (e : TxEvent) (s : State) : (s.pushTx e).rx = s.rx := rfl
@[simp] theorem State.pushTx_txAnswers (e : TxEvent) (s : State) : (s.pushTx e).txAnswers = s.txAnswers := rfl
@[simp] theorem State.pushTx_tx (e : TxEvent) (s : State) : (s.pushTx e).tx = s.tx ++ [e] := rfl
@[simp] theorem State.pushTx_tasks (e : TxEvent) (s : State) : (s.pushTx e).tasks = s.tasks := rfl
@[simp] theorem State.pushTx_store (e : TxEvent) (s : State) : (s.pushTx e).store = s.store := rfl
@[simp] theorem State.pushTx_appState (e : TxEvent) (s : State) : (s.pushTx e).appState = s.appState := rfl
@[simp] theorem State.pushTx_result (e : TxEvent) (s : State) : (s.pushTx e).result = s.result := rfl
@[simp] theorem State.pushTx_inputs (e : TxEvent) (s : State) : (s.pushTx e).inputs = s.inputs := rfl
@[simp] theorem State.pushTx_draws (e : TxEvent) (s : State) : (s.pushTx e).draws = s.draws := rfl

/-! ### State.offer -/

@[simp] theorem State.offer_cfg (bytes : List Byte) (s : State) : (s.offer bytes).cfg = s.cfg := rfl
@[simp] theorem State.offer_fp (bytes : List Byte) (s : State) : (s.offer bytes).fp = s.fp := rfl
@[simp] theorem State.offer_idx (bytes : List Byte) (s : State) : (s.offer bytes).idx = s.idx := rfl
@[simp] theorem State.offer_seq (bytes : List Byte) (s : State) : (s.offer bytes).seq = s.seq := rfl
@[simp] theorem State.offer_seqv (bytes : List Byte) (s : State) : (s.offer bytes).seqv = s.seqv := rfl
@[simp] theorem State.offer_cmd (bytes : List Byte) (s : State) : (s.offer bytes).cmd = s.cmd := rfl
@[simp] theorem State.offer_len (bytes : List Byte) (s : State) : (s.offer bytes).len = s.len := rfl
@[simp] theorem State.offer_csum (bytes : List Byte) (s : State) : (s.offer bytes).csum = s.csum := rfl
@[simp] theorem State.offer_ret (bytes : List Byte) (s : State) : (s.offer bytes).ret = s.ret := rfl
@[simp] theorem State.offer_line (bytes : List Byte) (s : State) : (s.offer bytes).line = s.line := rfl
@[simp] theorem State.offer_tcnt (bytes : List Byte) (s : State) : (s.offer bytes).tcnt = s.tcnt := rfl
@[simp] theorem State.offer_buf (bytes : List Byte) (s : State) : (s.offer bytes).buf = s.buf := rfl
@[simp] theorem State.offer_busy (bytes : List Byte) (s : State) : (s.offer bytes).busy = s.busy := rfl
@[simp] theorem State.offer_sifseq (bytes : List Byte) (s : State) : (s.offer bytes).sifseq = s.sifseq := rfl
@[simp] theorem State.offer_midx (bytes : List Byte) (s : State) : (s.offer bytes).midx = s.midx := rfl
@[simp] theorem State.offer_mflags (bytes : List Byte) (s : State) : (s.offer bytes).mflags = s.mflags := rfl
@[simp] theorem State.offer_moff (bytes : List Byte) (s : State) : (s.offer bytes).moff = s.moff := rfl
@[simp] theorem State.offer_mclen (bytes : List Byte) (s : State) : (s.offer bytes).mclen = s.mclen := rfl
@[simp] theorem State.offer_sif (bytes : List Byte) (s : State) : (s.offer bytes).sif = s.sif := rfl
@[simp] theorem State.offer_entered (bytes : List Byte) (s : State) : (s.offer bytes).entered = s.entered := rfl
@[simp] theorem State.offer_link (bytes : List Byte) (s : State) : (s.offer bytes).link = s.link := rfl
@[simp] theorem State.offer_rx (bytes : List Byte) (s : State) : (s.offer bytes).rx = bytes.map .byte ++ s.rx := rfl
@[simp] theorem State.offer_txAnswers (bytes : List Byte) (s : State) : (s.offer bytes).txAnswers = s.txAnswers := rfl
@[simp] theorem State.offer_tx (bytes : List Byte) (s : State) : (s.offer bytes).tx = s.tx := rfl
@[simp] theorem State.offer_tasks (bytes : List Byte) (s : State) : (s.offer bytes).tasks = s.tasks := rfl
@[simp] theorem State.offer_store (bytes : List Byte) (s : State) : (s.offer bytes).store = s.store := rfl
@[simp] theorem State.offer_appState (bytes : List Byte) (s : State) : (s.offer bytes).appState = s.appState := rfl
@[simp] theorem State.offer_result (bytes : List Byte) (s : State) : (s.offer bytes).result = s.result := rfl
@[simp] theorem State.offer_inputs (bytes : List Byte) (s : State) : (s.offer bytes).inputs = s.inputs := rfl
@[simp] theorem State.offer_draws (bytes : List Byte) (s : State) : (s.offer bytes).draws = s.draws := rfl

/-! ### State.loadPayload -/

@[simp] theorem State.loadPayload_cfg (payload : List Byte) (s : State) : (s.loadPayload payload).cfg = s.cfg := rfl
@[simp] theorem State.loadPayload_fp (payload : List Byte) (s : State) : (s.loadPayload payload).fp = s.fp := rfl
@[simp] theorem State.loadPayload_idx (payload : List Byte) (s : State) : (s.loadPayload payload).idx = s.idx := rfl
@[simp] theorem State.loadPayload_seq (payload : List Byte) (s : State) : (s.loadPayload payload).seq = s.seq := rfl
@[simp] theorem State.loadPayload_seqv (payload : List Byte) (s : State) : (s.loadPayload payload).seqv = s.seqv := rfl
@[simp] theorem State.loadPayload_cmd (payload : List Byte) (s : State) : (s.loadPayload payload).cmd = s.cmd := rfl
@[simp] theorem State.loadPayload_len (payload : List Byte) (s : State) : (s.loadPayload payload).len = lengthByte payload := rfl
@[simp] theorem State.loadPayload_csum (payload : List Byte) (s : State) : (s.loadPayload payload).csum = s.csum := rfl
@[simp] theorem State.loadPayload_ret (payload : List Byte) (s : State) : (s.loadPayload payload).ret = s.ret := rfl
@[simp] theorem State.loadPayload_line (payload : List Byte) (s : State) : (s.loadPayload payload).line = s.line := rfl
@[simp] theorem State.loadPayload_tcnt (payload : List Byte) (s : State) : (s.loadPayload payload).tcnt = s.tcnt := rfl
@[simp] theorem State.loadPayload_buf (payload : List Byte) (s : State) : (s.loadPayload payload).buf = s.buf.writeAll 0 payload := rfl
@[simp] theorem State.loadPayload_busy (payload : List Byte) (s : State) : (s.loadPayload payload).busy = s.busy := rfl
@[simp] theorem State.loadPayload_sifseq (payload : List Byte) (s : State) : (s.loadPayload payload).sifseq = s.sifseq := rfl
@[simp] theorem State.loadPayload_midx (payload : List Byte) (s : State) : (s.loadPayload payload).midx = s.midx := rfl
@[simp] theorem State.loadPayload_mflags (payload : List Byte) (s : State) : (s.loadPayload payload).mflags = s.mflags := rfl
@[simp] theorem State.loadPayload_moff (payload : List Byte) (s : State) : (s.loadPayload payload).moff = s.moff := rfl
@[simp] theorem State.loadPayload_mclen (payload : List Byte) (s : State) : (s.loadPayload payload).mclen = s.mclen := rfl
@[simp] theorem State.loadPayload_sif (payload : List Byte) (s : State) : (s.loadPayload payload).sif = s.sif := rfl
@[simp] theorem State.loadPayload_entered (payload : List Byte) (s : State) : (s.loadPayload payload).entered = s.entered := rfl
@[simp] theorem State.loadPayload_link (payload : List Byte) (s : State) : (s.loadPayload payload).link = s.link := rfl
@[simp] theorem State.loadPayload_rx (payload : List Byte) (s : State) : (s.loadPayload payload).rx = s.rx := rfl
@[simp] theorem State.loadPayload_txAnswers (payload : List Byte) (s : State) : (s.loadPayload payload).txAnswers = s.txAnswers := rfl
@[simp] theorem State.loadPayload_tx (payload : List Byte) (s : State) : (s.loadPayload payload).tx = s.tx := rfl
@[simp] theorem State.loadPayload_tasks (payload : List Byte) (s : State) : (s.loadPayload payload).tasks = s.tasks := rfl
@[simp] theorem State.loadPayload_store (payload : List Byte) (s : State) : (s.loadPayload payload).store = s.store := rfl
@[simp] theorem State.loadPayload_appState (payload : List Byte) (s : State) : (s.loadPayload payload).appState = s.appState := rfl
@[simp] theorem State.loadPayload_result (payload : List Byte) (s : State) : (s.loadPayload payload).result = s.result := rfl
@[simp] theorem State.loadPayload_inputs (payload : List Byte) (s : State) : (s.loadPayload payload).inputs = s.inputs := rfl
@[simp] theorem State.loadPayload_draws (payload : List Byte) (s : State) : (s.loadPayload payload).draws = s.draws := rfl

/-! ### transportTask -/

@[simp] theorem transportTask_cfg (s : State) : (transportTask s).cfg = s.cfg := rfl
@[simp] theorem transportTask_fp (s : State) : (transportTask s).fp = s.fp := rfl
@[simp] theorem transportTask_idx (s : State) : (transportTask s).idx = s.idx := rfl
@[simp] theorem transportTask_seq (s : State) : (transportTask s).seq = s.seq := rfl
@[simp] theorem transportTask_seqv (s : State) : (transportTask s).seqv = s.seqv := rfl
@[simp] theorem transportTask_cmd (s : State) : (transportTask s).cmd = s.cmd := rfl
@[simp] theorem transportTask_len (s : State) : (transportTask s).len = s.len := rfl
@[simp] theorem transportTask_csum (s : State) : (transportTask s).csum = s.csum := rfl
@[simp] theorem transportTask_ret (s : State) : (transportTask s).ret = s.ret := rfl
@[simp] theorem transportTask_line (s : State) : (transportTask s).line = s.line := rfl
@[simp] theorem transportTask_tcnt (s : State) : (transportTask s).tcnt = s.tcnt := rfl
@[simp] theorem transportTask_buf (s : State) : (transportTask s).buf = s.buf := rfl
@[simp] theorem transportTask_busy (s : State) : (transportTask s).busy = s.busy := rfl
@[simp] theorem transportTask_sifseq (s : State) : (transportTask s).sifseq = s.sifseq := rfl
@[simp] theorem transportTask_midx (s : State) : (transportTask s).midx = s.midx := rfl
@[simp] theorem transportTask_mflags (s : State) : (transportTask s).mflags = s.mflags := rfl
@[simp] theorem transportTask_moff (s : State) : (transportTask s).moff = s.moff := rfl
@[simp] theorem transportTask_mclen (s : State) : (transportTask s).mclen = s.mclen := rfl
@[simp] theorem transportTask_sif (s : State) : (transportTask s).sif = s.sif := rfl
@[simp] theorem transportTask_entered (s : State) : (transportTask s).entered = s.entered := rfl
@[simp] theorem transportTask_link (s : State) : (transportTask s).link = s.link := rfl
@[simp] theorem transportTask_rx (s : State) : (transportTask s).rx = afterTask s.rx := rfl
@[simp] theorem transportTask_txAnswers (s : State) : (transportTask s).txAnswers = s.txAnswers := rfl
@[simp] theorem transportTask_tx (s : State) : (transportTask s).tx = s.tx := rfl
@[simp] theorem transportTask_tasks (s : State) : (transportTask s).tasks = s.tasks + 1 := rfl
@[simp] theorem transportTask_store (s : State) : (transportTask s).store = s.store := rfl
@[simp] theorem transportTask_appState (s : State) : (transportTask s).appState = s.appState := rfl
@[simp] theorem transportTask_result (s : State) : (transportTask s).result = s.result := rfl
@[simp] theorem transportTask_inputs (s : State) : (transportTask s).inputs = s.inputs := rfl
@[simp] theorem transportTask_draws (s : State) : (transportTask s).draws = s.draws := rfl

/-! ### transportFlush -/

@[simp] theorem transportFlush_cfg (s : State) : (transportFlush s).cfg = s.cfg := rfl
@[simp] theorem transportFlush_fp (s : State) : (transportFlush s).fp = s.fp := rfl
@[simp] theorem transportFlush_idx (s : State) : (transportFlush s).idx = s.idx := rfl
@[simp] theorem transportFlush_seq (s : State) : (transportFlush s).seq = s.seq := rfl
@[simp] theorem transportFlush_seqv (s : State) : (transportFlush s).seqv = s.seqv := rfl
@[simp] theorem transportFlush_cmd (s : State) : (transportFlush s).cmd = s.cmd := rfl
@[simp] theorem transportFlush_len (s : State) : (transportFlush s).len = s.len := rfl
@[simp] theorem transportFlush_csum (s : State) : (transportFlush s).csum = s.csum := rfl
@[simp] theorem transportFlush_ret (s : State) : (transportFlush s).ret = s.ret := rfl
@[simp] theorem transportFlush_line (s : State) : (transportFlush s).line = s.line := rfl
@[simp] theorem transportFlush_tcnt (s : State) : (transportFlush s).tcnt = s.tcnt := rfl
@[simp] theorem transportFlush_buf (s : State) : (transportFlush s).buf = s.buf := rfl
@[simp] theorem transportFlush_busy (s : State) : (transportFlush s).busy = s.busy := rfl
@[simp] theorem transportFlush_sifseq (s : State) : (transportFlush s).sifseq = s.sifseq := rfl
@[simp] theorem transportFlush_midx (s : State) : (transportFlush s).midx = s.midx := rfl
@[simp] theorem transportFlush_mflags (s : State) : (transportFlush s).mflags = s.mflags := rfl
@[simp] theorem transportFlush_moff (s : State) : (transportFlush s).moff = s.moff := rfl
@[simp] theorem transportFlush_mclen (s : State) : (transportFlush s).mclen = s.mclen := rfl
@[simp] theorem transportFlush_sif (s : State) : (transportFlush s).sif = s.sif := rfl
@[simp] theorem transportFlush_entered (s : State) : (transportFlush s).entered = s.entered := rfl
@[simp] theorem transportFlush_link (s : State) : (transportFlush s).link = s.link := rfl
@[simp] theorem transportFlush_rx (s : State) : (transportFlush s).rx = s.rx := rfl
@[simp] theorem transportFlush_txAnswers (s : State) : (transportFlush s).txAnswers = s.txAnswers := rfl
@[simp] theorem transportFlush_tx (s : State) : (transportFlush s).tx = s.tx ++ [.flush] := rfl
@[simp] theorem transportFlush_tasks (s : State) : (transportFlush s).tasks = s.tasks := rfl
@[simp] theorem transportFlush_store (s : State) : (transportFlush s).store = s.store := rfl
@[simp] theorem transportFlush_appState (s : State) : (transportFlush s).appState = s.appState := rfl
@[simp] theorem transportFlush_result (s : State) : (transportFlush s).result = s.result := rfl
@[simp] theorem transportFlush_inputs (s : State) : (transportFlush s).inputs = s.inputs := rfl
@[simp] theorem transportFlush_draws (s : State) : (transportFlush s).draws = s.draws := rfl

/-! ### rel -/

@[simp] theorem rel_cfg (s : State) : (rel s).cfg = s.cfg := rfl
@[simp] theorem rel_fp (s : State) : (rel s).fp = s.fp := rfl
@[simp] theorem rel_idx (s : State) : (rel s).idx = s.idx := rfl
@[simp] theorem rel_seq (s : State) : (rel s).seq = s.seq := rfl
@[simp] theorem rel_seqv (s : State) : (rel s).seqv = s.seqv := rfl
@[simp] theorem rel_cmd (s : State) : (rel s).cmd = s.cmd := rfl
@[simp] theorem rel_len (s : State) : (rel s).len = s.len := rfl
@[simp] theorem rel_csum (s : State) : (rel s).csum = s.csum := rfl
@[simp] theorem rel_ret (s : State) : (rel s).ret = s.ret := rfl
@[simp] theorem rel_line (s : State) : (rel s).line = s.line := rfl
@[simp] theorem rel_tcnt (s : State) : (rel s).tcnt = s.tcnt := rfl
@[simp] theorem rel_buf (s : State) : (rel s).buf = s.buf := rfl
@[simp] theorem rel_busy (s : State) : (rel s).busy = false := rfl
@[simp] theorem rel_sifseq (s : State) : (rel s).sifseq = s.sifseq := rfl
@[simp] theorem rel_midx (s : State) : (rel s).midx = s.midx := rfl
@[simp] theorem rel_mflags (s : State) : (rel s).mflags = s.mflags := rfl
@[simp] theorem rel_moff (s : State) : (rel s).moff = s.moff := rfl
@[simp] theorem rel_mclen (s : State) : (rel s).mclen = s.mclen := rfl
@[simp] theorem rel_sif (s : State) : (rel s).sif = s.sif := rfl
@[simp] theorem rel_entered (s : State) : (rel s).entered = s.entered := rfl
@[simp] theorem rel_link (s : State) : (rel s).link = s.link := rfl
@[simp] theorem rel_rx (s : State) : (rel s).rx = s.rx := rfl
@[simp] theorem rel_txAnswers (s : State) : (rel s).txAnswers = s.txAnswers := rfl
@[simp] theorem rel_tx (s : State) : (rel s).tx = s.tx := rfl
@[simp] theorem rel_tasks (s : State) : (rel s).tasks = s.tasks := rfl
@[simp] theorem rel_store (s : State) : (rel s).store = s.store := rfl
@[simp] theorem rel_appState (s : State) : (rel s).appState = s.appState := rfl
@[simp] theorem rel_result (s : State) : (rel s).result = s.result := rfl
@[simp] theorem rel_inputs (s : State) : (rel s).inputs = s.inputs := rfl
@[simp] theorem rel_draws (s : State) : (rel s).draws = s.draws := rfl

/-! ### endPoll -/

@[simp] theorem endPoll_cfg (st : PollStatus) (s : State) : (endPoll st s).cfg = s.cfg := rfl
@[simp] theorem endPoll_fp (st : PollStatus) (s : State) : (endPoll st s).fp = .idle := rfl
@[simp] theorem endPoll_idx (st : PollStatus) (s : State) : (endPoll st s).idx = s.idx := rfl
@[simp] theorem endPoll_seq (st : PollStatus) (s : State) : (endPoll st s).seq = s.seq := rfl
@[simp] theorem endPoll_seqv (st : PollStatus) (s : State) : (endPoll st s).seqv = s.seqv := rfl
@[simp] theorem endPoll_cmd (st : PollStatus) (s : State) : (endPoll st s).cmd = s.cmd := rfl
@[simp] theorem endPoll_len (st : PollStatus) (s : State) : (endPoll st s).len = s.len := rfl
@[simp] theorem endPoll_csum (st : PollStatus) (s : State) : (endPoll st s).csum = s.csum := rfl
@[simp] theorem endPoll_ret (st : PollStatus) (s : State) : (endPoll st s).ret = s.ret := rfl
@[simp] theorem endPoll_line (st : PollStatus) (s : State) : (endPoll st s).line = s.line := rfl
@[simp] theorem endPoll_tcnt (st : PollStatus) (s : State) : (endPoll st s).tcnt = s.tcnt := rfl
@[simp] theorem endPoll_buf (st : PollStatus) (s : State) : (endPoll st s).buf = s.buf := rfl
@[simp] theorem endPoll_busy (st : PollStatus) (s : State) : (endPoll st s).busy = false := rfl
@[simp] theorem endPoll_sifseq (st : PollStatus) (s : State) : (endPoll st s).sifseq = s.sifseq := rfl
@[simp] theorem endPoll_midx (st : PollStatus) (s : State) : (endPoll st s).midx = s.midx := rfl
@[simp] theorem endPoll_mflags (st : PollStatus) (s : State) : (endPoll st s).mflags = s.mflags := rfl
@[simp] theorem endPoll_moff (st : PollStatus) (s : State) : (endPoll st s).moff = s.moff := rfl
@[simp] theorem endPoll_mclen (st : PollStatus) (s : State) : (endPoll st s).mclen = s.mclen := rfl
@[simp] theorem endPoll_sif (st : PollStatus) (s : State) : (endPoll st s).sif = s.sif := rfl
@[simp] theorem endPoll_entered (st : PollStatus) (s : State) : (endPoll st s).entered = false := rfl
@[simp] theorem endPoll_link (st : PollStatus) (s : State) : (endPoll st s).link = s.link := rfl
@[simp] theorem endPoll_rx (st : PollStatus) (s : State) : (endPoll st s).rx = s.rx := rfl
@[simp] theorem endPoll_txAnswers (st : PollStatus) (s : State) : (endPoll st s).txAnswers = s.txAnswers := rfl
@[simp] theorem endPoll_tx (st : PollStatus) (s : State) : (endPoll st s).tx = s.tx := rfl
@[simp] theorem endPoll_tasks (st : PollStatus) (s : State) : (endPoll st s).tasks = s.tasks := rfl
@[simp] theorem endPoll_store (st : PollStatus) (s : State) : (endPoll st s).store = s.store := rfl
@[simp] theorem endPoll_appState (st : PollStatus) (s : State) : (endPoll st s).appState = s.appState := rfl
@[simp] theorem endPoll_result (st : PollStatus) (s : State) : (endPoll st s).result = .poll st := rfl
@[simp] theorem endPoll_inputs (st : PollStatus) (s : State) : (endPoll st s).inputs = s.inputs := rfl
@[simp] theorem endPoll_draws (st : PollStatus) (s : State) : (endPoll st s).draws = s.draws := rfl

/-! ### silentAbort -/

@[simp] theorem silentAbort_cfg (s : State) : (silentAbort s).cfg = s.cfg := rfl
@[simp] theorem silentAbort_fp (s : State) : (silentAbort s).fp = .idle := rfl
@[simp] theorem silentAbort_idx (s : State) : (silentAbort s).idx = s.idx := rfl
@[simp] theorem silentAbort_seq (s : State) : (silentAbort s).seq = s.seq := rfl
@[simp] theorem silentAbort_seqv (s : State) : (silentAbort s).seqv = s.seqv := rfl
@[simp] theorem silentAbort_cmd (s : State) : (silentAbort s).cmd = s.cmd := rfl
@[simp] theorem silentAbort_len (s : State) : (silentAbort s).len = s.len := rfl
@[simp] theorem silentAbort_csum (s : State) : (silentAbort s).csum = s.csum := rfl
@[simp] theorem silentAbort_ret (s : State) : (silentAbort s).ret = s.ret := rfl
@[simp] theorem silentAbort_line (s : State) : (silentAbort s).line = s.line := rfl
@[simp] theorem silentAbort_tcnt (s : State) : (silentAbort s).tcnt = s.tcnt := rfl
@[simp] theorem silentAbort_buf (s : State) : (silentAbort s).buf = s.buf := rfl
@[simp] theorem silentAbort_busy (s : State) : (silentAbort s).busy = false := rfl
@[simp] theorem silentAbort_sifseq (s : State) : (silentAbort s).sifseq = s.sifseq := rfl
@[simp] theorem silentAbort_midx (s : State) : (silentAbort s).midx = s.midx := rfl
@[simp] theorem silentAbort_mflags (s : State) : (silentAbort s).mflags = s.mflags := rfl
@[simp] theorem silentAbort_moff (s : State) : (silentAbort s).moff = s.moff := rfl
@[simp] theorem silentAbort_mclen (s : State) : (silentAbort s).mclen = s.mclen := rfl
@[simp] theorem silentAbort_sif (s : State) : (silentAbort s).sif = s.sif := rfl
@[simp] theorem silentAbort_entered (s : State) : (silentAbort s).entered = false := rfl
@[simp] theorem silentAbort_link (s : State) : (silentAbort s).link = s.link := rfl
@[simp] theorem silentAbort_rx (s : State) : (silentAbort s).rx = s.rx := rfl
@[simp] theorem silentAbort_txAnswers (s : State) : (silentAbort s).txAnswers = s.txAnswers := rfl
@[simp] theorem silentAbort_tx (s : State) : (silentAbort s).tx = s.tx := rfl
@[simp] theorem silentAbort_tasks (s : State) : (silentAbort s).tasks = s.tasks := rfl
@[simp] theorem silentAbort_store (s : State) : (silentAbort s).store = s.store := rfl
@[simp] theorem silentAbort_appState (s : State) : (silentAbort s).appState = s.appState := rfl
@[simp] theorem silentAbort_result (s : State) : (silentAbort s).result = .poll .silentAbort := rfl
@[simp] theorem silentAbort_inputs (s : State) : (silentAbort s).inputs = s.inputs := rfl
@[simp] theorem silentAbort_draws (s : State) : (silentAbort s).draws = s.draws := rfl

/-! ### State.enter -/

@[simp] theorem State.enter_cfg (s : State) : (s.enter).cfg = s.cfg := rfl
@[simp] theorem State.enter_fp (s : State) : (s.enter).fp = s.fp := rfl
@[simp] theorem State.enter_idx (s : State) : (s.enter).idx = s.idx := rfl
@[simp] theorem State.enter_seq (s : State) : (s.enter).seq = s.seq := rfl
@[simp] theorem State.enter_seqv (s : State) : (s.enter).seqv = false := rfl
@[simp] theorem State.enter_cmd (s : State) : (s.enter).cmd = s.cmd := rfl
@[simp] theorem State.enter_len (s : State) : (s.enter).len = s.len := rfl
@[simp] theorem State.enter_csum (s : State) : (s.enter).csum = s.csum := rfl
@[simp] theorem State.enter_ret (s : State) : (s.enter).ret = s.ret := rfl
@[simp] theorem State.enter_line (s : State) : (s.enter).line = s.line := rfl
@[simp] theorem State.enter_tcnt (s : State) : (s.enter).tcnt = s.tcnt := rfl
@[simp] theorem State.enter_buf (s : State) : (s.enter).buf = s.buf := rfl
@[simp] theorem State.enter_busy (s : State) : (s.enter).busy = true := rfl
@[simp] theorem State.enter_sifseq (s : State) : (s.enter).sifseq = s.sifseq := rfl
@[simp] theorem State.enter_midx (s : State) : (s.enter).midx = s.midx := rfl
@[simp] theorem State.enter_mflags (s : State) : (s.enter).mflags = s.mflags := rfl
@[simp] theorem State.enter_moff (s : State) : (s.enter).moff = s.moff := rfl
@[simp] theorem State.enter_mclen (s : State) : (s.enter).mclen = s.mclen := rfl
@[simp] theorem State.enter_sif (s : State) : (s.enter).sif = s.sif := rfl
@[simp] theorem State.enter_entered (s : State) : (s.enter).entered = true := rfl
@[simp] theorem State.enter_link (s : State) : (s.enter).link = s.link := rfl
@[simp] theorem State.enter_rx (s : State) : (s.enter).rx = s.rx := rfl
@[simp] theorem State.enter_txAnswers (s : State) : (s.enter).txAnswers = s.txAnswers := rfl
@[simp] theorem State.enter_tx (s : State) : (s.enter).tx = s.tx := rfl
@[simp] theorem State.enter_tasks (s : State) : (s.enter).tasks = s.tasks := rfl
@[simp] theorem State.enter_store (s : State) : (s.enter).store = s.store := rfl
@[simp] theorem State.enter_appState (s : State) : (s.enter).appState = s.appState := rfl
@[simp] theorem State.enter_result (s : State) : (s.enter).result = s.result := rfl
@[simp] theorem State.enter_inputs (s : State) : (s.enter).inputs = s.inputs := rfl
@[simp] theorem State.enter_draws (s : State) : (s.enter).draws = s.draws := rfl

/-! ### beginFrame -/

@[simp] theorem beginFrame_cfg (s : State) : (beginFrame s).cfg = s.cfg := rfl
@[simp] theorem beginFrame_fp (s : State) : (beginFrame s).fp = .readSeq := rfl
@[simp] theorem beginFrame_idx (s : State) : (beginFrame s).idx = s.idx := rfl
@[simp] theorem beginFrame_seq (s : State) : (beginFrame s).seq = s.seq := rfl
@[simp] theorem beginFrame_seqv (s : State) : (beginFrame s).seqv = s.seqv := rfl
@[simp] theorem beginFrame_cmd (s : State) : (beginFrame s).cmd = s.cmd := rfl
@[simp] theorem beginFrame_len (s : State) : (beginFrame s).len = s.len := rfl
@[simp] theorem beginFrame_csum (s : State) : (beginFrame s).csum = s.csum := rfl
@[simp] theorem beginFrame_ret (s : State) : (beginFrame s).ret = s.ret := rfl
@[simp] theorem beginFrame_line (s : State) : (beginFrame s).line = s.line := rfl
@[simp] theorem beginFrame_tcnt (s : State) : (beginFrame s).tcnt = s.tcnt := rfl
@[simp] theorem beginFrame_buf (s : State) : (beginFrame s).buf = s.buf := rfl
@[simp] theorem beginFrame_busy (s : State) : (beginFrame s).busy = s.busy := rfl
@[simp] theorem beginFrame_sifseq (s : State) : (beginFrame s).sifseq = s.sifseq := rfl
@[simp] theorem beginFrame_midx (s : State) : (beginFrame s).midx = s.midx := rfl
@[simp] theorem beginFrame_mflags (s : State) : (beginFrame s).mflags = s.mflags := rfl
@[simp] theorem beginFrame_moff (s : State) : (beginFrame s).moff = s.moff := rfl
@[simp] theorem beginFrame_mclen (s : State) : (beginFrame s).mclen = s.mclen := rfl
@[simp] theorem beginFrame_sif (s : State) : (beginFrame s).sif = s.sif := rfl
@[simp] theorem beginFrame_entered (s : State) : (beginFrame s).entered = false := rfl
@[simp] theorem beginFrame_link (s : State) : (beginFrame s).link = s.link := rfl
@[simp] theorem beginFrame_rx (s : State) : (beginFrame s).rx = s.rx := rfl
@[simp] theorem beginFrame_txAnswers (s : State) : (beginFrame s).txAnswers = s.txAnswers := rfl
@[simp] theorem beginFrame_tx (s : State) : (beginFrame s).tx = s.tx := rfl
@[simp] theorem beginFrame_tasks (s : State) : (beginFrame s).tasks = s.tasks := rfl
@[simp] theorem beginFrame_store (s : State) : (beginFrame s).store = s.store := rfl
@[simp] theorem beginFrame_appState (s : State) : (beginFrame s).appState = s.appState := rfl
@[simp] theorem beginFrame_result (s : State) : (beginFrame s).result = s.result := rfl
@[simp] theorem beginFrame_inputs (s : State) : (beginFrame s).inputs = s.inputs := rfl
@[simp] theorem beginFrame_draws (s : State) : (beginFrame s).draws = s.draws := rfl

/-! ### State.loadError -/

@[simp] theorem State.loadError_cfg (line : Half) (code : Byte) (s : State) : (s.loadError line code).cfg = s.cfg := rfl
@[simp] theorem State.loadError_fp (line : Half) (code : Byte) (s : State) : (s.loadError line code).fp = s.fp := rfl
@[simp] theorem State.loadError_idx (line : Half) (code : Byte) (s : State) : (s.loadError line code).idx = s.idx := rfl
@[simp] theorem State.loadError_seq (line : Half) (code : Byte) (s : State) : (s.loadError line code).seq = s.seq := rfl
@[simp] theorem State.loadError_seqv (line : Half) (code : Byte) (s : State) : (s.loadError line code).seqv = s.seqv := rfl
@[simp] theorem State.loadError_cmd (line : Half) (code : Byte) (s : State) : (s.loadError line code).cmd = s.cmd := rfl
@[simp] theorem State.loadError_len (line : Half) (code : Byte) (s : State) : (s.loadError line code).len = s.len := rfl
@[simp] theorem State.loadError_csum (line : Half) (code : Byte) (s : State) : (s.loadError line code).csum = s.csum := rfl
@[simp] theorem State.loadError_ret (line : Half) (code : Byte) (s : State) : (s.loadError line code).ret = code := rfl
@[simp] theorem State.loadError_line (line : Half) (code : Byte) (s : State) : (s.loadError line code).line = line := rfl
@[simp] theorem State.loadError_tcnt (line : Half) (code : Byte) (s : State) : (s.loadError line code).tcnt = s.tcnt := rfl
@[simp] theorem State.loadError_buf (line : Half) (code : Byte) (s : State) : (s.loadError line code).buf = s.buf := rfl
@[simp] theorem State.loadError_busy (line : Half) (code : Byte) (s : State) : (s.loadError line code).busy = s.busy := rfl
@[simp] theorem State.loadError_sifseq (line : Half) (code : Byte) (s : State) : (s.loadError line code).sifseq = s.sifseq := rfl
@[simp] theorem State.loadError_midx (line : Half) (code : Byte) (s : State) : (s.loadError line code).midx = s.midx := rfl
@[simp] theorem State.loadError_mflags (line : Half) (code : Byte) (s : State) : (s.loadError line code).mflags = s.mflags := rfl
@[simp] theorem State.loadError_moff (line : Half) (code : Byte) (s : State) : (s.loadError line code).moff = s.moff := rfl
@[simp] theorem State.loadError_mclen (line : Half) (code : Byte) (s : State) : (s.loadError line code).mclen = s.mclen := rfl
@[simp] theorem State.loadError_sif (line : Half) (code : Byte) (s : State) : (s.loadError line code).sif = s.sif := rfl
@[simp] theorem State.loadError_entered (line : Half) (code : Byte) (s : State) : (s.loadError line code).entered = s.entered := rfl
@[simp] theorem State.loadError_link (line : Half) (code : Byte) (s : State) : (s.loadError line code).link = s.link := rfl
@[simp] theorem State.loadError_rx (line : Half) (code : Byte) (s : State) : (s.loadError line code).rx = s.rx := rfl
@[simp] theorem State.loadError_txAnswers (line : Half) (code : Byte) (s : State) : (s.loadError line code).txAnswers = s.txAnswers := rfl
@[simp] theorem State.loadError_tx (line : Half) (code : Byte) (s : State) : (s.loadError line code).tx = s.tx := rfl
@[simp] theorem State.loadError_tasks (line : Half) (code : Byte) (s : State) : (s.loadError line code).tasks = s.tasks := rfl
@[simp] theorem State.loadError_store (line : Half) (code : Byte) (s : State) : (s.loadError line code).store = s.store := rfl
@[simp] theorem State.loadError_appState (line : Half) (code : Byte) (s : State) : (s.loadError line code).appState = s.appState := rfl
@[simp] theorem State.loadError_result (line : Half) (code : Byte) (s : State) : (s.loadError line code).result = s.result := rfl
@[simp] theorem State.loadError_inputs (line : Half) (code : Byte) (s : State) : (s.loadError line code).inputs = s.inputs := rfl
@[simp] theorem State.loadError_draws (line : Half) (code : Byte) (s : State) : (s.loadError line code).draws = s.draws := rfl

/-! ### sifTake -/

@[simp] theorem sifTake_cfg (x : Byte) (data : List Byte) (s : State) : (sifTake x data s).cfg = s.cfg := rfl
@[simp] theorem sifTake_fp (x : Byte) (data : List Byte) (s : State) : (sifTake x data s).fp = s.fp := rfl
@[simp] theorem sifTake_idx (x : Byte) (data : List Byte) (s : State) : (sifTake x data s).idx = s.idx := rfl
@[simp] theorem sifTake_seq (x : Byte) (data : List Byte) (s : State) : (sifTake x data s).seq = s.seq := rfl
@[simp] theorem sifTake_seqv (x : Byte) (data : List Byte) (s : State) : (sifTake x data s).seqv = s.seqv := rfl
@[simp] theorem sifTake_cmd (x : Byte) (data : List Byte) (s : State) : (sifTake x data s).cmd = s.cmd := rfl
@[simp] theorem sifTake_len (x : Byte) (data : List Byte) (s : State) : (sifTake x data s).len = s.len := rfl
@[simp] theorem sifTake_csum (x : Byte) (data : List Byte) (s : State) : (sifTake x data s).csum = s.csum := rfl
@[simp] theorem sifTake_ret (x : Byte) (data : List Byte) (s : State) : (sifTake x data s).ret = s.ret := rfl
@[simp] theorem sifTake_line (x : Byte) (data : List Byte) (s : State) : (sifTake x data s).line = s.line := rfl
@[simp] theorem sifTake_tcnt (x : Byte) (data : List Byte) (s : State) : (sifTake x data s).tcnt = s.tcnt := rfl
@[simp] theorem sifTake_buf (x : Byte) (data : List Byte) (s : State) : (sifTake x data s).buf = s.buf := rfl
@[simp] theorem sifTake_busy (x : Byte) (data : List Byte) (s : State) : (sifTake x data s).busy = true := rfl
@[simp] theorem sifTake_sifseq (x : Byte) (data : List Byte) (s : State) : (sifTake x data s).sifseq = s.sifseq + 1 := rfl
@[simp] theorem sifTake_midx (x : Byte) (data : List Byte) (s : State) : (sifTake x data s).midx = s.midx := rfl
@[simp] theorem sifTake_mflags (x : Byte) (data : List Byte) (s : State) : (sifTake x data s).mflags = s.mflags := rfl
@[simp] theorem sifTake_moff (x : Byte) (data : List Byte) (s : State) : (sifTake x data s).moff = s.moff := rfl
@[simp] theorem sifTake_mclen (x : Byte) (data : List Byte) (s : State) : (sifTake x data s).mclen = s.mclen := rfl
@[simp] theorem sifTake_sif (x : Byte) (data : List Byte) (s : State) : (sifTake x data s).sif = some { seq := s.sifseq, cmd := x, data := data } := rfl
@[simp] theorem sifTake_entered (x : Byte) (data : List Byte) (s : State) : (sifTake x data s).entered = s.entered := rfl
@[simp] theorem sifTake_link (x : Byte) (data : List Byte) (s : State) : (sifTake x data s).link = s.link := rfl
@[simp] theorem sifTake_rx (x : Byte) (data : List Byte) (s : State) : (sifTake x data s).rx = s.rx := rfl
@[simp] theorem sifTake_txAnswers (x : Byte) (data : List Byte) (s : State) : (sifTake x data s).txAnswers = s.txAnswers := rfl
@[simp] theorem sifTake_tx (x : Byte) (data : List Byte) (s : State) : (sifTake x data s).tx = s.tx := rfl
@[simp] theorem sifTake_tasks (x : Byte) (data : List Byte) (s : State) : (sifTake x data s).tasks = s.tasks := rfl
@[simp] theorem sifTake_store (x : Byte) (data : List Byte) (s : State) : (sifTake x data s).store = s.store := rfl
@[simp] theorem sifTake_appState (x : Byte) (data : List Byte) (s : State) : (sifTake x data s).appState = s.appState := rfl
@[simp] theorem sifTake_result (x : Byte) (data : List Byte) (s : State) : (sifTake x data s).result = s.result := rfl
@[simp] theorem sifTake_inputs (x : Byte) (data : List Byte) (s : State) : (sifTake x data s).inputs = s.inputs := rfl
@[simp] theorem sifTake_draws (x : Byte) (data : List Byte) (s : State) : (sifTake x data s).draws = s.draws := rfl

/-! ### endSif -/

@[simp] theorem endSif_cfg (r : SendResult) (s : State) : (endSif r s).cfg = s.cfg := rfl
@[simp] theorem endSif_fp (r : SendResult) (s : State) : (endSif r s).fp = s.fp := rfl
@[simp] theorem endSif_idx (r : SendResult) (s : State) : (endSif r s).idx = s.idx := rfl
@[simp] theorem endSif_seq (r : SendResult) (s : State) : (endSif r s).seq = s.seq := rfl
@[simp] theorem endSif_seqv (r : SendResult) (s : State) : (endSif r s).seqv = s.seqv := rfl
@[simp] theorem endSif_cmd (r : SendResult) (s : State) : (endSif r s).cmd = s.cmd := rfl
@[simp] theorem endSif_len (r : SendResult) (s : State) : (endSif r s).len = s.len := rfl
@[simp] theorem endSif_csum (r : SendResult) (s : State) : (endSif r s).csum = s.csum := rfl
@[simp] theorem endSif_ret (r : SendResult) (s : State) : (endSif r s).ret = s.ret := rfl
@[simp] theorem endSif_line (r : SendResult) (s : State) : (endSif r s).line = s.line := rfl
@[simp] theorem endSif_tcnt (r : SendResult) (s : State) : (endSif r s).tcnt = s.tcnt := rfl
@[simp] theorem endSif_buf (r : SendResult) (s : State) : (endSif r s).buf = s.buf := rfl
@[simp] theorem endSif_busy (r : SendResult) (s : State) : (endSif r s).busy = false := rfl
@[simp] theorem endSif_sifseq (r : SendResult) (s : State) : (endSif r s).sifseq = s.sifseq := rfl
@[simp] theorem endSif_midx (r : SendResult) (s : State) : (endSif r s).midx = s.midx := rfl
@[simp] theorem endSif_mflags (r : SendResult) (s : State) : (endSif r s).mflags = s.mflags := rfl
@[simp] theorem endSif_moff (r : SendResult) (s : State) : (endSif r s).moff = s.moff := rfl
@[simp] theorem endSif_mclen (r : SendResult) (s : State) : (endSif r s).mclen = s.mclen := rfl
@[simp] theorem endSif_sif (r : SendResult) (s : State) : (endSif r s).sif = none := rfl
@[simp] theorem endSif_entered (r : SendResult) (s : State) : (endSif r s).entered = s.entered := rfl
@[simp] theorem endSif_link (r : SendResult) (s : State) : (endSif r s).link = s.link := rfl
@[simp] theorem endSif_rx (r : SendResult) (s : State) : (endSif r s).rx = s.rx := rfl
@[simp] theorem endSif_txAnswers (r : SendResult) (s : State) : (endSif r s).txAnswers = s.txAnswers := rfl
@[simp] theorem endSif_tx (r : SendResult) (s : State) : (endSif r s).tx = s.tx := rfl
@[simp] theorem endSif_tasks (r : SendResult) (s : State) : (endSif r s).tasks = s.tasks := rfl
@[simp] theorem endSif_store (r : SendResult) (s : State) : (endSif r s).store = s.store := rfl
@[simp] theorem endSif_appState (r : SendResult) (s : State) : (endSif r s).appState = s.appState := rfl
@[simp] theorem endSif_result (r : SendResult) (s : State) : (endSif r s).result = .send r := rfl
@[simp] theorem endSif_inputs (r : SendResult) (s : State) : (endSif r s).inputs = s.inputs := rfl
@[simp] theorem endSif_draws (r : SendResult) (s : State) : (endSif r s).draws = s.draws := rfl

/-! ### captureSeq -/

@[simp] theorem captureSeq_cfg (v : Byte) (s : State) : (captureSeq v s).cfg = s.cfg := rfl
@[simp] theorem captureSeq_fp (v : Byte) (s : State) : (captureSeq v s).fp = .readCmdOffset := rfl
@[simp] theorem captureSeq_idx (v : Byte) (s : State) : (captureSeq v s).idx = s.idx := rfl
@[simp] theorem captureSeq_seq (v : Byte) (s : State) : (captureSeq v s).seq = v := rfl
@[simp] theorem captureSeq_seqv (v : Byte) (s : State) : (captureSeq v s).seqv = true := rfl
@[simp] theorem captureSeq_cmd (v : Byte) (s : State) : (captureSeq v s).cmd = s.cmd := rfl
@[simp] theorem captureSeq_len (v : Byte) (s : State) : (captureSeq v s).len = s.len := rfl
@[simp] theorem captureSeq_csum (v : Byte) (s : State) : (captureSeq v s).csum = v := rfl
@[simp] theorem captureSeq_ret (v : Byte) (s : State) : (captureSeq v s).ret = s.ret := rfl
@[simp] theorem captureSeq_line (v : Byte) (s : State) : (captureSeq v s).line = s.line := rfl
@[simp] theorem captureSeq_tcnt (v : Byte) (s : State) : (captureSeq v s).tcnt = s.tcnt := rfl
@[simp] theorem captureSeq_buf (v : Byte) (s : State) : (captureSeq v s).buf = s.buf := rfl
@[simp] theorem captureSeq_busy (v : Byte) (s : State) : (captureSeq v s).busy = s.busy := rfl
@[simp] theorem captureSeq_sifseq (v : Byte) (s : State) : (captureSeq v s).sifseq = s.sifseq := rfl
@[simp] theorem captureSeq_midx (v : Byte) (s : State) : (captureSeq v s).midx = s.midx := rfl
@[simp] theorem captureSeq_mflags (v : Byte) (s : State) : (captureSeq v s).mflags = s.mflags := rfl
@[simp] theorem captureSeq_moff (v : Byte) (s : State) : (captureSeq v s).moff = s.moff := rfl
@[simp] theorem captureSeq_mclen (v : Byte) (s : State) : (captureSeq v s).mclen = s.mclen := rfl
@[simp] theorem captureSeq_sif (v : Byte) (s : State) : (captureSeq v s).sif = s.sif := rfl
@[simp] theorem captureSeq_entered (v : Byte) (s : State) : (captureSeq v s).entered = s.entered := rfl
@[simp] theorem captureSeq_link (v : Byte) (s : State) : (captureSeq v s).link = s.link := rfl
@[simp] theorem captureSeq_rx (v : Byte) (s : State) : (captureSeq v s).rx = s.rx := rfl
@[simp] theorem captureSeq_txAnswers (v : Byte) (s : State) : (captureSeq v s).txAnswers = s.txAnswers := rfl
@[simp] theorem captureSeq_tx (v : Byte) (s : State) : (captureSeq v s).tx = s.tx := rfl
@[simp] theorem captureSeq_tasks (v : Byte) (s : State) : (captureSeq v s).tasks = s.tasks := rfl
@[simp] theorem captureSeq_store (v : Byte) (s : State) : (captureSeq v s).store = s.store := rfl
@[simp] theorem captureSeq_appState (v : Byte) (s : State) : (captureSeq v s).appState = s.appState := rfl
@[simp] theorem captureSeq_result (v : Byte) (s : State) : (captureSeq v s).result = s.result := rfl
@[simp] theorem captureSeq_inputs (v : Byte) (s : State) : (captureSeq v s).inputs = s.inputs := rfl
@[simp] theorem captureSeq_draws (v : Byte) (s : State) : (captureSeq v s).draws = s.draws := rfl

/-! ### captureLen -/

@[simp] theorem captureLen_cfg (v : Byte) (s : State) : (captureLen v s).cfg = s.cfg := rfl
@[simp] theorem captureLen_fp (v : Byte) (s : State) : (captureLen v s).fp = .readPayload := rfl
@[simp] theorem captureLen_idx (v : Byte) (s : State) : (captureLen v s).idx = 0 := rfl
@[simp] theorem captureLen_seq (v : Byte) (s : State) : (captureLen v s).seq = s.seq := rfl
@[simp] theorem captureLen_seqv (v : Byte) (s : State) : (captureLen v s).seqv = s.seqv := rfl
@[simp] theorem captureLen_cmd (v : Byte) (s : State) : (captureLen v s).cmd = s.cmd := rfl
@[simp] theorem captureLen_len (v : Byte) (s : State) : (captureLen v s).len = v := rfl
@[simp] theorem captureLen_csum (v : Byte) (s : State) : (captureLen v s).csum = s.csum ^^^ lengthTerm s.cfg v := rfl
@[simp] theorem captureLen_ret (v : Byte) (s : State) : (captureLen v s).ret = s.ret := rfl
@[simp] theorem captureLen_line (v : Byte) (s : State) : (captureLen v s).line = s.line := rfl
@[simp] theorem captureLen_tcnt (v : Byte) (s : State) : (captureLen v s).tcnt = s.tcnt := rfl
@[simp] theorem captureLen_buf (v : Byte) (s : State) : (captureLen v s).buf = s.buf := rfl
@[simp] theorem captureLen_busy (v : Byte) (s : State) : (captureLen v s).busy = s.busy := rfl
@[simp] theorem captureLen_sifseq (v : Byte) (s : State) : (captureLen v s).sifseq = s.sifseq := rfl
@[simp] theorem captureLen_midx (v : Byte) (s : State) : (captureLen v s).midx = s.midx := rfl
@[simp] theorem captureLen_mflags (v : Byte) (s : State) : (captureLen v s).mflags = s.mflags := rfl
@[simp] theorem captureLen_moff (v : Byte) (s : State) : (captureLen v s).moff = s.moff := rfl
@[simp] theorem captureLen_mclen (v : Byte) (s : State) : (captureLen v s).mclen = s.mclen := rfl
@[simp] theorem captureLen_sif (v : Byte) (s : State) : (captureLen v s).sif = s.sif := rfl
@[simp] theorem captureLen_entered (v : Byte) (s : State) : (captureLen v s).entered = s.entered := rfl
@[simp] theorem captureLen_link (v : Byte) (s : State) : (captureLen v s).link = s.link := rfl
@[simp] theorem captureLen_rx (v : Byte) (s : State) : (captureLen v s).rx = s.rx := rfl
@[simp] theorem captureLen_txAnswers (v : Byte) (s : State) : (captureLen v s).txAnswers = s.txAnswers := rfl
@[simp] theorem captureLen_tx (v : Byte) (s : State) : (captureLen v s).tx = s.tx := rfl
@[simp] theorem captureLen_tasks (v : Byte) (s : State) : (captureLen v s).tasks = s.tasks := rfl
@[simp] theorem captureLen_store (v : Byte) (s : State) : (captureLen v s).store = s.store := rfl
@[simp] theorem captureLen_appState (v : Byte) (s : State) : (captureLen v s).appState = s.appState := rfl
@[simp] theorem captureLen_result (v : Byte) (s : State) : (captureLen v s).result = s.result := rfl
@[simp] theorem captureLen_inputs (v : Byte) (s : State) : (captureLen v s).inputs = s.inputs := rfl
@[simp] theorem captureLen_draws (v : Byte) (s : State) : (captureLen v s).draws = s.draws := rfl

/-! ### captureCmd -/

@[simp] theorem captureCmd_cfg (v : Byte) (s : State) : (captureCmd v s).cfg = s.cfg := rfl
@[simp] theorem captureCmd_fp (v : Byte) (s : State) : (captureCmd v s).fp = s.fp := rfl
@[simp] theorem captureCmd_idx (v : Byte) (s : State) : (captureCmd v s).idx = s.idx := rfl
@[simp] theorem captureCmd_seq (v : Byte) (s : State) : (captureCmd v s).seq = s.seq := rfl
@[simp] theorem captureCmd_seqv (v : Byte) (s : State) : (captureCmd v s).seqv = s.seqv := rfl
@[simp] theorem captureCmd_cmd (v : Byte) (s : State) : (captureCmd v s).cmd = v := rfl
@[simp] theorem captureCmd_len (v : Byte) (s : State) : (captureCmd v s).len = s.len := rfl
@[simp] theorem captureCmd_csum (v : Byte) (s : State) : (captureCmd v s).csum = s.csum ^^^ codeTerm s.cfg v := rfl
@[simp] theorem captureCmd_ret (v : Byte) (s : State) : (captureCmd v s).ret = s.ret := rfl
@[simp] theorem captureCmd_line (v : Byte) (s : State) : (captureCmd v s).line = s.line := rfl
@[simp] theorem captureCmd_tcnt (v : Byte) (s : State) : (captureCmd v s).tcnt = s.tcnt := rfl
@[simp] theorem captureCmd_buf (v : Byte) (s : State) : (captureCmd v s).buf = s.buf := rfl
@[simp] theorem captureCmd_busy (v : Byte) (s : State) : (captureCmd v s).busy = s.busy := rfl
@[simp] theorem captureCmd_sifseq (v : Byte) (s : State) : (captureCmd v s).sifseq = s.sifseq := rfl
@[simp] theorem captureCmd_midx (v : Byte) (s : State) : (captureCmd v s).midx = s.midx := rfl
@[simp] theorem captureCmd_mflags (v : Byte) (s : State) : (captureCmd v s).mflags = s.mflags := rfl
@[simp] theorem captureCmd_moff (v : Byte) (s : State) : (captureCmd v s).moff = s.moff := rfl
@[simp] theorem captureCmd_mclen (v : Byte) (s : State) : (captureCmd v s).mclen = s.mclen := rfl
@[simp] theorem captureCmd_sif (v : Byte) (s : State) : (captureCmd v s).sif = s.sif := rfl
@[simp] theorem captureCmd_entered (v : Byte) (s : State) : (captureCmd v s).entered = s.entered := rfl
@[simp] theorem captureCmd_link (v : Byte) (s : State) : (captureCmd v s).link = s.link := rfl
@[simp] theorem captureCmd_rx (v : Byte) (s : State) : (captureCmd v s).rx = s.rx := rfl
@[simp] theorem captureCmd_txAnswers (v : Byte) (s : State) : (captureCmd v s).txAnswers = s.txAnswers := rfl
@[simp] theorem captureCmd_tx (v : Byte) (s : State) : (captureCmd v s).tx = s.tx := rfl
@[simp] theorem captureCmd_tasks (v : Byte) (s : State) : (captureCmd v s).tasks = s.tasks := rfl
@[simp] theorem captureCmd_store (v : Byte) (s : State) : (captureCmd v s).store = s.store := rfl
@[simp] theorem captureCmd_appState (v : Byte) (s : State) : (captureCmd v s).appState = s.appState := rfl
@[simp] theorem captureCmd_result (v : Byte) (s : State) : (captureCmd v s).result = s.result := rfl
@[simp] theorem captureCmd_inputs (v : Byte) (s : State) : (captureCmd v s).inputs = s.inputs := rfl
@[simp] theorem captureCmd_draws (v : Byte) (s : State) : (captureCmd v s).draws = s.draws := rfl

/-! ### storePayload -/

@[simp] theorem storePayload_cfg (v : Byte) (s : State) : (storePayload v s).cfg = s.cfg := rfl
@[simp] theorem storePayload_fp (v : Byte) (s : State) : (storePayload v s).fp = nextOfPayload (s.idx + 1) s.len := rfl
@[simp] theorem storePayload_idx (v : Byte) (s : State) : (storePayload v s).idx = s.idx + 1 := rfl
@[simp] theorem storePayload_seq (v : Byte) (s : State) : (storePayload v s).seq = s.seq := rfl
@[simp] theorem storePayload_seqv (v : Byte) (s : State) : (storePayload v s).seqv = s.seqv := rfl
@[simp] theorem storePayload_cmd (v : Byte) (s : State) : (storePayload v s).cmd = s.cmd := rfl
@[simp] theorem storePayload_len (v : Byte) (s : State) : (storePayload v s).len = s.len := rfl
@[simp] theorem storePayload_csum (v : Byte) (s : State) : (storePayload v s).csum = s.csum ^^^ v := rfl
@[simp] theorem storePayload_ret (v : Byte) (s : State) : (storePayload v s).ret = s.ret := rfl
@[simp] theorem storePayload_line (v : Byte) (s : State) : (storePayload v s).line = s.line := rfl
@[simp] theorem storePayload_tcnt (v : Byte) (s : State) : (storePayload v s).tcnt = s.tcnt := rfl
@[simp] theorem storePayload_buf (v : Byte) (s : State) : (storePayload v s).buf = s.buf.write s.idx.toNat v := rfl
@[simp] theorem storePayload_busy (v : Byte) (s : State) : (storePayload v s).busy = s.busy := rfl
@[simp] theorem storePayload_sifseq (v : Byte) (s : State) : (storePayload v s).sifseq = s.sifseq := rfl
@[simp] theorem storePayload_midx (v : Byte) (s : State) : (storePayload v s).midx = s.midx := rfl
@[simp] theorem storePayload_mflags (v : Byte) (s : State) : (storePayload v s).mflags = s.mflags := rfl
@[simp] theorem storePayload_moff (v : Byte) (s : State) : (storePayload v s).moff = s.moff := rfl
@[simp] theorem storePayload_mclen (v : Byte) (s : State) : (storePayload v s).mclen = s.mclen := rfl
@[simp] theorem storePayload_sif (v : Byte) (s : State) : (storePayload v s).sif = s.sif := rfl
@[simp] theorem storePayload_entered (v : Byte) (s : State) : (storePayload v s).entered = s.entered := rfl
@[simp] theorem storePayload_link (v : Byte) (s : State) : (storePayload v s).link = s.link := rfl
@[simp] theorem storePayload_rx (v : Byte) (s : State) : (storePayload v s).rx = s.rx := rfl
@[simp] theorem storePayload_txAnswers (v : Byte) (s : State) : (storePayload v s).txAnswers = s.txAnswers := rfl
@[simp] theorem storePayload_tx (v : Byte) (s : State) : (storePayload v s).tx = s.tx := rfl
@[simp] theorem storePayload_tasks (v : Byte) (s : State) : (storePayload v s).tasks = s.tasks := rfl
@[simp] theorem storePayload_store (v : Byte) (s : State) : (storePayload v s).store = s.store := rfl
@[simp] theorem storePayload_appState (v : Byte) (s : State) : (storePayload v s).appState = s.appState := rfl
@[simp] theorem storePayload_result (v : Byte) (s : State) : (storePayload v s).result = s.result := rfl
@[simp] theorem storePayload_inputs (v : Byte) (s : State) : (storePayload v s).inputs = s.inputs := rfl
@[simp] theorem storePayload_draws (v : Byte) (s : State) : (storePayload v s).draws = s.draws := rfl

/-! ### loadMany -/

@[simp] theorem loadMany_cfg (s : State) : (loadMany s).cfg = s.cfg := rfl
@[simp] theorem loadMany_fp (s : State) : (loadMany s).fp = s.fp := rfl
@[simp] theorem loadMany_idx (s : State) : (loadMany s).idx = s.idx := rfl
@[simp] theorem loadMany_seq (s : State) : (loadMany s).seq = s.seq := rfl
@[simp] theorem loadMany_seqv (s : State) : (loadMany s).seqv = s.seqv := rfl
@[simp] theorem loadMany_cmd (s : State) : (loadMany s).cmd = s.cmd := rfl
@[simp] theorem loadMany_len (s : State) : (loadMany s).len = s.len := rfl
@[simp] theorem loadMany_csum (s : State) : (loadMany s).csum = s.csum := rfl
@[simp] theorem loadMany_ret (s : State) : (loadMany s).ret = s.ret := rfl
@[simp] theorem loadMany_line (s : State) : (loadMany s).line = s.line := rfl
@[simp] theorem loadMany_tcnt (s : State) : (loadMany s).tcnt = s.tcnt := rfl
@[simp] theorem loadMany_buf (s : State) : (loadMany s).buf = s.buf := rfl
@[simp] theorem loadMany_busy (s : State) : (loadMany s).busy = s.busy := rfl
@[simp] theorem loadMany_sifseq (s : State) : (loadMany s).sifseq = s.sifseq := rfl
@[simp] theorem loadMany_midx (s : State) : (loadMany s).midx = s.midx := rfl
@[simp] theorem loadMany_mflags (s : State) : (loadMany s).mflags = s.bufRead 1 := rfl
@[simp] theorem loadMany_moff (s : State) : (loadMany s).moff = headerOffset s := rfl
@[simp] theorem loadMany_mclen (s : State) : (loadMany s).mclen = s.len - 6 := rfl
@[simp] theorem loadMany_sif (s : State) : (loadMany s).sif = s.sif := rfl
@[simp] theorem loadMany_entered (s : State) : (loadMany s).entered = s.entered := rfl
@[simp] theorem loadMany_link (s : State) : (loadMany s).link = s.link := rfl
@[simp] theorem loadMany_rx (s : State) : (loadMany s).rx = s.rx := rfl
@[simp] theorem loadMany_txAnswers (s : State) : (loadMany s).txAnswers = s.txAnswers := rfl
@[simp] theorem loadMany_tx (s : State) : (loadMany s).tx = s.tx := rfl
@[simp] theorem loadMany_tasks (s : State) : (loadMany s).tasks = s.tasks := rfl
@[simp] theorem loadMany_store (s : State) : (loadMany s).store = s.store := rfl
@[simp] theorem loadMany_appState (s : State) : (loadMany s).appState = s.appState := rfl
@[simp] theorem loadMany_result (s : State) : (loadMany s).result = s.result := rfl
@[simp] theorem loadMany_inputs (s : State) : (loadMany s).inputs = s.inputs := rfl
@[simp] theorem loadMany_draws (s : State) : (loadMany s).draws = s.draws := rfl

end Sys2Proof.Machine
end

