-- ==== Sys2Proof/Laws/Read.lean ====
section
/-! SUPPORT. What the two reads do: `RAWRD` and `DEC` consume an initial part of the receive queue and change `TCNT` and
the number of `T.task` calls, and nothing else. -/

namespace Sys2Proof.Machine

/-- The state after a read that left `rx` queued and polled `k` times in vain. -/
def afterRead (s : State) (rx : List RxEvent) (tcnt tasks : Nat) : State :=
  { s with rx := rx, tcnt := tcnt, tasks := tasks }

theorem rawrdLoop_byte (n : Nat) {s : State} {v : Byte} {rest : List RxEvent} (h : s.rx = .byte v :: rest) :
    rawrdLoop n s = (.byte v, s.setRx rest) := by
  unfold rawrdLoop
  rw [h]

theorem rawrdLoop_zero {s : State} (h : ∀ v rest, s.rx ≠ .byte v :: rest) :
    rawrdLoop 0 s = (.timeout, s.setRx (afterExpiry s.rx)) := by
  unfold rawrdLoop
  split
  · rename_i v rest e; exact absurd e (h v rest)
  · rfl

theorem rawrdLoop_succ (n : Nat) {s : State} (h : ∀ v rest, s.rx ≠ .byte v :: rest) :
    rawrdLoop (n + 1) s = rawrdLoop n ((transportTask s).setTcnt (s.tcnt + 1)) := by
  conv_lhs => unfold rawrdLoop
  split
  · rename_i v rest e; exact absurd e (h v rest)
  · rfl

/-- `k` polls that found nothing, then a byte, within the window (R131). -/
theorem rawrdLoop_quiet_byte (n k : Nat) (s : State) (v : Byte) (rest : List RxEvent) (hk : k ≤ n)
    (h : s.rx = List.replicate k .quiet ++ .byte v :: rest) :
    rawrdLoop n s = (.byte v, afterRead s rest (s.tcnt + k) (s.tasks + k)) := by
  induction k generalizing n s with
  | zero =>
    rw [rawrdLoop_byte n h]
    rfl
  | succ k ih =>
    obtain ⟨n, rfl⟩ : ∃ m, n = m + 1 := ⟨n - 1, by omega⟩
    have h' : s.rx = .quiet :: (List.replicate k .quiet ++ .byte v :: rest) := h
    rw [rawrdLoop_succ n (by intro v rest e; rw [h'] at e; cases e), ih n _ (by omega) (by simp [h', afterTask])]
    simp only [afterRead, State.setTcnt, transportTask, Nat.add_assoc, Nat.add_comm 1 k]

/-- No byte within the window: the window's worth of polls, and the gap that was met is over (R131, R132). -/
theorem rawrdLoop_expires (n : Nat) (s : State) (h : s.rx = [] ∨ ∃ rest, s.rx = .gap :: rest) :
    rawrdLoop n s = (.timeout, afterRead s (afterExpiry s.rx) (s.tcnt + n) (s.tasks + n)) := by
  have hb : ∀ v rest, s.rx ≠ .byte v :: rest := by
    intro v rest e
    rcases h with h | ⟨r, h⟩ <;> rw [h] at e <;> cases e
  induction n generalizing s with
  | zero =>
    rw [rawrdLoop_zero hb]
    rfl
  | succ n ih =>
    have e : afterTask s.rx = s.rx := by rcases h with h | ⟨r, h⟩ <;> rw [h] <;> rfl
    have e2 : ((transportTask s).setTcnt (s.tcnt + 1)).rx = s.rx := e
    rw [rawrdLoop_succ n hb, ih _ (by rw [e2]; exact h) (by rw [e2]; exact hb), e2]
    simp only [afterRead, State.setTcnt, transportTask, Nat.add_assoc, Nat.add_comm 1 n]

theorem afterExpiry_suffix (rx : List RxEvent) : afterExpiry rx <:+ rx := by
  match rx with
  | .gap :: rest => exact List.suffix_cons _ _
  | [] => exact List.suffix_refl _
  | .byte _ :: _ => exact List.suffix_refl _
  | .quiet :: _ => exact List.suffix_refl _

theorem afterTask_suffix (rx : List RxEvent) : afterTask rx <:+ rx := by
  match rx with
  | .quiet :: rest => exact List.suffix_cons _ _
  | [] => exact List.suffix_refl _
  | .byte _ :: _ => exact List.suffix_refl _
  | .gap :: _ => exact List.suffix_refl _

/-- Everything a read loop can do. -/
theorem rawrdLoop_cases (n : Nat) (s : State) :
    ∃ k ≤ n, ∃ rx, rx <:+ s.rx ∧ (rawrdLoop n s).2 = afterRead s rx (s.tcnt + k) (s.tasks + k) ∧
      ((∃ v, (rawrdLoop n s).1 = .byte v ∧ s.rx = List.replicate k .quiet ++ .byte v :: rx ∨
        (rawrdLoop n s).1 = .byte v ∧ (RxEvent.byte v :: rx) <:+ s.rx) ∨
      (rawrdLoop n s).1 = .timeout ∧ k = n) := by
  induction n generalizing s with
  | zero =>
    by_cases h : ∃ v rest, s.rx = .byte v :: rest
    · obtain ⟨v, rest, h⟩ := h
      refine ⟨0, le_refl _, rest, ?_, ?_, .inl ⟨v, .inl ⟨?_, ?_⟩⟩⟩
      · rw [h]; exact List.suffix_cons _ _
      · rw [rawrdLoop_byte 0 h]; rfl
      · rw [rawrdLoop_byte 0 h]
      · exact h
    · have hb : ∀ v rest, s.rx ≠ .byte v :: rest := fun v rest e => h ⟨v, rest, e⟩
      refine ⟨0, le_refl _, afterExpiry s.rx, ?_, ?_, .inr ⟨?_, rfl⟩⟩
      · exact afterExpiry_suffix _
      · rw [rawrdLoop_zero hb]; rfl
      · rw [rawrdLoop_zero hb]
  | succ n ih =>
    by_cases h : ∃ v rest, s.rx = .byte v :: rest
    · obtain ⟨v, rest, h⟩ := h
      refine ⟨0, by omega, rest, ?_, ?_, .inl ⟨v, .inl ⟨?_, ?_⟩⟩⟩
      · rw [h]; exact List.suffix_cons _ _
      · rw [rawrdLoop_byte _ h]; rfl
      · rw [rawrdLoop_byte _ h]
      · exact h
    · have hb : ∀ v rest, s.rx ≠ .byte v :: rest := fun v rest e => h ⟨v, rest, e⟩
      rw [rawrdLoop_succ n hb]
      obtain ⟨k, hk, rx, h1, h2, h3⟩ := ih ((transportTask s).setTcnt (s.tcnt + 1))
      have hs := afterTask_suffix s.rx
      have hrx : ((transportTask s).setTcnt (s.tcnt + 1)).rx = afterTask s.rx := rfl
      rw [hrx] at h1 h3
      refine ⟨k + 1, by omega, rx, h1.trans hs, ?_, ?_⟩
      · rw [h2]
        simp only [afterRead, State.setTcnt, transportTask, Nat.add_assoc, Nat.add_comm 1 k]
      · rcases h3 with ⟨v, ⟨e, h3⟩ | ⟨e, h3⟩⟩ | ⟨e, h3⟩
        · refine .inl ⟨v, .inr ⟨e, ?_⟩⟩
          refine List.IsSuffix.trans ?_ hs
          rw [h3]
          exact List.suffix_append _ _
        · exact .inl ⟨v, .inr ⟨e, h3.trans hs⟩⟩
        · exact .inr ⟨e, by omega⟩

/-- Everything `RAWRD` can do: it leaves a final part of the receive queue, counts at most the window, and answers a byte
that was queued, or the timeout. -/
theorem rawrd_cases (s : State) :
    ∃ k ≤ s.cfg.timeoutWindow, ∃ rx, rx <:+ s.rx ∧ (rawrd s).2 = afterRead s rx k (s.tasks + k) ∧
      ((∃ v, (rawrd s).1 = .byte v ∧ (RxEvent.byte v :: rx) <:+ s.rx) ∨
      (rawrd s).1 = .timeout ∧ k = s.cfg.timeoutWindow) := by
  obtain ⟨k, hk, rx, h1, h2, h3⟩ := rawrdLoop_cases s.cfg.timeoutWindow (s.setTcnt 0)
  refine ⟨k, hk, rx, h1, ?_, ?_⟩
  · show (rawrdLoop s.cfg.timeoutWindow (s.setTcnt 0)).2 = _
    rw [h2]
    simp [afterRead, State.setTcnt]
  · rcases h3 with ⟨v, ⟨e, h3⟩ | ⟨e, h3⟩⟩ | h3
    · refine .inl ⟨v, e, ?_⟩
      rw [State.setTcnt_rx] at h3
      rw [h3]
      exact List.suffix_append _ _
    · exact .inl ⟨v, e, h3⟩
    · exact .inr h3

/-- A byte is waiting: `RAWRD` takes it without counting (R131). -/
theorem rawrd_byte {s : State} {v : Byte} {rest : List RxEvent} (h : s.rx = .byte v :: rest) :
    rawrd s = (.byte v, afterRead s rest 0 s.tasks) :=
  rawrdLoop_byte (s := s.setTcnt 0) _ h

/-- Nothing arrives within the window (R131, R132). -/
theorem rawrd_expires {s : State} (h : s.rx = [] ∨ ∃ rest, s.rx = .gap :: rest) :
    rawrd s = (.timeout, afterRead s (afterExpiry s.rx) s.cfg.timeoutWindow (s.tasks + s.cfg.timeoutWindow)) := by
  have e := rawrdLoop_expires s.cfg.timeoutWindow (s.setTcnt 0) h
  rw [State.setTcnt_tcnt, Nat.zero_add] at e
  exact e

/-- Everything `DEC` can do: it leaves a final part of the receive queue, and `TCNT` in its range. -/
theorem dec_cases (s : State) :
    ∃ rx k n, rx <:+ s.rx ∧ k ≤ s.cfg.timeoutWindow ∧ s.tasks ≤ n ∧ (dec s).2 = afterRead s rx k n := by
  obtain ⟨k, hk, rx, h1, h2, h3⟩ := rawrd_cases s
  unfold dec
  generalize hr : rawrd s = r at *
  obtain ⟨res, s1⟩ := r
  simp only at h2 h3
  subst h2
  cases res with
  | byte v =>
    simp only
    split
    · obtain ⟨k', hk', rx', g1, g2, _⟩ := rawrd_cases (afterRead s rx k (s.tasks + k))
      refine ⟨rx', k', s.tasks + k + k', g1.trans h1, hk', by omega, ?_⟩
      simp only
      rw [g2]
      rfl
    · exact ⟨rx, k, s.tasks + k, h1, hk, by omega, rfl⟩
  | timeout => exact ⟨rx, k, s.tasks + k, h1, hk, by omega, rfl⟩
  | escError => exact ⟨rx, k, s.tasks + k, h1, hk, by omega, rfl⟩

/-- `DEC` of a waiting byte that is not `ESC` (R134). -/
theorem dec_plain {s : State} {v : Byte} {rest : List RxEvent} (h : s.rx = .byte v :: rest) (hv : v ≠ s.cfg.esc) :
    dec s = (plainResult s.cfg v, afterRead s rest 0 s.tasks) := by
  unfold dec
  rw [rawrd_byte h]
  have e : (afterRead s rest 0 s.tasks).cfg = s.cfg := rfl
  simp only [e, if_neg hv]

/-- `DEC` of a waiting escape pair (R134, R136). -/
theorem dec_pair {s : State} {x : Byte} {rest : List RxEvent} (h : s.rx = .byte s.cfg.esc :: .byte x :: rest) :
    dec s = (.byte (x + 1), afterRead s rest 0 s.tasks) := by
  unfold dec
  rw [rawrd_byte h]
  have e : (afterRead s (.byte x :: rest) 0 s.tasks).cfg = s.cfg := rfl
  simp only [e, if_true]
  rw [rawrd_byte (s := afterRead s (.byte x :: rest) 0 s.tasks) (v := x) (rest := rest) rfl]
  rfl

end Sys2Proof.Machine
end

