-- ==== Sys2Proof/Laws/Send.lean ====
section
/-! SUPPORT. What sending does: the transport takes the raw bytes of a frame up to its first failure, and nothing but the
transmit side, `CSUM`, `IDX` and the result changes. -/

namespace Sys2Proof.Machine

/-! ### How many bytes the transport takes -/

@[simp] theorem accepted_nil (n : Nat) : accepted [] n = n := by cases n <;> rfl

@[simp] theorem accepted_zero (ans : List Bool) : accepted ans 0 = 0 := by cases ans <;> rfl

@[simp] theorem answersLeft_zero (ans : List Bool) : answersLeft ans 0 = ans := by cases ans <;> rfl

@[simp] theorem answersLeft_nil (n : Nat) : answersLeft [] n = [] := by cases n <;> rfl

theorem accepted_le (ans : List Bool) (n : Nat) : accepted ans n ≤ n := by
  induction n generalizing ans with
  | zero => simp
  | succ n ih =>
    match ans with
    | [] => simp
    | true :: rest => exact Nat.succ_le_succ (ih rest)
    | false :: _ => exact Nat.zero_le _

theorem accepted_add (ans : List Bool) (m n : Nat) :
    accepted ans (m + n) = if accepted ans m = m then m + accepted (answersLeft ans m) n else accepted ans m := by
  induction m generalizing ans with
  | zero => simp
  | succ m ih =>
    match ans with
    | [] => simp
    | true :: rest =>
      rw [Nat.succ_add]
      show accepted rest (m + n) + 1 = if accepted rest m + 1 = m + 1 then _ + accepted (answersLeft rest m) n else _
      rw [ih]
      by_cases h : accepted rest m = m
      · simp only [h, if_true]
        omega
      · rw [if_neg h, if_neg (by omega)]
        rfl
    | false :: _ =>
      rw [Nat.succ_add]
      simp [accepted]

theorem answersLeft_add (ans : List Bool) (m n : Nat) :
    answersLeft ans (m + n) =
      if accepted ans m = m then answersLeft (answersLeft ans m) n else answersLeft ans m := by
  induction m generalizing ans with
  | zero => simp
  | succ m ih =>
    match ans with
    | [] => simp
    | true :: rest =>
      rw [Nat.succ_add]
      show answersLeft rest (m + n) = if accepted rest m + 1 = m + 1 then _ else answersLeft rest m
      rw [ih]
      by_cases h : accepted rest m = m <;> simp [h, answersLeft]
    | false :: _ =>
      rw [Nat.succ_add]
      simp [accepted, answersLeft]

/-- On a link that is up the answers decide (R66); on one that is down nothing is taken (R245). -/
theorem taken_up {s : State} (h : s.link = true) (n : Nat) :
    taken s n = accepted s.txAnswers n ∧ answersAfter s n = answersLeft s.txAnswers n := by
  simp [taken, answersAfter, h]

theorem taken_down {s : State} (h : s.link = false) (n : Nat) : taken s n = 0 ∧ answersAfter s n = s.txAnswers := by
  simp [taken, answersAfter, h]

theorem taken_le (s : State) (n : Nat) : taken s n ≤ n := by
  unfold taken
  split
  · exact accepted_le _ _
  · exact Nat.zero_le _

@[simp] theorem taken_zero (s : State) : taken s 0 = 0 := Nat.le_zero.1 (taken_le s 0)

@[simp] theorem answersAfter_zero (s : State) : answersAfter s 0 = s.txAnswers := by simp [answersAfter]

/-- An offer of `m + n` bytes is one of `m`, and one of `n` from the state `t` after it if all `m` were taken. -/
theorem taken_add {s t : State} (m n : Nat) (hl : t.link = s.link) (ha : t.txAnswers = answersAfter s m) :
    taken s (m + n) = (if taken s m = m then m + taken t n else taken s m) ∧
    answersAfter s (m + n) = if taken s m = m then answersAfter t n else answersAfter s m := by
  cases h : s.link with
  | true =>
    rw [(taken_up h m).2] at ha
    simp only [taken_up h, taken_up (hl.trans h), ha]
    exact ⟨accepted_add _ _ _, answersLeft_add _ _ _⟩
  | false =>
    rw [(taken_down h m).2] at ha
    simp only [taken_down h, taken_down (hl.trans h), ha]
    constructor
    · split <;> omega
    · split <;> rfl

theorem takesAll_iff (s : State) (raw : List Byte) : takesAll s raw = true ↔ taken s raw.length = raw.length := by
  simp [takesAll]

/-! ### Offering bytes -/

theorem offered_nil (s : State) : Offered s [] (true, s) := by
  constructor
  · simp [takesAll]
  · simp

/-- Changing `CSUM` or `IDX` before an offer makes no difference to what is offered. -/
theorem offered_registers {s s' : State} {raw : List Byte} {r : Bool × State}
    (h : s' = { s with csum := s'.csum, idx := s'.idx }) (o : Offered s' raw r) : Offered s raw r := by
  rw [h] at o
  exact o

theorem offered_andThen {s : State} {a b : List Byte} {r : Bool × State} {f : State → Bool × State}
    (ha : Offered s a r) (hb : r.1 = true → Offered r.2 b (f r.2)) : Offered s (a ++ b) (andThen r f) := by
  obtain ⟨h1, h2⟩ := ha
  unfold andThen
  by_cases hr : r.1 = true
  · rw [if_pos hr]
    obtain ⟨k1, k2⟩ := hb hr
    have hacc : taken s a.length = a.length := (takesAll_iff s a).1 (h1 ▸ hr)
    obtain ⟨p1, p2⟩ := taken_add (s := s) (t := r.2) a.length b.length (by rw [h2]) (by rw [h2])
    rw [if_pos hacc] at p1 p2
    have e2 : r.2.tx = s.tx ++ a.map .byte := by
      rw [h2]
      simp [hacc]
    obtain ⟨rb, s1⟩ := r
    simp only at h2 k1 k2 e2 p1 p2 ⊢
    generalize f s1 = q at *
    constructor
    · rw [k1, Bool.eq_iff_iff, takesAll_iff, takesAll_iff, List.length_append, p1]
      omega
    · rw [List.length_append, p1, p2, List.take_length_add_append, List.map_append, ← List.append_assoc, ← e2, k2, h2]
  · rw [if_neg hr]
    have hacc : ¬ taken s a.length = a.length := fun h => hr (h1 ▸ (takesAll_iff s a).2 h)
    obtain ⟨p1, p2⟩ := taken_add (s := s) (t := r.2) a.length b.length (by rw [h2]) (by rw [h2])
    rw [if_neg hacc] at p1 p2
    constructor
    · rw [Bool.eq_iff_iff, takesAll_iff, List.length_append, p1]
      have := taken_le s a.length
      constructor
      · intro h; exact absurd h hr
      · intro h; omega
    · rw [List.length_append, p1, p2, List.take_append_of_le_length (taken_le _ _)]
      exact h2

theorem transportTx_offered (b : Byte) (s : State) : Offered s [b] (transportTx b s) := by
  unfold transportTx Offered takesAll
  by_cases hl : s.link = true
  · rw [if_pos hl, (taken_up hl _).1, (taken_up hl _).2]
    unfold transportTxUp
    split <;> rename_i h <;> simp [State.pushTx, State.setAnswers, h, accepted, answersLeft]
  · rw [if_neg hl, (taken_down (eq_false_of_ne_true hl) _).1, (taken_down (eq_false_of_ne_true hl) _).2]
    simp

theorem enc_offered (b : Byte) (s : State) : Offered s (escapeByte s.cfg b) (enc b s) := by
  unfold enc escapeByte
  split
  · exact offered_andThen (a := [s.cfg.esc]) (b := [b - 1]) (transportTx_offered _ _)
      (fun _ => transportTx_offered _ _)
  · exact transportTx_offered _ _

theorem offered_cfg {s : State} {raw : List Byte} {r : Bool × State} (h : Offered s raw r) : r.2.cfg = s.cfg := by
  rw [h.2]

/-- One logical byte sent after `CSUM` and `IDX` have been changed. -/
theorem enc_offered_from {s s' : State} (b : Byte) (h : s' = { s with csum := s'.csum, idx := s'.idx }) :
    Offered s (escapeByte s.cfg b) (enc b s') := by
  have hc : s'.cfg = s.cfg := by rw [h]
  exact offered_registers h (hc ▸ enc_offered b s')

theorem sendData_offered (data : List Byte) (s : State) : Offered s (escapeBody s.cfg data) (sendData data s) := by
  induction data generalizing s with
  | nil => exact offered_nil s
  | cons b bs ih =>
    have e : escapeBody s.cfg (b :: bs) = escapeByte s.cfg b ++ escapeBody s.cfg bs := rfl
    rw [e]
    have h1 : Offered s (escapeByte s.cfg b) (enc b (s.setCsum (s.csum ^^^ b))) := enc_offered_from b rfl
    refine offered_andThen h1 (fun _ => ?_)
    have hc := offered_cfg h1
    refine offered_registers (s' := (enc b (s.setCsum (s.csum ^^^ b))).2.setIdx _) rfl ?_
    have h2 := ih ((enc b (s.setCsum (s.csum ^^^ b))).2.setIdx ((enc b (s.setCsum (s.csum ^^^ b))).2.idx + 1))
    rwa [State.setIdx_cfg, hc] at h2

/-! ### The checksum accumulated while sending -/

theorem andThen_true {r : Bool × State} {f : State → Bool × State} (h : (andThen r f).1 = true) :
    r.1 = true ∧ andThen r f = f r.2 := by
  unfold andThen at *
  split at h
  · rename_i hr; exact ⟨hr, if_pos hr⟩
  · rename_i hr; exact absurd h hr

theorem transportTx_registers (b : Byte) (s : State) :
    (transportTx b s).2.csum = s.csum ∧ (transportTx b s).2.idx = s.idx ∧ (transportTx b s).2.cfg = s.cfg := by
  unfold transportTx transportTxUp
  split
  · split <;> simp [State.pushTx]
  · simp

theorem enc_registers (b : Byte) (s : State) :
    (enc b s).2.csum = s.csum ∧ (enc b s).2.idx = s.idx ∧ (enc b s).2.cfg = s.cfg := by
  unfold enc andThen
  split
  · split
    · simp [transportTx_registers]
    · simp [transportTx_registers]
  · simp [transportTx_registers]

theorem sendData_registers (data : List Byte) (s : State) (h : (sendData data s).1 = true) :
    (sendData data s).2.csum = xorBytes s.csum data ∧
    (sendData data s).2.idx = s.idx + BitVec.ofNat 8 data.length ∧ (sendData data s).2.cfg = s.cfg := by
  induction data generalizing s with
  | nil => simp [sendData, xorBytes]
  | cons b bs ih =>
    unfold sendData at h ⊢
    obtain ⟨_, h2⟩ := andThen_true h
    rw [h2] at h ⊢
    obtain ⟨k1, k2, k3⟩ := ih _ h
    obtain ⟨e1, e2, e3⟩ := enc_registers b (s.setCsum (s.csum ^^^ b))
    refine ⟨?_, ?_, ?_⟩
    · rw [k1, State.setIdx_csum, e1]; rfl
    · rw [k2, State.setIdx_idx, e2, List.length_cons, BitVec.ofNat_add, State.setCsum_idx, BitVec.add_assoc]
      congr 1
      exact BitVec.add_comm _ _
    · rw [k3]; exact e3

/-! ### Frames -/

theorem escapeBody_append (c : Config) (xs ys : List Byte) :
    escapeBody c (xs ++ ys) = escapeBody c xs ++ escapeBody c ys := by
  simp [escapeBody]

@[simp] theorem escapeBody_singleton (c : Config) (x : Byte) : escapeBody c [x] = escapeByte c x := by
  simp [escapeBody]

theorem rawFrame_eq (c : Config) (m : Marker) (seq x : Byte) (data : List Byte) :
    rawFrame c m seq x data =
      [markerValue c m] ++ (escapeByte c seq ++ (escapeByte c x ++ (escapeByte c (lengthByte data) ++
        (escapeBody c data ++ escapeByte c (frameChecksum c seq x data))))) := by
  simp [rawFrame, escapeFrame, frameBytes, escapeBody]

/-- `sendBytes` from the payload on: the payload and the checksum the accumulator has come to. -/
theorem sendTail_offered (data : List Byte) (s : State) :
    Offered s (escapeBody s.cfg data ++ escapeByte s.cfg (xorBytes s.csum data))
      (andThen (sendData data (s.setIdx 0)) fun t => enc t.csum t) := by
  have h1 : Offered s (escapeBody s.cfg data) (sendData data (s.setIdx 0)) :=
    offered_registers rfl (sendData_offered data (s.setIdx 0))
  refine offered_andThen h1 (fun h => ?_)
  obtain ⟨k1, _, k3⟩ := sendData_registers _ _ h
  rw [State.setIdx_csum] at k1
  rw [State.setIdx_cfg] at k3
  rw [k1, ← k3]
  exact enc_offered _ _

/-- One header byte of a frame, with its checksum term, before the rest. -/
theorem sendField_offered {s : State} {b sum : Byte} {rest : List Byte} {f : State → Bool × State}
    (h : ∀ t : State, t.cfg = s.cfg → t.csum = sum → Offered t rest (f t)) :
    Offered s (escapeByte s.cfg b ++ rest) (andThen (enc b (s.setCsum sum)) f) := by
  refine offered_andThen (enc_offered_from b rfl) (fun _ => ?_)
  obtain ⟨e1, _, e3⟩ := enc_registers b (s.setCsum sum)
  exact h _ e3 e1

theorem sendBytes_offered (m : Marker) (seq x : Byte) (data : List Byte) (s : State) :
    Offered s (rawFrame s.cfg m seq x data) (sendBytes m seq x data s) := by
  rw [rawFrame_eq]
  unfold sendBytes
  refine offered_andThen (transportTx_offered _ _) (fun _ => ?_)
  obtain ⟨_, _, e⟩ := transportTx_registers (markerValue s.cfg m) s
  generalize (transportTx (markerValue s.cfg m) s).2 = s0 at *
  rw [← e]
  refine sendField_offered (fun s1 c1 k1 => ?_)
  rw [← c1]
  refine sendField_offered (fun s2 c2 k2 => ?_)
  rw [← c2]
  refine sendField_offered (fun s3 c3 k3 => ?_)
  rw [← c3]
  have hs : frameChecksum s3.cfg seq x data = xorBytes s3.csum data := by
    rw [k3, k2, k1, c3, c2]
    rfl
  rw [hs]
  exact sendTail_offered data s3

/-- A header byte of a frame that was sent, and what follows it. -/
theorem sendField_done {s : State} {b sum : Byte} {f : State → Bool × State} {P : State → Prop}
    (h : (andThen (enc b (s.setCsum sum)) f).1 = true)
    (hf : ∀ t : State, t.cfg = s.cfg → t.csum = sum → (f t).1 = true → P (f t).2) :
    P (andThen (enc b (s.setCsum sum)) f).2 := by
  obtain ⟨_, e⟩ := andThen_true h
  obtain ⟨e1, _, e3⟩ := enc_registers b (s.setCsum sum)
  rw [e] at h ⊢
  exact hf _ e3 e1 h

/-- After a complete send `CSUM` is the frame's checksum and `IDX` its length (R153, R176). -/
theorem sendBytes_registers (m : Marker) (seq x : Byte) (data : List Byte) (s : State)
    (h : (sendBytes m seq x data s).1 = true) :
    (sendBytes m seq x data s).2.csum = frameChecksum s.cfg seq x data ∧
    (sendBytes m seq x data s).2.idx = lengthByte data := by
  unfold sendBytes at h ⊢
  obtain ⟨_, e⟩ := andThen_true h
  rw [e] at h ⊢
  obtain ⟨_, _, t3⟩ := transportTx_registers (markerValue s.cfg m) s
  generalize (transportTx (markerValue s.cfg m) s).2 = s0 at *
  clear e
  refine sendField_done (P := fun t => t.csum = frameChecksum s.cfg seq x data ∧ t.idx = lengthByte data) h
    (fun s1 c1 k1 h => ?_)
  refine sendField_done (P := fun t => t.csum = frameChecksum s.cfg seq x data ∧ t.idx = lengthByte data) h
    (fun s2 c2 k2 h => ?_)
  refine sendField_done (P := fun t => t.csum = frameChecksum s.cfg seq x data ∧ t.idx = lengthByte data) h
    (fun s3 c3 k3 h => ?_)
  obtain ⟨hd, e⟩ := andThen_true h
  obtain ⟨d1, d2, _⟩ := sendData_registers _ _ hd
  rw [e]
  rw [enc_registers _ _ |>.1, (enc_registers _ _).2.1, d1, d2, State.setIdx_csum, State.setIdx_idx, k3, k2, k1, c2, c1, t3]
  exact ⟨rfl, BitVec.zero_add _⟩

/-- What `SENDFRAME` does, all of it: the accepted part of the frame is on the wire, with a flush when it is the whole
frame, and the result says which (R176 to R178). -/
theorem sendFrame_spec (m : Marker) (seq x : Byte) (data : List Byte) (s : State) :
    (sendFrame m seq x data s).1 =
      (if takesAll s (rawFrame s.cfg m seq x data) then SendResult.sent else .cutShort) ∧
    (sendFrame m seq x data s).2 = { s with
      csum := (sendFrame m seq x data s).2.csum, idx := (sendFrame m seq x data s).2.idx
      tx := sentTrace s (rawFrame s.cfg m seq x data)
      txAnswers := answersAfter s (rawFrame s.cfg m seq x data).length } := by
  obtain ⟨h1, h2⟩ := sendBytes_offered m seq x data s
  unfold sendFrame
  generalize sendBytes m seq x data s = r at *
  obtain ⟨ok, t⟩ := r
  simp only at h1 h2 ⊢
  subst h1
  unfold sentTrace
  by_cases h : takesAll s (rawFrame s.cfg m seq x data) = true
  · have h' := (takesAll_iff s _).1 h
    simp only [h, if_true, h']
    refine ⟨trivial, ?_⟩
    rw [h2]
    simp [transportFlush, State.pushTx, h']
  · have h' : ¬ taken s (rawFrame s.cfg m seq x data).length = (rawFrame s.cfg m seq x data).length :=
      fun e => h ((takesAll_iff s _).2 e)
    rw [if_neg h, if_neg h, if_neg h']
    refine ⟨rfl, ?_⟩
    rw [List.append_nil]
    exact h2

/-- After a complete frame `CSUM` is its checksum and `IDX` its length (R153, R176). -/
theorem sendFrame_registers (m : Marker) (seq x : Byte) (data : List Byte) (s : State)
    (h : takesAll s (rawFrame s.cfg m seq x data) = true) :
    (sendFrame m seq x data s).2.csum = frameChecksum s.cfg seq x data ∧
    (sendFrame m seq x data s).2.idx = lengthByte data := by
  have h1 : (sendBytes m seq x data s).1 = true := (sendBytes_offered m seq x data s).1.trans h
  unfold sendFrame
  simp only [h1, if_true, transportFlush_csum, transportFlush_idx]
  exact sendBytes_registers m seq x data s h1

/-- An error exit is what R266 to R270 and R277 say it is, and nothing else. -/
theorem raise_errorExit (code : ErrCode) (line : Half) (s : State) : ErrorExit s (raise code line s) code line := by
  unfold raise errFrame
  obtain ⟨h1, h2⟩ := sendFrame_spec .sof s.seq (errByte s.cfg code) (lineBytes line)
    (s.loadError line (errByte s.cfg code))
  generalize sendFrame .sof s.seq (errByte s.cfg code) (lineBytes line) (s.loadError line (errByte s.cfg code)) = r at *
  obtain ⟨res, t⟩ := r
  simp only at h1 h2 ⊢
  have e1 : takesAll (s.loadError line (errByte s.cfg code)) = takesAll s := rfl
  rw [State.loadError_cfg, e1] at h1
  rw [h1]
  unfold ErrorExit rawError
  generalize hr : rawFrame s.cfg .sof s.seq (errByte s.cfg code) (lineBytes line) = raw at *
  have e2 : endPoll (errorStatus (if takesAll s raw then SendResult.sent else .cutShort) (errByte s.cfg code) line) t =
      endPoll (if takesAll s raw then .errorSent (errByte s.cfg code) line
        else .errorCutShort (errByte s.cfg code) line) t := by
    split <;> rfl
  rw [e2, h2, State.loadError_cfg, hr]
  rfl

end Sys2Proof.Machine
end

