-- ==== Sys2Proof/Laws/Codec.lean ====
section
/-! SUPPORT. The frame codec under a legal configuration: reserved bytes, `DEC` of an encoded byte, and operations that
do not look at the sequencer's state or the result port. -/

namespace Sys2Proof.Machine

/-- The markers of a legal configuration (R8). -/
theorem legal_markers {c : Config} (h : c.legal = true) :
    c.sof ≠ c.sos ∧ c.sof ≠ c.esc ∧ c.sos ≠ c.esc ∧ c.reserved (c.sof - 1) = false ∧
    c.reserved (c.esc - 1) = false ∧ (c.hasSif = true → c.reserved (c.sos - 1) = false) := by
  simp only [Config.legal, Config.markersLegal, Bool.and_eq_true, bne_iff_ne, Bool.not_eq_true', Bool.or_eq_true] at h
  obtain ⟨⟨⟨⟨⟨⟨⟨⟨⟨h1, h2⟩, h3⟩, h4⟩, h5⟩, h6⟩, -⟩, -⟩, -⟩, -⟩ := h
  refine ⟨h1, h2, h3, h4, h5, fun hs => ?_⟩
  rcases h6 with h6 | h6
  · rw [hs] at h6; cases h6
  · exact h6

theorem reserved_false {c : Config} {v : Byte} (h : c.reserved v = false) :
    v ≠ c.sof ∧ v ≠ c.esc ∧ ¬ (c.hasSif = true ∧ v = c.sos) := by
  simp only [Config.reserved, Bool.or_eq_false_iff, beq_eq_false_iff_ne, Bool.and_eq_false_iff] at h
  obtain ⟨⟨h1, h2⟩, h3⟩ := h
  refine ⟨h1, h2, fun ⟨a, b⟩ => ?_⟩
  rcases h3 with h3 | h3
  · rw [a] at h3; cases h3
  · exact h3 b

theorem reserved_true {c : Config} {v : Byte} (h : c.reserved v = true) :
    v = c.sof ∨ v = c.esc ∨ c.hasSif = true ∧ v = c.sos := by
  simp only [Config.reserved, Bool.or_eq_true, beq_iff_eq, Bool.and_eq_true] at h
  rcases h with (h | h) | h
  · exact .inl h
  · exact .inr (.inl h)
  · exact .inr (.inr h)

/-- A delimiter is not `ESC` (R8). -/
theorem delimiter_ne_esc {c : Config} (h : c.legal = true) {v : Byte} (hv : v = c.sof ∨ c.hasSif = true ∧ v = c.sos) :
    v ≠ c.esc := by
  obtain ⟨_, m2, m3, _⟩ := legal_markers h
  rcases hv with rfl | ⟨_, rfl⟩
  · exact m2
  · exact m3

theorem plainResult_plain {c : Config} {v : Byte} (h : c.reserved v = false) : plainResult c v = .byte v := by
  obtain ⟨h1, _, h3⟩ := reserved_false h
  exact if_neg (fun e => e.elim h1 h3)

/-- `DEC` of the raw bytes of a logical byte is that byte (R137). -/
theorem dec_escapeByte {s : State} {b : Byte} {rest : List RxEvent}
    (h : s.rx = (escapeByte s.cfg b).map .byte ++ rest) : dec s = (.byte b, afterRead s rest 0 s.tasks) := by
  unfold escapeByte at h
  split at h
  · rw [dec_pair (x := b - 1) h, BitVec.sub_add_cancel]
    rfl
  · rename_i hb
    have hb : s.cfg.reserved b = false := by simpa using hb
    rw [dec_plain (v := b) h (reserved_false hb).2.1, plainResult_plain hb]
    rfl

theorem escapeBody_cons (c : Config) (b : Byte) (bs : List Byte) (rest : List RxEvent) :
    (escapeBody c (b :: bs)).map RxEvent.byte ++ rest =
      (escapeByte c b).map .byte ++ ((escapeBody c bs).map .byte ++ rest) := by
  simp [escapeBody]

theorem escapeBody_snoc (c : Config) (l : List Byte) (k : Byte) (rest : List RxEvent) :
    (escapeBody c (l ++ [k])).map RxEvent.byte ++ rest =
      (escapeBody c l).map .byte ++ ((escapeByte c k).map .byte ++ rest) := by
  simp [escapeBody]

/-! ### Reads look at the receive queue alone -/

theorem rawrdLoop_setFp (n : Nat) (s : State) (f : Fp) :
    rawrdLoop n (s.setFp f) = ((rawrdLoop n s).1, (rawrdLoop n s).2.setFp f) := by
  induction n generalizing s with
  | zero => unfold rawrdLoop; rw [State.setFp_rx]; split <;> rfl
  | succ n ih =>
    unfold rawrdLoop
    rw [State.setFp_rx]
    split
    · rfl
    · exact ih ((transportTask s).setTcnt (s.tcnt + 1))

theorem rawrd_setFp (s : State) (f : Fp) : rawrd (s.setFp f) = ((rawrd s).1, (rawrd s).2.setFp f) :=
  rawrdLoop_setFp s.cfg.timeoutWindow (s.setTcnt 0) f

theorem dec_setFp (s : State) (f : Fp) : dec (s.setFp f) = ((dec s).1, (dec s).2.setFp f) := by
  unfold dec
  rw [rawrd_setFp]
  rcases rawrd s with ⟨r, s1⟩
  cases r with
  | byte v =>
    simp only [State.setFp_cfg]
    by_cases h : v = s1.cfg.esc
    · simp only [h, if_true, rawrd_setFp]
    · simp only [h, if_false]
  | timeout => rfl
  | escError => rfl

theorem rawrdLoop_answer (n : Nat) (s : State) (q : Result) :
    rawrdLoop n (s.answer q) = ((rawrdLoop n s).1, (rawrdLoop n s).2.answer q) := by
  induction n generalizing s with
  | zero => unfold rawrdLoop; rw [State.answer_rx]; split <;> rfl
  | succ n ih =>
    unfold rawrdLoop
    rw [State.answer_rx]
    split
    · rfl
    · exact ih ((transportTask s).setTcnt (s.tcnt + 1))

theorem rawrd_answer (s : State) (q : Result) : rawrd (s.answer q) = ((rawrd s).1, (rawrd s).2.answer q) :=
  rawrdLoop_answer s.cfg.timeoutWindow (s.setTcnt 0) q

/-! ### Sending does not look at the result port -/

/-- A send that neither reads nor writes the result port. -/
def PortBlind (f : State → Bool × State) : Prop := ∀ s q, f (s.answer q) = ((f s).1, (f s).2.answer q)

theorem portBlind_andThen {f g : State → Bool × State} (hf : PortBlind f) (hg : PortBlind g) :
    PortBlind (fun s => andThen (f s) g) := by
  intro s q
  simp only [hf s q]
  unfold andThen
  simp only
  split
  · exact hg _ _
  · rfl

theorem portBlind_after {f : State → Bool × State} (hf : PortBlind f) (g : State → State)
    (hg : ∀ s q, g (s.answer q) = (g s).answer q) : PortBlind (fun s => f (g s)) := by
  intro s q
  simp only [hg]
  exact hf _ _

theorem portBlind_transportTx (b : Byte) : PortBlind (transportTx b) := by
  intro s q
  unfold transportTx transportTxUp
  rw [State.answer_link, State.answer_txAnswers]
  split
  · split <;> rfl
  · rfl

theorem portBlind_enc (b : Byte) : PortBlind (enc b) := by
  intro s q
  unfold enc
  rw [State.answer_cfg]
  split
  · exact portBlind_andThen (portBlind_transportTx _) (portBlind_transportTx _) s q
  · exact portBlind_transportTx _ s q

theorem portBlind_sendData (data : List Byte) : PortBlind (sendData data) := by
  induction data with
  | nil => intro s q; rfl
  | cons b bs ih =>
    exact portBlind_andThen (portBlind_after (portBlind_enc b) (fun s => s.setCsum (s.csum ^^^ b)) (fun _ _ => rfl))
      (portBlind_after ih (fun s => s.setIdx (s.idx + 1)) (fun _ _ => rfl))

theorem portBlind_sendBytes (m : Marker) (seq x : Byte) (data : List Byte) : PortBlind (sendBytes m seq x data) := by
  intro s q
  have h5 := portBlind_andThen
    (portBlind_after (portBlind_sendData data) (fun s => s.setIdx 0) (fun _ _ => rfl))
    (g := fun s => enc s.csum s) (fun s q => portBlind_enc s.csum s q)
  have h4 := portBlind_andThen (portBlind_after (portBlind_enc (lengthByte data))
    (fun s => s.setCsum (s.csum ^^^ lengthTerm s.cfg (lengthByte data))) (fun _ _ => rfl)) h5
  have h3 := portBlind_andThen (portBlind_after (portBlind_enc x)
    (fun s => s.setCsum (s.csum ^^^ codeTerm s.cfg x)) (fun _ _ => rfl)) h4
  have h2 := portBlind_andThen (portBlind_after (portBlind_enc seq) (fun s => s.setCsum seq) (fun _ _ => rfl)) h3
  exact portBlind_andThen (portBlind_transportTx (markerValue s.cfg m)) h2 s q

theorem sendFrame_answer (m : Marker) (seq x : Byte) (data : List Byte) (s : State) (q : Result) :
    sendFrame m seq x data (s.answer q) = ((sendFrame m seq x data s).1, (sendFrame m seq x data s).2.answer q) := by
  unfold sendFrame
  rw [portBlind_sendBytes]
  simp only
  split <;> rfl

/-- An error exit does not depend on what was on the result port. -/
theorem raise_answer (code : ErrCode) (line : Half) (s : State) (q : Result) :
    raise code line (s.answer q) = raise code line s := by
  unfold raise errFrame
  have h := sendFrame_answer .sof s.seq (errByte s.cfg code) (lineBytes line) (s.loadError line (errByte s.cfg code)) q
  have e : (s.answer q).loadError line (errByte s.cfg code) = (s.loadError line (errByte s.cfg code)).answer q := rfl
  simp only [State.answer_seq, State.answer_cfg]
  rw [e, h]
  rfl

/-- An error exit taken after registers it loads or leaves free, the sequencer's state, `BUSY` or the result port were
changed is an error exit of the state before. -/
theorem errorExit_from {s s' t : State} {code : ErrCode} {line : Half} (h : ErrorExit s' t code line)
    (e : s' = { s with result := s'.result, csum := s'.csum, idx := s'.idx, fp := s'.fp, busy := s'.busy }) :
    ErrorExit s t code line := by
  unfold ErrorExit at *
  rw [e] at h
  exact h

end Sys2Proof.Machine
end

