-- ==== Sys2Proof/Laws/Encoding.lean ====
section
/-! SUPPORT. Bytes joined and split again, the parts of an encoding read back from their bytes and written again, and
the bits of the flags byte. -/

namespace Sys2Proof

/-! ### Bytes of a word -/

theorem low_append {n : Nat} (x : BitVec n) (b : Byte) : (x ++ b).extractLsb' 0 8 = b :=
  BitVec.extractLsb'_append_eq_right

theorem high_append {n : Nat} (x : BitVec n) (b : Byte) (k : Nat) :
    (x ++ b).extractLsb' (k + 8) 8 = x.extractLsb' k 8 := by
  rw [BitVec.extractLsb'_append_eq_of_le (by omega), Nat.add_sub_cancel]

theorem split16_join16 (a b : Byte) : split16 (join16 a b) = [a, b] := by
  have h1 : (join16 a b).extractLsb' 8 8 = a := (high_append a b 0).trans BitVec.extractLsb'_eq_self
  have h2 : (join16 a b).extractLsb' 0 8 = b := low_append a b
  rw [split16, h1, h2]

theorem split32_join32 (a b c d : Byte) : split32 (join32 a b c d) = [a, b, c, d] := by
  have h1 : (join32 a b c d).extractLsb' 24 8 = a :=
    ((high_append (a ++ b ++ c) d 16).trans ((high_append (a ++ b) c 8).trans (high_append a b 0))).trans
      BitVec.extractLsb'_eq_self
  have h2 : (join32 a b c d).extractLsb' 16 8 = b :=
    (high_append (a ++ b ++ c) d 8).trans ((high_append (a ++ b) c 0).trans (low_append a b))
  have h3 : (join32 a b c d).extractLsb' 8 8 = c := (high_append (a ++ b ++ c) d 0).trans (low_append (a ++ b) c)
  have h4 : (join32 a b c d).extractLsb' 0 8 = d := low_append (a ++ b ++ c) d
  rw [split32, h1, h2, h3, h4]

theorem split40_join40 (a b c d e : Byte) : split40 (join40 a b c d e) = [a, b, c, d, e] := by
  have hd : ∀ k, (join40 a b c d e).extractLsb' (k + 8) 8 = (join32 a b c d).extractLsb' k 8 :=
    fun k => high_append (a ++ b ++ c ++ d) e k
  have h0 : (join40 a b c d e).extractLsb' 0 8 = e := low_append (a ++ b ++ c ++ d) e
  have h := split32_join32 a b c d
  rw [split32] at h
  rw [split40, hd 24, hd 16, hd 8, hd 0, h0]
  exact congrArg (· ++ [e]) h

/-- The bytes of a half word, by name. -/
theorem split16_cases (x : Half) : ∃ a b, split16 x = [a, b] ∧ join16 a b = x :=
  ⟨_, _, rfl, BitVec.extractLsb'_append_extractLsb'⟩

/-- The bytes of an offset, by name. -/
theorem split32_cases (x : Offset) : ∃ a b c d, split32 x = [a, b, c, d] ∧ join32 a b c d = x := by
  refine ⟨_, _, _, _, rfl, ?_⟩
  unfold join32
  rw [BitVec.extractLsb'_append_extractLsb'_eq_extractLsb' (by omega),
    BitVec.extractLsb'_append_extractLsb'_eq_extractLsb' (by omega),
    BitVec.extractLsb'_append_extractLsb'_eq_extractLsb' (by omega)]
  exact BitVec.extractLsb'_eq_self

/-- The bytes of a store address or size, by name. -/
theorem split40_cases (x : BitVec 40) : ∃ a b c d e, split40 x = [a, b, c, d, e] ∧ join40 a b c d e = x := by
  refine ⟨_, _, _, _, _, rfl, ?_⟩
  unfold join40
  rw [BitVec.extractLsb'_append_extractLsb'_eq_extractLsb' (by omega),
    BitVec.extractLsb'_append_extractLsb'_eq_extractLsb' (by omega),
    BitVec.extractLsb'_append_extractLsb'_eq_extractLsb' (by omega),
    BitVec.extractLsb'_append_extractLsb'_eq_extractLsb' (by omega)]
  exact BitVec.extractLsb'_eq_self

/-- The header bytes of an offset, by name (R73). -/
theorem splitOffset_cases (e : Endian) (x : Offset) :
    ∃ a b c d, splitOffset e x = [a, b, c, d] ∧ joinOffset e a b c d = x := by
  obtain ⟨a, b, c, d, h1, h2⟩ := split32_cases x
  cases e
  · exact ⟨d, c, b, a, by rw [splitOffset, h1]; rfl, h2⟩
  · exact ⟨a, b, c, d, h1, h2⟩

theorem splitOffset_joinOffset (e : Endian) (a b c d : Byte) :
    splitOffset e (joinOffset e a b c d) = [a, b, c, d] := by
  cases e
  · simp only [splitOffset, joinOffset, split32_join32]; rfl
  · exact split32_join32 a b c d

theorem join16_zero_toNat (b : Byte) : (join16 0 b).toNat = b.toNat := by
  show ((0 : Byte) ++ b).toNat = b.toNat
  rw [BitVec.toNat_append]
  simp

theorem byte_eq_ofNat {b : Byte} {n : Nat} (h : b.toNat = n) : b = BitVec.ofNat 8 n := by
  rw [← h, BitVec.ofNat_toNat, BitVec.setWidth_eq]

theorem lengthByte_toNat {p : List Byte} (h : p.length ≤ 255) : (Machine.lengthByte p).toNat = p.length := by
  simp only [Machine.lengthByte, BitVec.toNat_ofNat]
  omega

theorem lengthByte_of_toNat {p : List Byte} {len : Byte} (h : p.length = len.toNat) : Machine.lengthByte p = len := by
  simp [Machine.lengthByte, h]

/-- The diagnostic line as two bytes: quotient and remainder by 256, never by 255 (R72, R159). -/
theorem lineBytes_eq (line : Half) :
    Machine.lineBytes line = [BitVec.ofNat 8 (line.toNat / 256), BitVec.ofNat 8 line.toNat] := by
  have h1 : Machine.lineHigh line = BitVec.ofNat 8 (line.toNat / 256) := by
    apply BitVec.eq_of_toNat_eq
    simp [Machine.lineHigh, Nat.shiftRight_eq_div_pow]
  have h2 : Machine.lineLow line = BitVec.ofNat 8 line.toNat := by
    apply BitVec.eq_of_toNat_eq
    simp [Machine.lineLow]
  rw [← h1, ← h2]
  rfl

/-! ### Frames and operands, written and read back -/

theorem parseBody_frame (seq x : Byte) (p : List Byte) (k : Byte) (h : p.length ≤ 255) :
    parseBody (seq :: x :: Machine.lengthByte p :: (p ++ [k])) = .ok (seq, x, p, k) := by
  simp [parseBody, lengthByte_toNat h]

theorem parseData_dataBytes (p : List Byte) (h : p.length ≤ 255) : parseData (dataBytes p) = .ok p := by
  show (if p.length < (Machine.lengthByte p).toNat then _ else _) = _
  rw [lengthByte_toNat h, if_neg (Nat.lt_irrefl _), if_neg (Nat.lt_irrefl _)]

theorem joinBool_splitBool (b : Bool) : joinBool (splitBool b) = .ok b := by
  cases b <;> decide

theorem parseCall_callBytes (l w : Bool) (o : Offset) (c : Byte) :
    parseCall (callBytes l w o c) = .ok (l, w, o, c) := by
  obtain ⟨a, b, d, e, h1, h2⟩ := split32_cases o
  simp only [callBytes, h1, List.cons_append, List.nil_append, parseCall, joinBool_splitBool, h2]

theorem parseBlob_blobBytes (b s : BitVec 40) (w : Bool) (r : List Byte) :
    parseBlob (blobBytes b s w ++ r) = .ok (b, s, w, r) := by
  obtain ⟨a1, a2, a3, a4, a5, h1, h2⟩ := split40_cases b
  obtain ⟨b1, b2, b3, b4, b5, h3, h4⟩ := split40_cases s
  simp [blobBytes, h1, h3, parseBlob, joinBool_splitBool, h2, h4]

theorem parseChunked_chunkedBytes (h : ChunkedHandler) (r : List Byte) :
    parseChunked (chunkedBytes h ++ r) = .ok (h, r) := by
  cases h with
  | props => rfl
  | app id => rfl
  | blob b s w =>
    show parseChunked ((1 : Byte) :: (blobBytes b s w ++ r)) = _
    unfold parseChunked
    simp [parseBlob_blobBytes]

theorem parseBounded_boundedBytes (h : BoundedHandler) (r : List Byte) :
    parseBounded (boundedBytes h ++ r) = .ok (h, r) := by
  cases h <;> rfl

/-- No earlier site has the value, so the decoder does not stop at one. -/
theorem siteIsFirst_spec {c : Config} {k : Nat} (h : siteIsFirst c k = true) {line : Half}
    (hk : c.lines[k]? = some line) : ∀ j, j < k → c.lines[j]? ≠ some line := by
  intro j hj e
  unfold siteIsFirst at h
  rw [hk] at h
  simp only [Bool.not_eq_true', List.contains_eq_mem, decide_eq_false_iff_not] at h
  exact h (List.mem_iff_getElem?.2 ⟨j, by rw [List.getElem?_take, if_pos hj]; exact e⟩)

/-! ### Bytes that were read, written again -/

theorem bytes_of_parseBody {bs : List Byte} {q x k : Byte} {p : List Byte} (h : parseBody bs = .ok (q, x, p, k)) :
    bs = q :: x :: Machine.lengthByte p :: (p ++ [k]) := by
  unfold parseBody at h
  split at h
  · rename_i q' x' len rest
    split at h
    · cases h
    · rename_i k' hd
      cases h
      have hl : rest.length = len.toNat + 1 := by
        have := congrArg List.length hd
        simp only [List.length_drop, List.length_singleton] at this
        omega
      have hr : rest = rest.take len.toNat ++ [k] := by rw [← hd, List.take_append_drop]
      have h2 : Machine.lengthByte (rest.take len.toNat) = len :=
        lengthByte_of_toNat (by rw [List.length_take, hl]; omega)
      rw [h2, ← hr]
    · cases h
  · cases h

theorem bytes_of_parseData {bs d : List Byte} (h : parseData bs = .ok d) : bs = dataBytes d := by
  unfold parseData at h
  split at h
  · cases h
  · rename_i len data
    split at h
    · cases h
    · split at h
      · cases h
      · cases h
        rw [dataBytes, lengthByte_of_toNat (len := len) (by omega)]

theorem byte_of_joinBool {b : Byte} {v : Bool} (h : joinBool b = .ok v) : splitBool v = b := by
  unfold joinBool at h
  split at h
  · rename_i e; cases h; rw [e]; rfl
  · split at h
    · rename_i e; cases h; rw [e]; rfl
    · cases h

theorem bytes_of_parseCall {bs : List Byte} {l w : Bool} {o : Offset} {c : Byte} (h : parseCall bs = .ok (l, w, o, c)) :
    callBytes l w o c = bs := by
  unfold parseCall at h
  split at h
  · split at h
    · rename_i h1 h2
      cases h
      unfold callBytes
      rw [split32_join32, byte_of_joinBool h1, byte_of_joinBool h2]
      rfl
    · cases h
  · cases h

theorem bytes_of_parseBlob {bs r : List Byte} {b s : BitVec 40} {w : Bool} (h : parseBlob bs = .ok (b, s, w, r)) :
    bs = blobBytes b s w ++ r := by
  unfold parseBlob at h
  split at h
  · split at h
    · cases h
    · rename_i h1
      cases h
      unfold blobBytes
      rw [split40_join40, split40_join40, byte_of_joinBool h1]
      rfl
  · cases h

theorem bytes_of_parseChunked {bs r : List Byte} {k : ChunkedHandler} (h : parseChunked bs = .ok (k, r)) :
    bs = chunkedBytes k ++ r := by
  unfold parseChunked at h
  split at h
  · split at h
    · rename_i e; cases h; rw [byte_eq_ofNat e]; rfl
    · rename_i e
      split at h
      · cases h
      · rename_i h1; cases h; rw [byte_eq_ofNat e, bytes_of_parseBlob h1]; rfl
    · rename_i e; cases h; rw [byte_eq_ofNat e]; rfl
    · cases h
    · cases h
  · cases h

theorem bytes_of_parseBounded {bs r : List Byte} {k : BoundedHandler} (h : parseBounded bs = .ok (k, r)) :
    bs = boundedBytes k ++ r := by
  unfold parseBounded at h
  split at h
  · split at h
    · rename_i e; cases h; rw [byte_eq_ofNat e]; rfl
    · rename_i e; cases h; rw [byte_eq_ofNat e]; rfl
    · rename_i e; cases h; rw [byte_eq_ofNat e]; rfl
    · rename_i e; cases h; rw [byte_eq_ofNat e]; rfl
    · cases h
    · cases h
  · cases h

theorem bytes_of_noOperand {i j : Instr} {bs : List Byte} (h : noOperand i bs = .ok j) : bs = [] ∧ j = i := by
  unfold noOperand at h
  split at h
  · cases h; exact ⟨rfl, rfl⟩
  · cases h

/-! ### The flags byte -/

theorem bitMask_bit : ∀ m k : Fin 8, (Machine.bitMask m).getLsbD k = decide (k = m) := by decide

/-- Only the isLast bit is replaced (R100, R226). -/
theorem withIsLast_bit (c : Config) (f : Byte) (b : Bool) (k : Fin 8) :
    (Machine.withIsLast c f b).getLsbD k = if k = c.isLastBit then b else f.getLsbD k := by
  unfold Machine.withIsLast
  have h := bitMask_bit c.isLastBit k
  cases b
  · rw [if_neg (by decide), BitVec.getLsbD_and, BitVec.getLsbD_not, h]
    by_cases e : k = c.isLastBit <;> simp [e]
  · rw [if_pos rfl, BitVec.getLsbD_or, h]
    by_cases e : k = c.isLastBit <;> simp [e]

end Sys2Proof
end

