-- ==== Sys2Proof/Laws/Memory.lean ====
section
/-! SUPPORT. The laws of the two byte memories: a read after a write, the canonical form, and runs of bytes. -/

namespace Sys2Proof.Machine

/-! ### Cells -/

@[simp] theorem find_nil (k : Nat) : Memory.find [] k = none := rfl

theorem find_cons (a : Nat) (v : Byte) (m : Memory) (k : Nat) :
    Memory.find ((a, v) :: m) k = if k = a then some v else Memory.find m k := rfl

theorem find_put (m : Memory) (k : Nat) (v : Byte) (j : Nat) :
    Memory.find (Memory.put m k v) j = if j = k then some v else Memory.find m j := by
  induction m with
  | nil => simp [Memory.put, find_cons]
  | cons cell m ih =>
    obtain ⟨a, w⟩ := cell
    unfold Memory.put
    split
    · rw [find_cons]
    · split
      · subst_vars; simp only [find_cons]; split <;> rfl
      · simp only [find_cons, ih]
        split
        · split
          · omega
          · rfl
        · rfl

theorem find_drop (m : Memory) (k j : Nat) :
    Memory.find (Memory.drop m k) j = if j = k then none else Memory.find m j := by
  induction m with
  | nil => simp [Memory.drop]
  | cons cell m ih =>
    obtain ⟨a, w⟩ := cell
    unfold Memory.drop at ih ⊢
    by_cases h : a = k
    · subst h
      simp only [List.filter_cons, bne_self_eq_false, Bool.false_eq_true, if_false, ih, find_cons]
      split <;> rfl
    · have hb : (a != k) = true := by simpa using h
      simp only [List.filter_cons, hb, if_true, find_cons, ih]
      split
      · split
        · omega
        · rfl
      · rfl

theorem mem_put {m : Memory} {k : Nat} {v : Byte} {c : Host.Cell} (h : c ∈ Memory.put m k v) :
    c = (k, v) ∨ c ∈ m := by
  induction m with
  | nil => simpa [Memory.put] using h
  | cons cell m ih =>
    obtain ⟨a, w⟩ := cell
    unfold Memory.put at h
    split at h
    · simpa using h
    · split at h
      · rcases List.mem_cons.1 h with h | h
        · exact .inl h
        · exact .inr (List.mem_cons_of_mem _ h)
      · rcases List.mem_cons.1 h with h | h
        · exact .inr (h ▸ List.mem_cons_self)
        · rcases ih h with h | h
          · exact .inl h
          · exact .inr (List.mem_cons_of_mem _ h)

/-! ### The canonical form -/

theorem wf_nil : Memory.wf [] = true := rfl

theorem wf_cons {a : Nat} {v : Byte} {m : Memory} :
    Memory.wf ((a, v) :: m) = true ↔ (∀ c ∈ m, a < c.1) ∧ Memory.wf m = true := by
  simp [Memory.wf]

theorem put_wf {m : Memory} (k : Nat) (v : Byte) (h : Memory.wf m = true) : Memory.wf (Memory.put m k v) = true := by
  induction m with
  | nil => simp [Memory.put, Memory.wf]
  | cons cell m ih =>
    obtain ⟨a, w⟩ := cell
    have h' := wf_cons.1 h
    unfold Memory.put
    split
    · rename_i hk
      refine wf_cons.2 ⟨fun c hc => ?_, h⟩
      rcases List.mem_cons.1 hc with rfl | hc
      · exact hk
      · exact lt_trans hk (h'.1 c hc)
    · split
      · subst_vars; exact wf_cons.2 h'
      · rename_i h1 h2
        refine wf_cons.2 ⟨fun c hc => ?_, ih h'.2⟩
        rcases mem_put hc with rfl | hc
        · show a < k; omega
        · exact h'.1 c hc

theorem drop_wf {m : Memory} (k : Nat) (h : Memory.wf m = true) : Memory.wf (Memory.drop m k) = true := by
  simp only [Memory.wf, decide_eq_true_eq] at *
  exact h.filter _

/-! ### The PayloadBuffer -/

theorem buffer_wf_iff {b : PayloadBuffer} :
    b.wf = true ↔ Memory.wf b.cells = true ∧ ∀ c ∈ b.cells, c.1 < Config.cap := by
  simp [PayloadBuffer.wf]

theorem write_wf {b : PayloadBuffer} (a : Nat) (v : Byte) (h : b.wf = true) : (b.write a v).wf = true := by
  unfold PayloadBuffer.write
  split
  · rename_i ha
    obtain ⟨h1, h2⟩ := buffer_wf_iff.1 h
    refine buffer_wf_iff.2 ⟨put_wf a v h1, fun c hc => ?_⟩
    rcases mem_put hc with rfl | hc
    · exact ha
    · exact h2 c hc
  · exact h

theorem writeAll_wf {b : PayloadBuffer} (a : Nat) (vs : List Byte) (h : b.wf = true) : (b.writeAll a vs).wf = true := by
  induction vs generalizing a b with
  | nil => exact h
  | cons v vs ih => exact ih (a + 1) (write_wf a v h)

@[simp] theorem write_epoch (b : PayloadBuffer) (a : Nat) (v : Byte) : (b.write a v).epoch = b.epoch := by
  unfold PayloadBuffer.write; split <;> rfl

@[simp] theorem writeAll_epoch (b : PayloadBuffer) (a : Nat) (vs : List Byte) : (b.writeAll a vs).epoch = b.epoch := by
  induction vs generalizing a b with
  | nil => rfl
  | cons v vs ih => simp [PayloadBuffer.writeAll, ih]

/-- Reading a byte after a write: the byte written, if the address exists, else what it read before. -/
theorem read_write (b : PayloadBuffer) (a : Nat) (v : Byte) (k : Nat) :
    (b.write a v).read k = if k = a ∧ a < Config.cap then v else b.read k := by
  unfold PayloadBuffer.write PayloadBuffer.read
  split
  · rename_i ha
    rw [find_put]
    by_cases h : k = a <;> simp [h, ha]
  · rename_i ha
    simp [ha]

/-- Reading a byte after a run of bytes has been written. -/
theorem read_writeAll (b : PayloadBuffer) (a : Nat) (vs : List Byte) (k : Nat) :
    (b.writeAll a vs).read k =
      if a ≤ k ∧ k < a + vs.length ∧ k < Config.cap then vs.getD (k - a) 0 else b.read k := by
  induction vs generalizing a b with
  | nil =>
    rw [if_neg (by simp only [List.length_nil]; omega)]
    rfl
  | cons v vs ih =>
    show ((b.write a v).writeAll (a + 1) vs).read k = _
    rw [ih, read_write]
    simp only [List.length_cons]
    by_cases h1 : a + 1 ≤ k ∧ k < a + 1 + vs.length ∧ k < Config.cap
    · rw [if_pos h1, if_pos (by omega)]
      obtain ⟨j, rfl⟩ : ∃ j, k = a + 1 + j := ⟨k - (a + 1), by omega⟩
      have e1 : a + 1 + j - (a + 1) = j := by omega
      have e2 : a + 1 + j - a = j + 1 := by omega
      rw [e1, e2, List.getD_cons_succ]
    · rw [if_neg h1]
      by_cases h2 : k = a ∧ a < Config.cap
      · obtain ⟨rfl, h2⟩ := h2
        rw [if_pos ⟨rfl, h2⟩, if_pos (by omega), Nat.sub_self, List.getD_cons_zero]
      · rw [if_neg h2, if_neg (by omega)]

theorem read_writeAll_outside (b : PayloadBuffer) (a : Nat) (vs : List Byte) (k : Nat)
    (h : k < a ∨ a + vs.length ≤ k) : (b.writeAll a vs).read k = b.read k := by
  rw [read_writeAll, if_neg (by omega)]

@[simp] theorem range_length (b : PayloadBuffer) (a n : Nat) : (b.range a n).length = n := by
  simp [PayloadBuffer.range]

theorem range_getD (b : PayloadBuffer) (a n i : Nat) (h : i < n) : (b.range a n).getD i 0 = b.read (a + i) := by
  simp [PayloadBuffer.range, List.getD_eq_getElem?_getD, h]

theorem range_succ (b : PayloadBuffer) (a n : Nat) : b.range a (n + 1) = b.range a n ++ [b.read (a + n)] := by
  simp [PayloadBuffer.range, List.range_succ]

theorem range_congr {b b' : PayloadBuffer} {a n : Nat} (h : ∀ i, i < n → b'.read (a + i) = b.read (a + i)) :
    b'.range a n = b.range a n := by
  unfold PayloadBuffer.range
  exact List.map_congr_left (fun i hi => h i (List.mem_range.1 hi))

/-- The bytes just written are read back. -/
theorem range_writeAll (b : PayloadBuffer) (a : Nat) (vs : List Byte) (h : a + vs.length ≤ Config.cap) :
    (b.writeAll a vs).range a vs.length = vs := by
  apply List.ext_getElem
  · simp
  · intro i h1 h2
    have hi : i < vs.length := h2
    simp only [PayloadBuffer.range, List.getElem_map, List.getElem_range]
    rw [read_writeAll, if_pos (by omega), Nat.add_sub_cancel_left]
    simp [List.getD_eq_getElem?_getD, hi]

theorem writeAll_append (b : PayloadBuffer) (a : Nat) (xs ys : List Byte) :
    b.writeAll a (xs ++ ys) = (b.writeAll a xs).writeAll (a + xs.length) ys := by
  induction xs generalizing a b with
  | nil => rfl
  | cons x xs ih =>
    show (b.write a x).writeAll (a + 1) (xs ++ ys) = ((b.write a x).writeAll (a + 1) xs).writeAll _ ys
    rw [ih, List.length_cons]
    congr 1
    omega

/-! ### The store of the fixture handlers -/

theorem store_wf_iff {m : Memory} : storeWf m = true ↔ Memory.wf m = true ∧ ∀ c ∈ m, c.2 ≠ 0 := by
  simp [storeWf]

theorem storeWrite_wf {m : Memory} (a : Nat) (v : Byte) (h : storeWf m = true) : storeWf (storeWrite m a v) = true := by
  obtain ⟨h1, h2⟩ := store_wf_iff.1 h
  unfold storeWrite
  split
  · refine store_wf_iff.2 ⟨drop_wf a h1, fun c hc => h2 c ?_⟩
    exact (List.mem_filter.1 hc).1
  · rename_i hv
    refine store_wf_iff.2 ⟨put_wf a v h1, fun c hc => ?_⟩
    rcases mem_put hc with rfl | hc
    · exact hv
    · exact h2 c hc

theorem storeWriteAll_wf {m : Memory} (a : Nat) (vs : List Byte) (h : storeWf m = true) :
    storeWf (storeWriteAll m a vs) = true := by
  induction vs generalizing a m with
  | nil => exact h
  | cons v vs ih => exact ih (a + 1) (storeWrite_wf a v h)

theorem storeRead_storeWrite (m : Memory) (a : Nat) (v : Byte) (k : Nat) :
    storeRead (storeWrite m a v) k = if k = a then v else storeRead m k := by
  unfold storeRead storeWrite
  split
  · subst_vars
    rw [find_drop]
    split <;> rfl
  · rw [find_put]
    split <;> rfl

theorem storeRead_storeWriteAll (m : Memory) (a : Nat) (vs : List Byte) (k : Nat) :
    storeRead (storeWriteAll m a vs) k = if a ≤ k ∧ k < a + vs.length then vs.getD (k - a) 0 else storeRead m k := by
  induction vs generalizing a m with
  | nil =>
    rw [if_neg (by simp only [List.length_nil]; omega)]
    rfl
  | cons v vs ih =>
    show storeRead (storeWriteAll (storeWrite m a v) (a + 1) vs) k = _
    rw [ih, storeRead_storeWrite]
    simp only [List.length_cons]
    by_cases h1 : a + 1 ≤ k ∧ k < a + 1 + vs.length
    · rw [if_pos h1, if_pos (by omega)]
      obtain ⟨j, rfl⟩ : ∃ j, k = a + 1 + j := ⟨k - (a + 1), by omega⟩
      have e1 : a + 1 + j - (a + 1) = j := by omega
      have e2 : a + 1 + j - a = j + 1 := by omega
      rw [e1, e2, List.getD_cons_succ]
    · rw [if_neg h1]
      by_cases h2 : k = a
      · subst h2
        rw [if_pos rfl, if_pos (by omega), Nat.sub_self, List.getD_cons_zero]
      · rw [if_neg h2, if_neg (by omega)]

@[simp] theorem storeRange_length (m : Memory) (a n : Nat) : (storeRange m a n).length = n := by
  simp [storeRange]

/-- An entry of a memory in canonical form is what the memory reads at its address. -/
theorem find_of_wf {m : Memory} (h : Memory.wf m = true) {c : Host.Cell} (hc : c ∈ m) :
    Memory.find m c.1 = some c.2 := by
  induction m with
  | nil => cases hc
  | cons cell m ih =>
    obtain ⟨a, v⟩ := cell
    obtain ⟨h1, h2⟩ := wf_cons.1 h
    rw [find_cons]
    rcases List.mem_cons.1 hc with rfl | hc
    · simp
    · have := h1 c hc
      rw [if_neg (by omega), ih h2 hc]

end Sys2Proof.Machine
end

