-- ==== Sys2Proof/Laws/Handlers.lean ====
section
/-! SUPPORT. What the handlers and the dispatch do, all of it: the fields they may change, the canonical form of the two
memories, and when they stop. -/

namespace Sys2Proof.Machine

/-- The two memories stay in canonical form from `s` to `t`. -/
def KeepsForm (s t : State) : Prop :=
  (s.buf.wf = true → t.buf.wf = true) ∧ (storeWf s.store = true → storeWf t.store = true)

theorem keepsForm_refl (s : State) : KeepsForm s s := ⟨id, id⟩

theorem keepsForm_write {s t : State} (a : Nat) (vs : List Byte) (hb : t.buf = s.buf.writeAll a vs)
    (hs : t.store = s.store) : KeepsForm s t :=
  ⟨fun h => hb ▸ writeAll_wf a vs h, fun h => hs ▸ h⟩

/-! ### Chunked handlers -/

/-- The bytes of `BUF` below the chunk are the same in `s` and `t`. -/
def KeepsHeader (s t : State) : Prop := ∀ a, a < Config.header → t.bufRead a = s.bufRead a

theorem keepsHeader_chunkWrite {s t : State} (vs : List Byte) (h : t.buf = s.buf.writeAll Config.header vs) :
    KeepsHeader s t := by
  intro a ha
  unfold State.bufRead
  rw [h]
  exact read_writeAll_outside _ _ _ _ (.inl ha)

/-- An outcome of a Chunked call: what it may change. -/
def ChunkCall (s : State) (o : ChunkOutcome) : Prop :=
  ∀ a t, o = .next (a, t) → ChunkFrame s t ∧ KeepsForm s t ∧ KeepsHeader s t ∧ a.clen.toNat ≤ Config.chunkMax

theorem blobRead_call (size : Nat) (off : Offset) (bytes : List Byte) (s : State) :
    ChunkCall s (.next (blobRead size off bytes s)) := by
  intro a t h
  unfold blobRead at h
  split at h
  · cases h
    exact ⟨rfl, keepsForm_refl _, fun _ _ => rfl, Nat.zero_le _⟩
  · cases h
    refine ⟨rfl, keepsForm_write _ _ rfl rfl, keepsHeader_chunkWrite _ rfl, ?_⟩
    have : readCount size off.toNat ≤ 249 := Nat.min_le_left _ _
    show (BitVec.ofNat 8 (readCount size off.toNat)).toNat ≤ 249
    rw [BitVec.toNat_ofNat]
    exact le_trans (Nat.mod_le _ _) this

theorem blobWrite_call (base size : Nat) (writable isLast : Bool) (off : Offset) (clen : Byte) (s : State) :
    ChunkCall s (.next (blobWrite base size writable isLast off clen s)) := by
  intro a t h
  unfold blobWrite at h
  split at h
  · cases h
    exact ⟨rfl, keepsForm_refl _, fun _ _ => rfl, Nat.zero_le _⟩
  · cases h
    exact ⟨rfl, ⟨id, storeWriteAll_wf _ _⟩, fun _ _ => rfl, Nat.zero_le _⟩

theorem chBlob_call (base size : BitVec 40) (writable isLast isWrite : Bool) (off : Offset) (clen : Byte) (s : State) :
    ChunkCall s (.next (chBlob base size writable isLast isWrite off clen s)) := by
  unfold chBlob
  split
  · exact blobWrite_call _ _ _ _ _ _ _
  · exact blobRead_call _ _ _ _

theorem props_call (isLast isWrite : Bool) (off : Offset) (s : State) :
    ChunkCall s (.next (props isLast isWrite off s)) := by
  unfold props
  split
  · intro a t h
    cases h
    exact ⟨rfl, keepsForm_refl _, fun _ _ => rfl, Nat.zero_le _⟩
  · exact blobRead_call _ _ _ _

theorem appChunked_call (id : Byte) (isLast isWrite : Bool) (off : Offset) (clen : Byte) (s : State) :
    ChunkCall s (appChunked id isLast isWrite off clen s) := by
  intro a t h
  unfold appChunked at h
  generalize Config.appChunked id s.appState isLast isWrite off clen (chunkRange s Config.chunkMax) = r at h
  simp only at h
  split at h
  · cases h
  · rename_i hc
    cases h
    exact ⟨rfl, keepsForm_write _ _ rfl rfl, keepsHeader_chunkWrite _ rfl, Nat.not_lt.1 hc⟩

/-- Everything a Chunked call can change: chunk bytes and the handlers' own state; its chunk length is within bounds. -/
theorem hcallC_call (h : ChunkedHandler) (isLast isWrite : Bool) (off : Offset) (clen : Byte) (s : State) :
    ChunkCall s (hcallC h isLast isWrite off clen s) := by
  unfold hcallC
  cases h with
  | props =>
    simp only
    split
    · intro a t h; cases h
    · exact props_call _ _ _ _
  | blob base size writable => exact chBlob_call _ _ _ _ _ _ _ _
  | app id => exact appChunked_call _ _ _ _ _ _

/-! ### Bounded handlers -/

/-- An outcome of a Bounded call: what it may change, and that its return code and length are on the result port. -/
def BoundedCall (s : State) (o : BoundedOutcome) : Prop :=
  ∀ r t, o = .next (r, t) → HandlerFrame s t ∧ KeepsForm s t ∧ t.result = .handler r t.len

theorem echo_call (s : State) : BoundedCall s (.next (echo s)) := by
  intro r t h
  cases h
  exact ⟨rfl, keepsForm_refl _, rfl⟩

theorem getmap_call (s : State) : BoundedCall s (getmap s) := by
  intro r t h
  unfold getmap at h
  split at h
  · cases h
  · cases h
    exact ⟨rfl, keepsForm_write _ _ rfl rfl, rfl⟩

theorem appBounded_call (id : Byte) (s : State) : BoundedCall s (.next (appBounded id s)) := by
  intro r t h
  unfold appBounded at h
  generalize Config.appBounded id s.appState s.len (s.buf.range 0 Config.cap) = r at h
  cases h
  exact ⟨rfl, keepsForm_write _ _ rfl rfl, rfl⟩

theorem manyReturn_call {s0 s : State} {o : ChunkOutcome} (h : ChunkCall s o) (hs : HandlerFrame s0 s)
    (hb : s.buf = s0.buf) (hst : s.store = s0.store) : BoundedCall s0 (manyReturn o) := by
  intro r t ht
  cases o with
  | next q =>
    obtain ⟨a, t1⟩ := q
    obtain ⟨h1, h2, _, _⟩ := h a t1 rfl
    cases ht
    refine ⟨?_, ⟨fun hw => writeAll_wf _ _ (h2.1 (hb ▸ hw)), fun hw => h2.2 (hst ▸ hw)⟩, rfl⟩
    unfold HandlerFrame
    unfold ChunkFrame at h1
    unfold HandlerFrame at hs
    rw [h1, hs]
    rfl
  | fault f => cases ht
  | refused r => cases ht

theorem many_call (s : State) : BoundedCall s (many s) := by
  unfold many
  split
  · intro r t h; cases h
  · split
    · intro r t h
      cases h
      exact ⟨rfl, keepsForm_refl _, rfl⟩
    · simp only
      split
      · intro r t h
        cases h
        exact ⟨rfl, keepsForm_refl _, rfl⟩
      · exact manyReturn_call (s := loadMany (s.setMidx (s.bufRead 0))) (hcallC_call _ _ _ _ _ _) rfl rfl rfl

/-- Everything a Bounded call can change. -/
theorem hcallB_call (h : BoundedHandler) (s : State) : BoundedCall s (hcallB h s) := by
  unfold hcallB
  cases h with
  | echo => exact echo_call s
  | getmap => exact getmap_call s
  | many => exact many_call s
  | app id => exact appBounded_call id s

/-- A Bounded call made by itself is the call's outcome without the return code. -/
theorem boundedDone_next {o : BoundedOutcome} {t : State} : boundedDone o = .next t ↔ ∃ r, o = .next (r, t) := by
  cases o with
  | next q =>
    constructor
    · intro h; cases h; exact ⟨q.1, rfl⟩
    · rintro ⟨r, h⟩; cases h; rfl
  | fault f =>
    constructor
    · intro h; cases h
    · rintro ⟨r, h⟩; cases h
  | refused q =>
    constructor
    · intro h; cases h
    · rintro ⟨r, h⟩; cases h

/-- Everything `DISPATCH` can change. -/
theorem dispatch_call {x : Byte} {s : State} {o : BoundedOutcome} (h : dispatch x s = some o) : BoundedCall s o := by
  unfold dispatch at h
  cases hj : s.cfg.jt[x.toNat]? with
  | none => rw [hj] at h; cases h
  | some b =>
    rw [hj] at h
    cases h
    exact hcallB_call b s

/-! ### When they complete -/

/-- A Chunked call the configuration has a table entry for is not refused, and only an application handler faults. -/
theorem hcallC_completes (h : ChunkedHandler) (isLast isWrite : Bool) (off : Offset) (clen : Byte) (s : State)
    (hp : h = .props → s.cfg.hasProps = true) :
    (∃ a t, hcallC h isLast isWrite off clen s = .next (a, t)) ∨
    (∃ id, h = .app id) ∧ hcallC h isLast isWrite off clen s = .fault .chunkTooLong := by
  cases h with
  | props =>
    refine .inl ⟨(props isLast isWrite off s).1, (props isLast isWrite off s).2, ?_⟩
    simp [hcallC, hp rfl]
  | blob base size writable => exact .inl ⟨_, _, rfl⟩
  | app id =>
    simp only [hcallC, appChunked]
    split
    · exact .inr ⟨⟨id, rfl⟩, rfl⟩
    · exact .inl ⟨_, _, rfl⟩

/-- The entries of a legal configuration's tables belong to features that are there (R11, R36 to R39). -/
theorem legal_tables {c : Config} (h : c.legal = true) :
    (c.hasMany = true → c.jt[c.manyOffset.toNat]? = some .many) ∧
    (BoundedHandler.many ∈ c.jt → c.hasMany = true) ∧ (BoundedHandler.getmap ∈ c.jt → c.hasNames = true) ∧
    (ChunkedHandler.props ∈ c.ct → c.hasProps = true) ∧ c.jt.length ≤ 256 ∧ c.ct.length ≤ 256 ∧
    c.isLastBit ≠ c.isWriteBit := by
  simp only [Config.legal, Config.tablesLegal, Bool.and_eq_true, Bool.or_eq_true, Bool.not_eq_true', bne_iff_ne,
    beq_iff_eq, decide_eq_true_eq, List.contains_eq_mem, decide_eq_false_iff_not] at h
  obtain ⟨-, ⟨⟨⟨⟨⟨⟨⟨h1, h2⟩, h3⟩, h4⟩, h5⟩, h6⟩, h7⟩, h8⟩, h9⟩ := h
  refine ⟨fun h => ?_, fun h => ?_, fun h => ?_, fun h => ?_, h1, h2, h3⟩
  · rcases h4 with h4 | h4
    · rw [h] at h4; cases h4
    · exact h4
  · rcases h5 with h5 | h5
    · exact h5
    · exact absurd h h5.1
  · rcases h6 with h6 | h6
    · exact h6
    · exact absurd h h6
  · rcases h8 with h8 | h8
    · exact h8
    · exact absurd h h8

/-- An outcome that completes, or faults because an application Chunked handler of `c` broke its bound (R225, U4). -/
def CompletesOrFaults {α : Type} (c : Config) (o : Host.Outcome α Fault Refusal) : Prop :=
  (∃ t, o = .next t) ∨ (∃ id, ChunkedHandler.app id ∈ c.ct) ∧ o = .fault .chunkTooLong

/-- Without application Chunked handlers it completes. -/
theorem CompletesOrFaults.builtins {α : Type} {c : Config} {o : Host.Outcome α Fault Refusal}
    (h : CompletesOrFaults c o) (hb : builtinsOnly c = true) : ∃ t, o = .next t := by
  rcases h with h | ⟨⟨id, hi⟩, _⟩
  · exact h
  · have := (List.all_eq_true.1 hb) _ hi
    simp at this

/-- Either way it is a next state or that fault. -/
theorem CompletesOrFaults.weaken {α : Type} {c : Config} {o : Host.Outcome α Fault Refusal}
    (h : CompletesOrFaults c o) : (∃ t, o = .next t) ∨ o = .fault .chunkTooLong :=
  h.imp id And.right

/-- A Bounded call made by itself ends as the call does. -/
theorem CompletesOrFaults.boundedDone {c : Config} {o : BoundedOutcome} (h : CompletesOrFaults c o) :
    CompletesOrFaults c (boundedDone o) := by
  rcases h with ⟨t, rfl⟩ | ⟨hi, rfl⟩
  · exact .inl ⟨t.2, rfl⟩
  · exact .inr ⟨hi, rfl⟩

/-- `MANY` in a legal configuration: it completes, or an application Chunked handler broke its bound (R225, U4). -/
theorem many_completes {s : State} (hc : s.cfg.legal = true) (hm : s.cfg.hasMany = true) :
    CompletesOrFaults s.cfg (many s) := by
  unfold many
  rw [if_neg (by simp [hm])]
  split
  · exact .inl ⟨_, rfl⟩
  · simp only
    split
    · exact .inl ⟨_, rfl⟩
    · rename_i h hh
      have hmem : h ∈ s.cfg.ct := List.mem_of_getElem? hh
      have hp : h = .props → (loadMany (s.setMidx (s.bufRead 0))).cfg.hasProps = true := by
        rintro rfl
        exact (legal_tables hc).2.2.2.1 hmem
      rcases hcallC_completes h _ _ _ _ (loadMany (s.setMidx (s.bufRead 0))) hp with ⟨a, t, e⟩ | ⟨⟨id, rfl⟩, e⟩
      · refine .inl ?_
        simp only [manyCall]
        rw [e]
        exact ⟨_, rfl⟩
      · refine .inr ⟨⟨id, hmem⟩, ?_⟩
        simp only [manyCall]
        rw [e]
        rfl

/-- A table entry of a legal configuration, called. -/
theorem hcallB_completes {s : State} (hc : s.cfg.legal = true) {h : BoundedHandler} (hh : h ∈ s.cfg.jt) :
    CompletesOrFaults s.cfg (hcallB h s) := by
  obtain ⟨_, h2, h3, _⟩ := legal_tables hc
  cases h with
  | echo => exact .inl ⟨_, rfl⟩
  | getmap =>
    refine .inl ?_
    simp only [hcallB, getmap]
    rw [if_neg (by simp [h3 hh])]
    exact ⟨_, rfl⟩
  | many => exact many_completes hc (h2 hh)
  | app id => exact .inl ⟨_, rfl⟩

/-- `DISPATCH` under a legal configuration. -/
theorem dispatch_completes {s : State} {x : Byte} {o : BoundedOutcome} (hc : s.cfg.legal = true)
    (h : dispatch x s = some o) : CompletesOrFaults s.cfg o := by
  unfold dispatch at h
  cases hj : s.cfg.jt[x.toNat]? with
  | none => rw [hj] at h; cases h
  | some b =>
    rw [hj] at h
    cases h
    exact hcallB_completes hc (List.mem_of_getElem? hj)

end Sys2Proof.Machine
end

