-- ==== Sys2Proof/Laws/Steps.lean ====
section
/-! SUPPORT. What every micro-step of a poll keeps: one inversion lemma per operation, composed into one for a whole
poll. -/

namespace Sys2Proof.Machine

/-- What an operation of a poll keeps: the configuration, the SIF agent's registers and the outside; what was received
is only consumed, what was sent is only added to, and the canonical memories and the counter's range stay. -/
structure Keeps (s t : State) : Prop where
  cfg : t.cfg = s.cfg
  rx : t.rx <:+ s.rx
  tx : s.tx <+: t.tx
  sifseq : t.sifseq = s.sifseq
  sif : t.sif = s.sif
  link : t.link = s.link
  inputs : t.inputs = s.inputs
  buffer : s.buf.wf = true → t.buf.wf = true
  store : storeWf s.store = true → storeWf t.store = true
  counter : s.tcnt ≤ s.cfg.timeoutWindow → t.tcnt ≤ s.cfg.timeoutWindow

theorem keeps_trans {s t u : State} (a : Keeps s t) (b : Keeps t u) : Keeps s u where
  cfg := b.cfg.trans a.cfg
  rx := b.rx.trans a.rx
  tx := a.tx.trans b.tx
  sifseq := b.sifseq.trans a.sifseq
  sif := b.sif.trans a.sif
  link := b.link.trans a.link
  inputs := b.inputs.trans a.inputs
  buffer := b.buffer ∘ a.buffer
  store := b.store ∘ a.store
  counter := fun h => by
    have := b.counter (by rw [a.cfg]; exact a.counter h)
    rwa [a.cfg] at this

/-- A state that differs in registers of the exchange alone. -/
theorem keeps_of {s t : State} (h1 : t.cfg = s.cfg) (h2 : t.rx = s.rx) (h3 : t.tx = s.tx) (h4 : t.sifseq = s.sifseq)
    (h5 : t.sif = s.sif) (h6 : t.link = s.link) (h7 : t.inputs = s.inputs) (h8 : t.buf = s.buf)
    (h9 : t.store = s.store) (h10 : t.tcnt = s.tcnt) : Keeps s t :=
  ⟨h1, h2 ▸ List.suffix_refl _, h3 ▸ List.prefix_refl _, h4, h5, h6, h7, fun h => h8 ▸ h, fun h => h9 ▸ h,
    fun h => h10 ▸ h⟩

theorem keeps_refl (s : State) : Keeps s s := keeps_of rfl rfl rfl rfl rfl rfl rfl rfl rfl rfl

theorem keeps_answer (s : State) (q : Result) : Keeps s (s.answer q) :=
  keeps_of rfl rfl rfl rfl rfl rfl rfl rfl rfl rfl

theorem keeps_setFp (s : State) (f : Fp) : Keeps s (s.setFp f) :=
  keeps_of rfl rfl rfl rfl rfl rfl rfl rfl rfl rfl

theorem keeps_afterRead {s : State} {rx : List RxEvent} {k n : Nat} (h : rx <:+ s.rx)
    (hk : k ≤ s.cfg.timeoutWindow) : Keeps s (afterRead s rx k n) :=
  ⟨rfl, h, List.prefix_refl _, rfl, rfl, rfl, rfl, id, id, fun _ => hk⟩

theorem keeps_dec (s : State) : Keeps s (dec s).2 := by
  obtain ⟨rx, k, n, h, hk, _, e⟩ := dec_cases s
  rw [e]
  exact keeps_afterRead h hk

theorem keeps_rawrd (s : State) : Keeps s (rawrd s).2 := by
  obtain ⟨k, hk, rx, h, e, _⟩ := rawrd_cases s
  rw [e]
  exact keeps_afterRead h hk

theorem prefix_sentTrace (s : State) (raw : List Byte) : s.tx <+: sentTrace s raw := by
  unfold sentTrace
  rw [List.append_assoc]
  exact List.prefix_append _ _

theorem keeps_sendFrame (m : Marker) (seq x : Byte) (data : List Byte) (s : State) :
    Keeps s (sendFrame m seq x data s).2 := by
  obtain ⟨_, h⟩ := sendFrame_spec m seq x data s
  rw [h]
  exact ⟨rfl, List.suffix_refl _, prefix_sentTrace s _, rfl, rfl, rfl, rfl, id, id, id⟩

theorem keeps_raise (code : ErrCode) (line : Half) (s : State) : Keeps s (raise code line s) := by
  have h := raise_errorExit code line s
  unfold ErrorExit at h
  rw [h]
  exact ⟨rfl, List.suffix_refl _, prefix_sentTrace s _, rfl, rfl, rfl, rfl, id, id, id⟩

theorem keeps_handler {s t : State} (h : HandlerFrame s t ∧ KeepsForm s t) : Keeps s t := by
  obtain ⟨h1, h2, h3⟩ := h
  unfold HandlerFrame at h1
  refine ⟨?_, ?_, ?_, ?_, ?_, ?_, ?_, h2, h3, ?_⟩
  · rw [h1]
  · rw [h1]
  · rw [h1]
  · rw [h1]
  · rw [h1]
  · rw [h1]
  · rw [h1]
  · rw [h1]; exact id

/-! ### What a state does with a read result -/

theorem keeps_csumResult (r : RdResult) (s : State) : Keeps s (csumResult r s) := by
  unfold csumResult
  cases r with
  | byte v =>
    simp only
    split
    · exact keeps_setFp _ _
    · exact keeps_raise _ _ _
  | timeout => exact keeps_raise _ _ _
  | escError => exact keeps_raise _ _ _

theorem keeps_cmdResult (r : RdResult) (s : State) : Keeps s (cmdResult r s) := by
  unfold cmdResult
  cases r with
  | byte v =>
    have h : Keeps s (captureCmd v s) := keeps_of rfl rfl rfl rfl rfl rfl rfl rfl rfl rfl
    simp only
    split
    · exact keeps_trans h (keeps_raise _ _ _)
    · exact keeps_trans h (keeps_setFp _ _)
  | timeout => exact keeps_raise _ _ _
  | escError => exact keeps_raise _ _ _

theorem keeps_lenResult (r : RdResult) (s : State) : Keeps s (lenResult r s) := by
  cases r with
  | byte v => exact keeps_of rfl rfl rfl rfl rfl rfl rfl rfl rfl rfl
  | timeout => exact keeps_raise _ _ _
  | escError => exact keeps_raise _ _ _

theorem keeps_seqResult (r : RdResult) (s : State) : Keeps s (seqResult r s) := by
  cases r <;> exact keeps_of rfl rfl rfl rfl rfl rfl rfl rfl rfl rfl

theorem keeps_payloadResult {r : RdResult} {s t : State} (h : payloadResult r s = .next t) : Keeps s t := by
  unfold payloadResult at h
  cases r with
  | byte v =>
    simp only at h
    split at h
    · cases h
      exact ⟨rfl, List.suffix_refl _, List.prefix_refl _, rfl, rfl, rfl, rfl, fun h => write_wf _ _ h, id, id⟩
    · cases h
  | timeout => cases h; exact keeps_raise _ _ _
  | escError => cases h; exact keeps_raise _ _ _

theorem keeps_markerResult (r : RdResult) (s : State) : Keeps s (markerResult r s) := by
  unfold markerResult
  split <;> exact keeps_of rfl rfl rfl rfl rfl rfl rfl rfl rfl rfl

theorem keeps_takeMarker {read : State → RdResult × State} (s : State) (hr : Keeps s (read s).2) :
    Keeps s (takeMarker read s) :=
  keeps_trans hr (keeps_trans (keeps_answer _ _) (keeps_markerResult _ _))

theorem keeps_enter (s : State) : Keeps s s.enter := keeps_of rfl rfl rfl rfl rfl rfl rfl rfl rfl rfl

theorem keeps_afterEntry {read : State → RdResult × State} (s : State) (hr : Keeps s.enter (read s.enter).2) :
    Keeps s (afterEntry read s) := by
  unfold afterEntry
  split
  · exact keeps_answer _ _
  · exact keeps_trans (keeps_enter s) (keeps_takeMarker _ hr)

theorem keeps_entryTest {go : State → State} (s : State) (hg : Keeps s (go s)) : Keeps s (entryTest go s) := by
  unfold entryTest
  split
  · exact keeps_answer _ _
  · split
    · exact keeps_answer _ _
    · exact hg

theorem keeps_enterPoll (s : State) : Keeps s (enterPoll s) := by
  refine keeps_entryTest s ?_
  split
  · exact keeps_answer _ _
  · exact keeps_enter s

theorem keeps_takeResult {r : RdResult} {s t : State} (h : takeResult r s = .next t) : Keeps s t := by
  unfold takeResult at h
  cases hf : s.fp <;> rw [hf] at h <;> simp only at h
  · cases h
    split
    · exact keeps_takeMarker s (keeps_refl _)
    · exact keeps_afterEntry s (keeps_refl _)
  · cases h; exact keeps_seqResult _ _
  · cases h; exact keeps_cmdResult _ _
  · cases h; exact keeps_lenResult _ _
  · split at h
    · cases h; exact keeps_trans (keeps_setFp _ _) (keeps_csumResult _ _)
    · exact keeps_payloadResult h
  · cases h; exact keeps_csumResult _ _
  · cases h; exact keeps_refl _
  · cases h; exact keeps_refl _

theorem keeps_deliver {r : RdResult} {s t : State} (h : deliver r s = .next t) : Keeps s t :=
  keeps_trans (keeps_answer s (.read r)) (keeps_takeResult h)

/-- A read result is taken unless a payload byte would have no address. -/
theorem deliver_completes (r : RdResult) (s : State) (h : s.payloadRoom) : ∃ t, deliver r s = .next t := by
  unfold deliver takeResult
  rw [State.answer_fp]
  cases hf : s.fp <;> simp only <;> try exact ⟨_, rfl⟩
  split
  · exact ⟨_, rfl⟩
  · rename_i hi
    unfold payloadResult
    cases r with
    | byte v => exact ⟨_, if_pos ((h hf).resolve_left hi)⟩
    | timeout => exact ⟨_, rfl⟩
    | escError => exact ⟨_, rfl⟩

/-- The row of a read result delivers it. -/
theorem exec_readResult (r : RdResult) (s : State) : exec r.instr s = deliver r s := by cases r <;> rfl

/-! ### Micro-steps -/

theorem keeps_stepRead {s t : State} (h : stepRead s = .next t) : Keeps s t :=
  keeps_trans (keeps_dec s) (keeps_deliver h)

theorem keeps_stepIdle {s t : State} (h : stepIdle s = .next t) : Keeps s t := by
  unfold stepIdle at h
  cases h
  split
  · exact keeps_takeMarker s (keeps_rawrd _)
  · exact keeps_entryTest s (keeps_afterEntry s (keeps_rawrd _))

/-- The two micro-steps of a poll in `Idle` are what the row of `Idle` does at once (R161 to R163, R247). -/
theorem stepIdle_enterPoll {s : State} (hp : s.pollable = true) (he : s.entered = false) :
    enterPoll s = s.enter ∧ stepIdle s = .next (takeMarker rawrd s.enter) ∧
    stepIdle s.enter = .next (takeMarker rawrd s.enter) := by
  unfold State.pollable at hp
  simp only [Bool.and_eq_true, Bool.not_eq_true'] at hp
  obtain ⟨⟨h1, h2⟩, h3⟩ := hp
  refine ⟨?_, ?_, rfl⟩
  · simp [enterPoll, entryTest, transportReady, h1, h2, h3]
  · simp [stepIdle, entryTest, afterEntry, transportReady, h1, h2, h3, he]

theorem keeps_stepPayload {s t : State} (h : stepPayload s = .next t) : Keeps s t := by
  unfold stepPayload at h
  split at h
  · cases h; exact keeps_setFp _ _
  · exact keeps_stepRead h

theorem keeps_bounded {s t : State} {o : BoundedOutcome} {r : Byte} (hc : BoundedCall s o) (h : o = .next (r, t)) :
    Keeps s t :=
  keeps_handler ⟨(hc r t h).1, (hc r t h).2.1⟩

theorem keeps_dispatchTo {x : Byte} {s t : State} (h : dispatchTo x s = .next t) : Keeps s t := by
  unfold dispatchTo at h
  split at h
  · rename_i o ho
    obtain ⟨r, hr⟩ := boundedDone_next.1 h
    exact keeps_bounded (dispatch_call ho) hr
  · cases h; exact keeps_raise _ _ _

theorem keeps_afterHandler (s : State) : Keeps s (afterHandler s) := by
  unfold afterHandler
  split
  · exact keeps_raise _ _ _
  · exact keeps_setFp _ _

theorem keeps_stepDispatch {s t : State} (h : stepDispatch s = .next t) : Keeps s t := by
  unfold stepDispatch at h
  split at h
  · rename_i o ho
    cases o with
    | next q =>
      cases h
      have hr : Keeps q.2 (q.2.setRet q.1) := keeps_of rfl rfl rfl rfl rfl rfl rfl rfl rfl rfl
      exact keeps_trans (keeps_trans (keeps_bounded (dispatch_call ho) rfl) hr) (keeps_afterHandler _)
    | fault f => cases h
    | refused r => cases h
  · cases h; exact keeps_raise _ _ _

theorem keeps_stepSendReply (s : State) : Keeps s (stepSendReply s) :=
  keeps_trans (keeps_sendFrame _ _ _ _ s) (keeps_of rfl rfl rfl rfl rfl rfl rfl rfl rfl rfl)

theorem keeps_fpStep {s t : State} (h : fpStep s = .next t) : Keeps s t := by
  unfold fpStep at h
  cases hf : s.fp <;> rw [hf] at h <;> simp only at h
  · exact keeps_stepIdle h
  · exact keeps_stepRead h
  · exact keeps_stepRead h
  · exact keeps_stepRead h
  · exact keeps_stepPayload h
  · exact keeps_stepRead h
  · exact keeps_stepDispatch h
  · cases h; exact keeps_stepSendReply s

/-- The row of a sequencer state is that state's micro-step. -/
theorem exec_fpState (f : Fp) (s : State) : exec f.instr s = fpStep (s.setFp f) := by cases f <;> rfl

/-! ### Whole polls -/

theorem runToIdle_idle (n : Nat) {s : State} (h : s.fp = .idle) : runToIdle n s = .next s := by
  cases n with
  | zero => rfl
  | succ n => unfold runToIdle; rw [if_pos h]

theorem runToIdle_step (n : Nat) {s u : State} (h : s.fp ≠ .idle) (hs : fpStep s = .next u) :
    runToIdle (n + 1) s = runToIdle n u := by
  conv_lhs => unfold runToIdle
  rw [if_neg h, hs]

theorem keeps_runToIdle (n : Nat) {s t : State} (h : runToIdle n s = .next t) : Keeps s t := by
  induction n generalizing s with
  | zero => cases h; exact keeps_refl _
  | succ n ih =>
    unfold runToIdle at h
    split at h
    · cases h; exact keeps_refl _
    · split at h
      · rename_i h1; exact keeps_trans (keeps_fpStep h1) (ih h)
      · cases h
      · cases h

theorem keeps_poll {s t : State} (h : poll s = .next t) : Keeps s t := by
  unfold poll at h
  split at h
  · cases h; exact keeps_answer _ _
  · split at h
    · cases h; exact keeps_answer _ _
    · split at h
      · cases h; exact keeps_answer _ _
      · exact keeps_trans (keeps_afterEntry s (keeps_rawrd _)) (keeps_runToIdle _ h)

/-! ### The start marker -/

/-- The start-marker read is over once it has been taken. -/
@[simp] theorem takeMarker_entered (read : State → RdResult × State) (s : State) :
    (takeMarker read s).entered = false := by
  unfold takeMarker markerResult
  simp only
  split <;> rfl

@[simp] theorem raise_entered (code : ErrCode) (line : Half) (s : State) : (raise code line s).entered = false := rfl

theorem csumResult_entered (r : RdResult) {s : State} (h : s.entered = false) : (csumResult r s).entered = false := by
  unfold csumResult
  cases r with
  | byte v =>
    simp only
    split
    · exact h
    · rfl
  | timeout => rfl
  | escError => rfl

/-- A read result leaves no start-marker read to come. -/
theorem takeResult_entered {r : RdResult} {s t : State} (h : takeResult r s = .next t) (he : s.entered = false) :
    t.entered = false := by
  unfold takeResult at h
  cases hf : s.fp <;> rw [hf] at h <;> simp only at h
  · cases h
    rw [he]
    unfold afterEntry
    simp only [Bool.false_eq_true, if_false]
    split
    · exact he
    · exact takeMarker_entered _ _
  · cases h; cases r <;> first | exact he | rfl
  · cases h
    cases r with
    | byte v =>
      simp only [cmdResult]
      split
      · rfl
      · exact he
    | timeout => rfl
    | escError => rfl
  · cases h; cases r <;> first | exact he | rfl
  · split at h
    · cases h; exact csumResult_entered r he
    · unfold payloadResult at h
      cases r with
      | byte v =>
        simp only at h
        split at h
        · cases h; exact he
        · cases h
      | timeout => cases h; rfl
      | escError => cases h; rfl
  · cases h; exact csumResult_entered r he
  · cases h; exact he
  · cases h; exact he

theorem stepRead_entered {s t : State} (h : stepRead s = .next t) (he : s.entered = false) : t.entered = false := by
  obtain ⟨rx, k, n, _, _, _, e⟩ := dec_cases s
  unfold stepRead at h
  simp only [e] at h
  exact takeResult_entered h he

/-- A micro-step leaves no start-marker read to come where none was. -/
theorem fpStep_entered {s t : State} (h : fpStep s = .next t) (he : s.entered = false) : t.entered = false := by
  unfold fpStep at h
  cases hf : s.fp <;> rw [hf] at h <;> simp only at h
  · unfold stepIdle at h
    cases h
    rw [he]
    unfold entryTest afterEntry
    simp only [Bool.false_eq_true, if_false]
    split
    · exact he
    · split
      · exact he
      · split
        · exact he
        · exact takeMarker_entered _ _
  · exact stepRead_entered h he
  · exact stepRead_entered h he
  · exact stepRead_entered h he
  · unfold stepPayload at h
    split at h
    · cases h; exact he
    · exact stepRead_entered h he
  · exact stepRead_entered h he
  · unfold stepDispatch at h
    split at h
    · rename_i o ho
      cases o with
      | next q =>
        cases h
        have hq := (dispatch_call ho q.1 q.2 rfl).1
        unfold HandlerFrame at hq
        unfold afterHandler
        split
        · rfl
        · show q.2.entered = false
          rw [hq]
          exact he
      | fault f => cases h
      | refused r => cases h
    · cases h; rfl
  · cases h; rfl

theorem runToIdle_entered (n : Nat) {s t : State} (h : runToIdle n s = .next t) (he : s.entered = false) :
    t.entered = false := by
  induction n generalizing s with
  | zero => cases h; exact he
  | succ n ih =>
    unfold runToIdle at h
    split at h
    · cases h; exact he
    · split at h
      · rename_i h1; exact ih h (fpStep_entered h1 he)
      · cases h
      · cases h

/-- A dispatch by itself under a legal configuration. -/
theorem dispatchTo_completes {s : State} (x : Byte) (hl : s.cfg.legal = true) :
    CompletesOrFaults s.cfg (dispatchTo x s) := by
  unfold dispatchTo
  split
  · rename_i o ho
    exact (dispatch_completes hl ho).boundedDone
  · exact .inl ⟨_, rfl⟩

/-- The micro-step of `Dispatch` under a legal configuration. -/
theorem stepDispatch_completes {s : State} (hl : s.cfg.legal = true) : CompletesOrFaults s.cfg (stepDispatch s) := by
  unfold stepDispatch
  split
  · rename_i o ho
    rcases dispatch_completes hl ho with ⟨t, rfl⟩ | ⟨hi, rfl⟩
    · exact .inl ⟨_, rfl⟩
    · exact .inr ⟨hi, rfl⟩
  · exact .inl ⟨_, rfl⟩

/-! ### How many micro-steps are left -/

/-- The micro-steps a poll has left, at most. -/
def stepsLeft : Fp → Byte → Byte → Nat
  | .idle, _, _ => 0
  | .sendReply, _, _ => 1
  | .dispatch, _, _ => 2
  | .readChecksum, _, _ => 3
  | .readPayload, idx, len => if idx = len then 4 else 3 + (len.toNat - idx.toNat)
  | .readLength, _, _ => 259
  | .readCmdOffset, _, _ => 260
  | .readSeq, _, _ => 261

/-- The micro-steps left in a state. -/
def State.left (s : State) : Nat := stepsLeft s.fp s.idx s.len

/-- `Idle` is without `BUSY`, and the payload index has not passed the length. -/
def State.tidy (s : State) : Prop :=
  (s.fp = .idle → s.busy = false) ∧ (s.fp = .readPayload → s.idx.toNat ≤ s.len.toNat)

/-- `t` is a tidy state with fewer micro-steps left than `n`. -/
def Closer (n : Nat) (t : State) : Prop := t.tidy ∧ t.left < n

theorem left_of {s : State} {f : Fp} (h : s.fp = f) : s.left = stepsLeft f s.idx s.len := by
  unfold State.left
  rw [h]

theorem closer_idle {s : State} {n : Nat} (h : s.fp = .idle) (hb : s.busy = false) (hn : 0 < n) : Closer n s := by
  refine ⟨⟨fun _ => hb, fun e => ?_⟩, ?_⟩
  · rw [h] at e; cases e
  · rw [left_of h]; exact hn

theorem closer_raise (code : ErrCode) (line : Half) (s : State) {n : Nat} (hn : 0 < n) : Closer n (raise code line s) :=
  closer_idle rfl rfl hn

theorem closer_other {s : State} {f : Fp} {n : Nat} (h : s.fp = f) (h1 : f ≠ .idle) (h2 : f ≠ .readPayload)
    (hn : stepsLeft f s.idx s.len < n) : Closer n s :=
  ⟨⟨fun e => absurd (h.symm.trans e) h1, fun e => absurd (h.symm.trans e) h2⟩, by rw [left_of h]; exact hn⟩

theorem closer_csumResult (r : RdResult) (s : State) : Closer 3 (csumResult r s) := by
  unfold csumResult
  cases r with
  | byte v =>
    simp only
    split
    · exact closer_other (f := .dispatch) rfl (by decide) (by decide) (by show 2 < 3; omega)
    · exact closer_raise _ _ _ (by omega)
  | timeout => exact closer_raise _ _ _ (by omega)
  | escError => exact closer_raise _ _ _ (by omega)

theorem idx_lt_len {s : State} (h : s.idx.toNat ≤ s.len.toNat) (hn : s.idx ≠ s.len) : s.idx.toNat < s.len.toNat := by
  rcases Nat.lt_or_eq_of_le h with h | h
  · exact h
  · exact absurd (BitVec.eq_of_toNat_eq h) hn

theorem succ_toNat {a b : Byte} (h : a.toNat < b.toNat) : (a + 1).toNat = a.toNat + 1 := by
  have := b.isLt
  rw [BitVec.toNat_add]
  show (a.toNat + 1) % 256 = _
  omega

theorem closer_payloadResult (r : RdResult) {s : State} (hlt : s.idx.toNat < s.len.toNat) :
    ∃ t, payloadResult r s = .next t ∧ Closer (3 + (s.len.toNat - s.idx.toNat)) t := by
  have hl := s.len.isLt
  unfold payloadResult
  cases r with
  | byte v =>
    simp only
    rw [if_pos (show s.idx.toNat < 255 by omega)]
    refine ⟨_, rfl, ?_⟩
    have hs := succ_toNat hlt
    have hn : (storePayload v s).fp = nextOfPayload (s.idx + 1) s.len := rfl
    unfold nextOfPayload at hn
    by_cases he : s.idx + 1 = s.len
    · rw [if_pos he] at hn
      exact closer_other hn (by decide) (by decide) (by show 3 < _; omega)
    · rw [if_neg he] at hn
      refine ⟨⟨fun e => absurd (hn.symm.trans e) (by decide), fun _ => ?_⟩, ?_⟩
      · show (s.idx + 1).toNat ≤ s.len.toNat
        omega
      · rw [left_of hn]
        show (if s.idx + 1 = s.len then 4 else 3 + (s.len.toNat - (s.idx + 1).toNat)) < _
        rw [if_neg he]
        omega
  | timeout => exact ⟨_, rfl, closer_raise _ _ _ (by omega)⟩
  | escError => exact ⟨_, rfl, closer_raise _ _ _ (by omega)⟩

theorem closer_takeResult (r : RdResult) {s : State} (hb : s.fp.readsBody = true) (ht : s.tidy) :
    ∃ t, takeResult r s = .next t ∧ Closer s.left t := by
  unfold takeResult
  cases hf : s.fp <;> rw [hf] at hb <;> simp only <;> have e := left_of hf <;> simp only [stepsLeft] at e
  · cases hb
  · rw [e]
    refine ⟨_, rfl, ?_⟩
    cases r with
    | byte v => exact closer_other (f := .readCmdOffset) rfl (by decide) (by decide) (by show 260 < 261; omega)
    | timeout => exact closer_idle rfl rfl (by omega)
    | escError => exact closer_idle rfl rfl (by omega)
  · rw [e]
    refine ⟨_, rfl, ?_⟩
    cases r with
    | byte v =>
      simp only [cmdResult]
      split
      · exact closer_raise _ _ _ (by omega)
      · exact closer_other (f := .readLength) rfl (by decide) (by decide) (by show 259 < 260; omega)
    | timeout => exact closer_raise _ _ _ (by omega)
    | escError => exact closer_raise _ _ _ (by omega)
  · rw [e]
    refine ⟨_, rfl, ?_⟩
    cases r with
    | byte v =>
      refine ⟨⟨fun h => (by cases h), fun _ => Nat.zero_le _⟩, ?_⟩
      have := v.isLt
      show (if (0 : Byte) = v then 4 else 3 + (v.toNat - 0)) < 259
      split <;> omega
    | timeout => exact closer_raise _ _ _ (by omega)
    | escError => exact closer_raise _ _ _ (by omega)
  · rw [e]
    by_cases hi : s.idx = s.len
    · rw [if_pos hi, if_pos hi]
      refine ⟨_, rfl, ?_⟩
      have h := closer_csumResult r (s.setFp .readChecksum)
      exact ⟨h.1, Nat.lt_trans h.2 (by omega)⟩
    · rw [if_neg hi, if_neg hi]
      exact closer_payloadResult r (idx_lt_len (ht.2 hf) hi)
  · rw [e]
    exact ⟨_, rfl, closer_csumResult r s⟩
  · cases hb
  · cases hb

theorem closer_stepRead {s : State} (hb : s.fp.readsBody = true) (ht : s.tidy) :
    ∃ t, stepRead s = .next t ∧ Closer s.left t := by
  obtain ⟨rx, k, n, _, _, _, h⟩ := dec_cases s
  unfold stepRead
  simp only
  rw [h]
  exact closer_takeResult (s := (afterRead s rx k n).answer (.read (dec s).1)) _ hb ht

/-- A micro-step of a tidy state past `Idle` brings the end closer. -/
theorem closer_fpStep {s : State} (ht : s.tidy) (hi : s.fp ≠ .idle) :
    (∀ t, fpStep s = .next t → Closer s.left t) ∧
    (s.cfg.legal = true → CompletesOrFaults s.cfg (fpStep s)) := by
  have rd : s.fp.readsBody = true → (∀ t, stepRead s = .next t → Closer s.left t) ∧
      (s.cfg.legal = true → CompletesOrFaults s.cfg (stepRead s)) := by
    intro hb
    obtain ⟨t, h1, h2⟩ := closer_stepRead hb ht
    refine ⟨fun u hu => ?_, fun _ => .inl ⟨t, h1⟩⟩
    rw [h1] at hu
    cases hu
    exact h2
  unfold fpStep
  cases hf : s.fp <;> rw [hf] at hi rd <;> simp only <;> have e := left_of hf <;> simp only [stepsLeft] at e
  · exact absurd rfl hi
  · exact rd rfl
  · exact rd rfl
  · exact rd rfl
  · unfold stepPayload
    by_cases h : s.idx = s.len
    · rw [if_pos h]
      refine ⟨fun t ht => ?_, fun _ => .inl ⟨_, rfl⟩⟩
      cases ht
      rw [e, if_pos h]
      exact closer_other (f := .readChecksum) rfl (by decide) (by decide) (by show 3 < 4; omega)
    · rw [if_neg h]
      exact rd rfl
  · exact rd rfl
  · rw [e]
    refine ⟨fun t ht => ?_, stepDispatch_completes⟩
    unfold stepDispatch at ht
    split at ht
    · rename_i o ho
      cases o with
      | next q =>
        cases ht
        unfold afterHandler
        split
        · exact closer_raise _ _ _ (by omega)
        · exact closer_other (f := .sendReply) rfl (by decide) (by decide) (by show 1 < 2; omega)
      | fault f => cases ht
      | refused r => cases ht
    · cases ht; exact closer_raise _ _ _ (by omega)
  · rw [e]
    refine ⟨fun t ht => ?_, fun _ => .inl ⟨_, rfl⟩⟩
    cases ht
    exact closer_idle rfl rfl (by omega)

/-- Enough micro-steps from a tidy state end in `Idle` without `BUSY`. -/
theorem runToIdle_ends (n : Nat) {s : State} (ht : s.tidy) (hn : s.left ≤ n) :
    (∀ t, runToIdle n s = .next t → t.fp = .idle ∧ t.busy = false) ∧
    (s.cfg.legal = true → CompletesOrFaults s.cfg (runToIdle n s)) := by
  induction n generalizing s with
  | zero =>
    have hf : s.fp = .idle := by
      unfold State.left at hn
      cases hf : s.fp <;> rw [hf] at hn <;> simp only [stepsLeft] at hn <;> try omega
      split at hn <;> omega
    refine ⟨fun t h => ?_, fun _ => .inl ⟨_, rfl⟩⟩
    cases h
    exact ⟨hf, ht.1 hf⟩
  | succ n ih =>
    by_cases hi : s.fp = .idle
    · rw [runToIdle_idle _ hi]
      refine ⟨fun t h => ?_, fun _ => .inl ⟨_, rfl⟩⟩
      cases h
      exact ⟨hi, ht.1 hi⟩
    · obtain ⟨h1, h2⟩ := closer_fpStep ht hi
      unfold runToIdle
      rw [if_neg hi]
      constructor
      · intro t h
        split at h
        · rename_i u hu
          have hc := h1 u hu
          exact (ih hc.1 (by have := hc.2; omega)).1 t h
        · cases h
        · cases h
      · intro hl
        rcases h2 hl with ⟨u, hu⟩ | ⟨ha, hu⟩
        · rw [hu]
          have hk := (keeps_fpStep hu).cfg
          have hc := h1 u hu
          have := (ih hc.1 (by have := hc.2; omega)).2 (by rw [hk]; exact hl)
          rw [hk] at this
          exact this
        · rw [hu]
          exact .inr ⟨ha, rfl⟩

end Sys2Proof.Machine
end

