-- ==== Sys2Proof/Laws/Exchange.lean ====
section
/-! SUPPORT. A request arriving without a gap: the states the receive path goes through up to its checksum byte (R160
to R168). -/

namespace Sys2Proof.Machine

/-- A reading state with an encoded byte waiting. -/
theorem stepRead_byte {s : State} {b : Byte} {rest : List RxEvent}
    (h : s.rx = (escapeByte s.cfg b).map .byte ++ rest) :
    stepRead s = deliver (.byte b) (afterRead s rest 0 s.tasks) := by
  unfold stepRead
  rw [dec_escapeByte h]

/-- The result of a read just made, taken in the state it was made in. -/
theorem deliver_afterRead (r : RdResult) (s : State) (rx : List RxEvent) (k n : Nat) {f : Fp} (h : s.fp = f) :
    deliver r (afterRead s rx k n) = takeResult r (((afterRead s rx k n).answer (.read r)).setFp f) := by
  subst h
  rfl

/-- The payload: each byte stored and accumulated, up to the last. -/
theorem runToIdle_payload (p : List Byte) (u : State) (n : Nat) (tail : List RxEvent) (hf : u.fp = .readPayload)
    (hlen : u.idx.toNat + p.length = u.len.toNat) (hp : p ≠ [])
    (hrx : u.rx = (escapeBody u.cfg p).map .byte ++ tail) :
    ∃ q, runToIdle (p.length + n) u = runToIdle n { u with
      rx := tail, tcnt := 0, buf := u.buf.writeAll u.idx.toNat p, csum := xorBytes u.csum p, idx := u.len
      fp := .readChecksum, result := q } := by
  induction p generalizing u with
  | nil => exact absurd rfl hp
  | cons b p ih =>
    rw [escapeBody_cons] at hrx
    rw [List.length_cons] at hlen
    have hlt := u.len.isLt
    have hne : u.idx ≠ u.len := by
      intro e
      rw [e] at hlen
      omega
    have hadd : (u.idx + 1).toNat = u.idx.toNat + 1 := succ_toNat (b := u.len) (by omega)
    have hs : fpStep u = .next (storePayload b
        ((afterRead u ((escapeBody u.cfg p).map .byte ++ tail) 0 u.tasks).answer (.read (.byte b)))) := by
      unfold fpStep
      rw [hf]
      simp only
      unfold stepPayload
      rw [if_neg hne, stepRead_byte hrx]
      unfold deliver takeResult
      have hf' : ((afterRead u ((escapeBody u.cfg p).map .byte ++ tail) 0 u.tasks).answer (.read (.byte b))).fp =
        .readPayload := hf
      rw [hf']
      simp only
      rw [if_neg (by exact hne)]
      unfold payloadResult
      simp only
      exact if_pos (show u.idx.toNat < 255 by omega)
    rw [List.length_cons, show p.length + 1 + n = (p.length + n) + 1 by omega,
      runToIdle_step _ (by rw [hf]; decide) hs]
    by_cases hp : p = []
    · subst hp
      have he : u.idx + 1 = u.len := BitVec.eq_of_toNat_eq (by rw [hadd]; simpa using hlen)
      refine ⟨.read (.byte b), ?_⟩
      rw [show ([] : List Byte).length + n = n by simp]
      congr 1
      unfold storePayload
      simp only [State.answer, afterRead]
      rw [he]
      simp [nextOfPayload, escapeBody, xorBytes, PayloadBuffer.writeAll]
    · have hfp : ¬ u.idx + 1 = u.len := by
        intro e
        rw [e] at hadd
        have : p.length ≠ 0 := by simpa using hp
        omega
      obtain ⟨q, hq⟩ := ih (storePayload b
        ((afterRead u ((escapeBody u.cfg p).map .byte ++ tail) 0 u.tasks).answer (.read (.byte b))))
        (by rw [storePayload_fp]; exact if_neg hfp)
        (by show (u.idx + 1).toNat + p.length = u.len.toNat; omega) hp rfl
      refine ⟨q, ?_⟩
      rw [hq]
      congr 1
      simp only [storePayload_idx, storePayload_buf, storePayload_csum, storePayload_len]
      have hi : ((afterRead u ((escapeBody u.cfg p).map .byte ++ tail) 0 u.tasks).answer (.read (.byte b))).idx =
        u.idx := rfl
      rw [hi, hadd]
      rfl

/-- The sequence byte. -/
theorem fpStep_seq {u : State} {q : Byte} {rest : List RxEvent} (hf : u.fp = .readSeq)
    (hrx : u.rx = (escapeByte u.cfg q).map .byte ++ rest) : fpStep u = .next { u with
      rx := rest, tcnt := 0, seq := q, seqv := true, csum := q, fp := .readCmdOffset, result := .read (.byte q) } := by
  unfold fpStep
  rw [hf]
  simp only
  rw [stepRead_byte hrx, deliver_afterRead _ _ _ _ _ hf]
  rfl

/-- The command byte, in range. -/
theorem fpStep_cmd {u : State} {c : Byte} {rest : List RxEvent} (hf : u.fp = .readCmdOffset)
    (hc : c.toNat < u.cfg.tableSize) (hrx : u.rx = (escapeByte u.cfg c).map .byte ++ rest) : fpStep u = .next { u with
      rx := rest, tcnt := 0, cmd := c, csum := u.csum ^^^ codeTerm u.cfg c, fp := .readLength
      result := .read (.byte c) } := by
  unfold fpStep
  rw [hf]
  simp only
  rw [stepRead_byte hrx, deliver_afterRead _ _ _ _ _ hf]
  show Host.Outcome.next (if u.cfg.tableSize ≤ c.toNat then _ else _) = _
  rw [if_neg (Nat.not_le.2 hc)]
  rfl

/-- The length byte. -/
theorem fpStep_len {u : State} {l : Byte} {rest : List RxEvent} (hf : u.fp = .readLength)
    (hrx : u.rx = (escapeByte u.cfg l).map .byte ++ rest) : fpStep u = .next { u with
      rx := rest, tcnt := 0, len := l, csum := u.csum ^^^ lengthTerm u.cfg l, idx := 0, fp := .readPayload
      result := .read (.byte l) } := by
  unfold fpStep
  rw [hf]
  simp only
  rw [stepRead_byte hrx, deliver_afterRead _ _ _ _ _ hf]
  rfl

/-- From the state after the start marker to the state with the checksum to read. -/
theorem runToIdle_body (u : State) (n : Nat) (q c : Byte) (p : List Byte) (tail : List RxEvent) (hf : u.fp = .readSeq)
    (hp : p.length ≤ 255) (hc : c.toNat < u.cfg.tableSize)
    (hrx : u.rx = (escapeBody u.cfg (q :: c :: lengthByte p :: p)).map .byte ++ tail) :
    ∃ r, runToIdle (258 + n) u = runToIdle (n + (255 - max 1 p.length)) { u with
      rx := tail, tcnt := 0, seq := q, seqv := true, cmd := c, len := lengthByte p, buf := u.buf.writeAll 0 p
      csum := frameChecksum u.cfg q c p, idx := lengthByte p, fp := .readChecksum, result := r } := by
  rw [escapeBody_cons] at hrx
  rw [show 258 + n = (257 + n) + 1 by omega, runToIdle_step _ (by rw [hf]; decide) (fpStep_seq hf hrx)]
  rw [show 257 + n = (256 + n) + 1 by omega, runToIdle_step _ (by simp) (fpStep_cmd (u := { u with
    rx := (escapeBody u.cfg (c :: lengthByte p :: p)).map .byte ++ tail, tcnt := 0, seq := q, seqv := true
    csum := q, fp := .readCmdOffset, result := .read (.byte q) }) rfl hc (escapeBody_cons _ _ _ _))]
  rw [show 256 + n = (255 + n) + 1 by omega, runToIdle_step _ (by simp) (fpStep_len (u := { u with
    rx := (escapeBody u.cfg (lengthByte p :: p)).map .byte ++ tail, tcnt := 0, seq := q, seqv := true, cmd := c
    csum := q ^^^ codeTerm u.cfg c, fp := .readLength, result := .read (.byte c) }) rfl (escapeBody_cons _ _ _ _))]
  by_cases h0 : p = []
  · subst h0
    refine ⟨.read (.byte (lengthByte [])), ?_⟩
    rw [show 255 + n = (254 + n) + 1 by omega, show n + (255 - max 1 ([] : List Byte).length) = 254 + n by simp; omega]
    exact runToIdle_step _ (by simp) rfl
  · have hpos : 1 ≤ p.length := by
      cases p
      · exact absurd rfl h0
      · simp
    have hl : (lengthByte p).toNat = p.length := by
      simp only [lengthByte, BitVec.toNat_ofNat]
      omega
    rw [show 255 + n = p.length + (n + (255 - p.length)) by omega, Nat.max_eq_right hpos]
    obtain ⟨r, hr⟩ := runToIdle_payload p (n := n + (255 - p.length)) (tail := tail) (u := { u with
      rx := (escapeBody u.cfg p).map .byte ++ tail, tcnt := 0, seq := q, seqv := true, cmd := c, len := lengthByte p
      idx := 0, csum := q ^^^ codeTerm u.cfg c ^^^ lengthTerm u.cfg (lengthByte p), fp := .readPayload
      result := .read (.byte (lengthByte p)) }) rfl (by simpa using hl.symm) h0 rfl
    exact ⟨r, hr⟩

/-- A poll that finds a frame: past the entry test and the start marker (R161 to R163). -/
theorem poll_frame {s : State} {body : List Byte} (hlink : s.link = true) (hb : s.busy = false) :
    poll (s.offer (escapeFrame s.cfg (s.cfg.sof :: body))) = runToIdle pollSteps { s with
      busy := true, seqv := false, fp := .readSeq, entered := false
      rx := (escapeBody s.cfg body).map .byte ++ s.rx, tcnt := 0
      result := .read (.byte s.cfg.sof) } := by
  generalize hs0 : s.offer (escapeFrame s.cfg (s.cfg.sof :: body)) = s0
  have hrx : s0.rx = .byte s.cfg.sof :: ((escapeBody s.cfg body).map .byte ++ s.rx) := by rw [← hs0]; rfl
  have h1 : s0.link = true := by rw [← hs0]; exact hlink
  have h2 : s0.busy = false := by rw [← hs0]; exact hb
  unfold poll transportReady transportAvailable
  rw [hrx, h1, h2]
  simp only [if_false, Bool.true_eq_false, Bool.false_eq_true]
  congr 1
  unfold afterEntry
  rw [h2]
  simp only [if_false, Bool.false_eq_true]
  unfold takeMarker
  rw [rawrd_byte (s := s0.enter) hrx]
  simp only
  unfold markerResult
  have hsof : (State.answer (afterRead s0.enter (List.map RxEvent.byte (escapeBody s.cfg body) ++ s.rx) 0 s0.enter.tasks)
    (.read (.byte s.cfg.sof))).cfg.sof = s.cfg.sof := by rw [← hs0]; rfl
  rw [hsof, if_pos rfl, ← hs0]
  rfl

/-- A whole request frame with its command in range, up to its checksum byte, with at least three micro-steps to go. -/
theorem frameReq_received (s : State) (q c k : Byte) (p : List Byte) (hp : p.length ≤ 255)
    (hc : c.toNat < s.cfg.tableSize) (hlink : s.link = true) (hb : s.busy = false) :
    ∃ m r, 3 ≤ m ∧ exec (.frameReq q c p k) s = runToIdle m { s with
      busy := true, entered := false, rx := (escapeByte s.cfg k).map .byte ++ s.rx, tcnt := 0, seq := q, seqv := true
      cmd := c, len := lengthByte p, buf := s.buf.writeAll 0 p, csum := frameChecksum s.cfg q c p, idx := lengthByte p
      fp := .readChecksum, result := r } := by
  have e : exec (.frameReq q c p k) s =
      poll (s.offer (escapeFrame s.cfg (s.cfg.sof :: (q :: c :: lengthByte p :: p ++ [k])))) :=
    if_neg (show ¬ 255 < p.length by omega)
  rw [e, poll_frame hlink hb]
  obtain ⟨r, hr⟩ := runToIdle_body { s with
    busy := true, seqv := false, fp := .readSeq, entered := false
    rx := (escapeBody s.cfg (q :: c :: lengthByte p :: p ++ [k])).map .byte ++ s.rx
    tcnt := 0, result := .read (.byte s.cfg.sof) }
    3 q c p ((escapeByte s.cfg k).map .byte ++ s.rx) rfl hp hc (escapeBody_snoc _ _ _ _)
  exact ⟨_, r, by omega, hr⟩

end Sys2Proof.Machine
end

