-- ==== Sys2Proof/Tests/Slice0.lean ====
section
/-! SUPPORT. Tests of single steps, and for every statement with hypotheses a state and operands that meet them. Expected
values are the numbered vectors of 95_test_vectors.md (cited by their numbers there), the tables of the encoding rules,
or worked by hand from the rule a test cites. -/

namespace Sys2Proof.Tests

open Sys2Proof.Machine

/-- One field of the next state, when there is one. -/
def got {α : Type} (o : Answer) (f : State → α) : Option α :=
  match o with
  | .next t => some (f t)
  | _ => none

/-- A poll past its sequence byte, in state `f`, under CFG_REF. -/
def inState (f : Fp) : State := { State.reset with fp := f, busy := true, seq := 3, seqv := true }

/-- The state after reset with raw bytes waiting. -/
def receiving (bytes : List Byte) : State := { State.reset with rx := bytes.map .byte }

/-- CFG_REF without SIF, Many, names and properties. -/
def small : Config :=
  { Config.ref with hasSif := false, hasMany := false, hasNames := false, hasProps := false, jt := [.echo], ct := [] }

/-! ### Well-formedness: one ill-formed term for each check -/

theorem test_wellFormed_raw :
    Instr.rawSos.wellFormed small = false ∧ (Instr.rawPlain 0x12).wellFormed Config.ref = false ∧
    (Instr.rawPlain 0x7D).wellFormed Config.ref = false ∧ (Instr.rawPlain 0x14).wellFormed Config.ref = false := by decide

theorem test_wellFormed_payload :
    (Instr.frameReq 0 0 (List.replicate 256 0) 0).wellFormed Config.ref = false ∧
    (Instr.frameReply 0 0 (List.replicate 256 0) 0).wellFormed Config.ref = false ∧
    (Instr.frameSif 0 0 (List.replicate 256 0) 0).wellFormed Config.ref = false := by
  simp [-List.reduceReplicate, Instr.wellFormed, payloadFits, Config.cap]

theorem test_wellFormed_frames :
    (Instr.frameReply 3 0xF0 [1, 6] 0x9C).wellFormed Config.ref = false ∧
    (Instr.frameReply 3 0 [0xAA, 0xBB] 0x7B).wellFormed Config.ref = false ∧
    (Instr.frameErrOob 3 0x0106 0x9D).wellFormed Config.ref = false ∧
    (Instr.frameErrTimeout 3 0x0102 0x9F).wellFormed Config.ref = false ∧
    (Instr.frameErrChecksum 3 0x011C 0x82).wellFormed Config.ref = false ∧
    (Instr.frameSif 0 0x30 [1, 2, 3] 0x5E).wellFormed Config.ref = false ∧
    (Instr.frameSif 0 0x30 [1, 2, 3] 0x5F).wellFormed small = false := by decide

theorem test_wellFormed_chunk :
    (Instr.manyhdrReq 0 0 0 (List.replicate 250 0)).wellFormed Config.ref = false ∧
    (Instr.manyhdrReply 0 0 0 (List.replicate 250 0)).wellFormed Config.ref = false := by
  simp [-List.reduceReplicate, Instr.wellFormed, chunkFits, Config.chunkMax]

theorem test_wellFormed_flags :
    (Instr.manyflagIslast 0xFE).wellFormed Config.ref = false ∧
    (Instr.manyflagIswrite 0xFD).wellFormed Config.ref = false ∧
    (Instr.manyflagIswrite 0x03).wellFormed Config.ref = false := by decide

theorem test_wellFormed_tables :
    Instr.cmdMany1.wellFormed small = false ∧ Instr.cmdEcho2.wellFormed small = false ∧
    Instr.cmdEcho3.wellFormed small = false ∧ Instr.cmdEcho4.wellFormed small = false ∧
    Instr.cmdGetmap0.wellFormed { small with jt := [] } = false ∧ (Instr.cmdOob 4).wellFormed Config.ref = false ∧
    Instr.manyidxProps0.wellFormed small = false ∧ Instr.manyidxBlob1.wellFormed small = false ∧
    (Instr.manyidxOob 1).wellFormed Config.ref = false := by decide

theorem test_wellFormed_sites :
    Instr.siteLineOob.wellFormed { small with lineOob := 0x0102 } = false ∧
    Instr.siteLineLen.wellFormed { small with lineLen := 0x0102 } = false ∧
    Instr.siteLinePayload.wellFormed { small with linePayload := 0x0102 } = false ∧
    Instr.siteLineCsumRd.wellFormed { small with lineCsumRd := 0x0112 } = false ∧
    Instr.siteLineCsumBad.wellFormed { small with lineCsumBad := 0x0118 } = false ∧
    Instr.siteLineManyOob.wellFormed { small with lineManyOob := 0x0106 } = false := by decide

theorem test_wellFormed_data :
    (Instr.opCsum 0 0 (List.replicate 256 0)).wellFormed Config.ref = false ∧
    (Instr.opSendframe .sof 0 0 (List.replicate 256 0)).wellFormed Config.ref = false ∧
    (Instr.opSifsend 0 (List.replicate 256 0)).wellFormed Config.ref = false := by
  simp [-List.reduceReplicate, Instr.wellFormed, payloadFits, Config.cap]

theorem test_wellFormed_calls :
    (Instr.opHcallC .props false false 0 250).wellFormed Config.ref = false ∧
    (Instr.opProps false false 0 250).wellFormed Config.ref = false ∧
    (Instr.opChBlob 0 0 true false false 0 250).wellFormed Config.ref = false := by decide

/-- Each constraint of R8 to R11 and R133 refuses a configuration that breaks it. -/
theorem test_legal_refuses :
    { Config.ref with sos := 0x12 }.legal = false ∧ { Config.ref with esc := 0x12 }.legal = false ∧
    { Config.ref with esc := 0x14 }.legal = false ∧ { Config.ref with sof := 0x15 }.legal = false ∧
    { Config.ref with crcCmd := 0 }.legal = false ∧ { Config.ref with crcLen := 0 }.legal = false ∧
    { Config.ref with crcLen := 0x0B }.legal = false ∧ { Config.ref with retFail := 0 }.legal = false ∧
    { Config.ref with retTimeout := 0xF0 }.legal = false ∧ { Config.ref with rdTimeout := 0x00FF }.legal = false ∧
    { Config.ref with rdEscErr := 0x0100 }.legal = false ∧ { Config.ref with isWriteBit := 0 }.legal = false ∧
    { Config.ref with manyOffset := 2 }.legal = false ∧ { Config.ref with names := [] }.legal = false := by decide

/-! ### Decoding: words written out from the spec's encodings -/

/-- R91, R92 under CFG_REF. -/
theorem test_decode_raw :
    decode Config.ref .raw [0x12] = .ok .rawSof ∧ decode Config.ref .raw [0x14] = .ok .rawSos ∧
    decode Config.ref .raw [0x7D, 0x13] = .ok (.rawEscpair 0x13) ∧ decode Config.ref .raw [0x41] = .ok (.rawPlain 0x41) ∧
    decode small .raw [0x14] = .ok (.rawPlain 0x14) ∧ decode Config.ref .raw [0x7D] = .error .truncated := by decide

/-- R95 to R98: the examples S7, S8, F11, F17 and I1. -/
theorem test_decode_frames :
    decode Config.ref .hostFrame [0x12, 0x03, 0x04, 0x02, 0xAA, 0xBB, 0x7E] = .ok (.frameReq 3 4 [0xAA, 0xBB] 0x7E) ∧
    decode Config.ref .deviceFrame [0x12, 0x03, 0x00, 0x02, 0xAA, 0xBB, 0x7A] = .ok (.frameReply 3 0 [0xAA, 0xBB] 0x7A) ∧
    decode Config.ref .deviceFrame [0x12, 0x03, 0xF0, 0x02, 0x01, 0x06, 0x9C] = .ok (.frameErrOob 3 0x0106 0x9C) ∧
    decode Config.ref .deviceFrame [0x12, 0x03, 0xF2, 0x02, 0x01, 0x02, 0x9E] = .ok (.frameErrTimeout 3 0x0102 0x9E) ∧
    decode Config.ref .deviceFrame [0x12, 0x03, 0xF3, 0x02, 0x01, 0x1C, 0x83] = .ok (.frameErrChecksum 3 0x011C 0x83) ∧
    decode Config.ref .deviceFrame [0x14, 0x00, 0x30, 0x03, 1, 2, 3, 0x5F] = .ok (.frameSif 0 0x30 [1, 2, 3] 0x5F) := by
  decide

/-- Frames that are cut short, too long, or begin with the other direction's marker (R91, R95). -/
theorem test_decode_frames_refused :
    decode Config.ref .hostFrame [0x12, 0x03, 0x04, 0x02, 0xAA, 0xBB] = .error .truncated ∧
    decode Config.ref .hostFrame [0x12, 0x03, 0x04, 0x00, 0xAA, 0xBB] = .error .trailing ∧
    decode Config.ref .hostFrame [0x14, 0x00, 0x30, 0x00, 0x5F] = .error .notAMarker ∧
    decode Config.ref .deviceFrame [0x7D, 0x00, 0x30, 0x00, 0x5F] = .error .notAMarker := by decide

/-- R99, R100: offset 249 is `F9 00 00 00` in little-endian order, and big-endian the other way round (R73). -/
theorem test_decode_many :
    decode Config.ref .manyRequest [1, 2, 0xF9, 0, 0, 0, 0xAB] = .ok (.manyhdrReq 1 2 249 [0xAB]) ∧
    decode Config.ref .manyReply [0, 1, 0x2B, 0x01, 0, 0] = .ok (.manyhdrReply 0 1 299 []) ∧
    decode { Config.ref with nativeEndian := .big } .manyRequest [1, 2, 0, 0, 1, 0x2B] = .ok (.manyhdrReq 1 2 299 []) ∧
    decode Config.ref .manyRequest [1, 2, 0, 0, 0] = .error .truncated := by decide

/-- R223: isLast is bit 0, isWrite bit 1 under CFG_REF. -/
theorem test_decode_flags :
    decode Config.ref .manyFlags [0x01] = .ok (.manyflagIslast 0x01) ∧
    decode Config.ref .manyFlags [0x03] = .ok (.manyflagIslast 0x03) ∧
    decode Config.ref .manyFlags [0x02] = .ok (.manyflagIswrite 0x02) ∧
    decode Config.ref .manyFlags [0x80] = .error .noTableRow := by decide

/-- R103 under CFG_REF: `N = 5`, `M = 2`. -/
theorem test_decode_command :
    decode Config.ref .command [0] = .ok .cmdGetmap0 ∧ decode Config.ref .command [1] = .ok .cmdMany1 ∧
    decode Config.ref .command [2] = .ok .cmdEcho2 ∧ decode Config.ref .command [3] = .ok .cmdEcho3 ∧
    decode Config.ref .command [4] = .ok .cmdEcho4 ∧ decode Config.ref .command [5] = .ok (.cmdOob 5) ∧
    decode Config.ref .command [0xFF] = .ok (.cmdOob 0xFF) := by decide

theorem test_decode_index :
    decode Config.ref .manyIndex [0] = .ok .manyidxProps0 ∧ decode Config.ref .manyIndex [1] = .ok .manyidxBlob1 ∧
    decode Config.ref .manyIndex [2] = .ok (.manyidxOob 2) := by decide

/-- R104 under CFG_REF; the other values have no row. -/
theorem test_decode_returnCode :
    decode Config.ref .returnCode [0x00] = .ok .retOk ∧ decode Config.ref .returnCode [0x01] = .ok .retFail ∧
    decode Config.ref .returnCode [0xF0] = .ok .retOob ∧ decode Config.ref .returnCode [0xF2] = .ok .retTimeout ∧
    decode Config.ref .returnCode [0xF3] = .ok .retChecksum ∧
    decode Config.ref .returnCode [0xF1] = .error .noTableRow := by decide

/-- R133: bytes are 0000 to 00FF, the sentinels 0100 and 0200. -/
theorem test_decode_readResult :
    decode Config.ref .readResult [0x00, 0xFF] = .ok (.rdByte 0xFF) ∧
    decode Config.ref .readResult [0x01, 0x00] = .ok .rdTimeout ∧
    decode Config.ref .readResult [0x02, 0x00] = .ok .rdEscerr ∧
    decode Config.ref .readResult [0x01, 0x01] = .error .notAReadResult := by decide

/-- R21: the eight states in the order of its table. -/
theorem test_decode_fpState :
    decode Config.ref .fpState [0] = .ok .fpIdle ∧ decode Config.ref .fpState [1] = .ok .fpReadSeq ∧
    decode Config.ref .fpState [2] = .ok .fpReadCmdOffset ∧ decode Config.ref .fpState [3] = .ok .fpReadLength ∧
    decode Config.ref .fpState [4] = .ok .fpReadPayload ∧ decode Config.ref .fpState [5] = .ok .fpReadChecksum ∧
    decode Config.ref .fpState [6] = .ok .fpDispatch ∧ decode Config.ref .fpState [7] = .ok .fpSendReply ∧
    decode Config.ref .fpState [8] = .error .noTableRow := by decide

/-- R258 under CFG_REF. -/
theorem test_decode_site :
    decode Config.ref .site [0x01, 0x02] = .ok .siteLineCmd ∧ decode Config.ref .site [0x01, 0x06] = .ok .siteLineOob ∧
    decode Config.ref .site [0x01, 0x0C] = .ok .siteLineLen ∧
    decode Config.ref .site [0x01, 0x12] = .ok .siteLinePayload ∧
    decode Config.ref .site [0x01, 0x18] = .ok .siteLineCsumRd ∧
    decode Config.ref .site [0x01, 0x1C] = .ok .siteLineCsumBad ∧
    decode Config.ref .site [0x01, 0x22] = .ok .siteLineManyOob ∧
    decode Config.ref .site [0x01, 0x03] = .error .noTableRow := by decide

/-- The operations in the table's order (the numbers are the model's own, entry 5). -/
theorem test_decode_operation :
    decode Config.ref .operation [0] = .ok .opRawrd ∧ decode Config.ref .operation [1] = .ok .opDec ∧
    decode Config.ref .operation [2, 0x12] = .ok (.opEnc 0x12) ∧
    decode Config.ref .operation [3, 3, 4, 2, 0xAA, 0xBB] = .ok (.opCsum 3 4 [0xAA, 0xBB]) ∧
    decode Config.ref .operation [4] = .ok .opPoll ∧
    decode Config.ref .operation [5, 1, 3, 4, 1, 0xAA] = .ok (.opSendframe .sos 3 4 [0xAA]) ∧
    decode Config.ref .operation [6, 5] = .ok (.opDispatch 5) ∧
    decode Config.ref .operation [7, 3, 9] = .ok (.opHcallB (.app 9)) ∧
    decode Config.ref .operation [8] = .ok .opEcho ∧ decode Config.ref .operation [9] = .ok .opGetmap ∧
    decode Config.ref .operation [10] = .ok .opMany := by decide

theorem test_decode_operation_rest :
    decode Config.ref .operation [11, 0, 1, 0, 0, 0, 1, 0x2B, 0xF9] = .ok (.opHcallC .props true false 299 249) ∧
    decode Config.ref .operation [12, 0, 1, 0, 0, 0, 4, 0] = .ok (.opProps false true 4 0) ∧
    decode Config.ref .operation [13, 0, 0, 0, 0, 7, 0, 0, 0, 1, 0x2C, 1, 0, 0, 0, 0, 0, 2, 3] =
      .ok (.opChBlob 7 300 true false false 2 3) ∧
    decode Config.ref .operation [14] = .ok .opTas ∧ decode Config.ref .operation [15] = .ok .opRel ∧
    decode Config.ref .operation [16, 0x30, 1, 0x14] = .ok (.opSifsend 0x30 [0x14]) ∧
    decode Config.ref .operation [17, 1, 3, 0x01, 0x12] = .ok (.opErrframe .timeout 3 0x0112) ∧
    decode Config.ref .operation [18] = .ok .opReset ∧
    decode Config.ref .operation [19] = .error .noSuchOperation := by decide

/-- Rows of the opcode table, by their number and width. -/
theorem test_decodeTableWord :
    decodeTableWord 8 0x12 = some .rawSof ∧ decodeTableWord 8 0x14 = some .rawSos ∧
    decodeTableWord 16 0x7D00 = some (.rawEscpair 0) ∧ decodeTableWord 16 0x0100 = some .rdTimeout ∧
    decodeTableWord 16 0x0122 = some .siteLineManyOob ∧ decodeTableWord 8 0xF3 = some .retChecksum ∧
    decodeTableWord 8 0x07 = some .fpSendReply := by decide

/-! ### Steps: raw bytes and reads -/

/-- Codec table of 2.1: escaped bytes are restored, a delimiter is an escape error. -/
theorem test_dec :
    got (exec .opDec (receiving [0x41])) State.result = some (.read (.byte 0x41)) ∧
    got (exec .opDec (receiving [0x7D, 0x11])) State.result = some (.read (.byte 0x12)) ∧
    got (exec .opDec (receiving [0x7D, 0xFF])) State.result = some (.read (.byte 0x00)) ∧
    got (exec .opDec (receiving [0x7D, 0x12])) State.result = some (.read (.byte 0x13)) ∧
    got (exec .opDec (receiving [0x12])) State.result = some (.read .escError) ∧
    got (exec .opDec (receiving [0x14])) State.result = some (.read .escError) := by decide

/-- Codec table of 2.1: `ESC` then nothing is a timeout and the `ESC` is lost. -/
theorem test_dec_lost_escape :
    got (exec .opDec { receiving [0x7D] with cfg := { Config.ref with timeoutWindow := 1 } }) (fun t => (t.result, t.rx)) =
      some (.read .timeout, []) := by decide

/-- The `RAWRD` example of 2.1: window 2, a byte on the third test. -/
theorem test_rawrd_counts :
    got (exec .opRawrd { State.reset with
      cfg := { Config.ref with timeoutWindow := 2 }, rx := [.quiet, .quiet, .byte 0x41] })
      (fun t => (t.result, t.tcnt, t.tasks)) = some (.read (.byte 0x41), 2, 2) := by decide

/-- The `RAWRD` examples of 2.1: window 2 and three fruitless tests; window 0 and one. -/
theorem test_rawrd_timeout :
    got (exec .opRawrd { State.reset with
      cfg := { Config.ref with timeoutWindow := 2 }, rx := [.quiet, .quiet, .quiet, .byte 0x41] })
      (fun t => (t.result, t.tcnt, t.tasks)) = some (.read .timeout, 2, 2) ∧
    got (exec .opRawrd { State.reset with cfg := { Config.ref with timeoutWindow := 0 } })
      (fun t => (t.result, t.tasks)) = some (.read .timeout, 0) := by decide

/-- Codec table of 2.1. -/
theorem test_enc :
    got (exec (.opEnc 0x12) State.reset) State.tx = some [.byte 0x7D, .byte 0x11] ∧
    got (exec (.opEnc 0x7D) State.reset) State.tx = some [.byte 0x7D, .byte 0x7C] ∧
    got (exec (.opEnc 0x13) State.reset) State.tx = some [.byte 0x13] := by decide

/-- A transport failure after the `ESC`: the second byte is not enqueued (R178). -/
theorem test_enc_fails :
    got (exec (.opEnc 0x14) { State.reset with txAnswers := [true, false, true] })
      (fun t => (t.result, t.tx, t.txAnswers)) = some (.flag false, [.byte 0x7D], [true]) := by decide

/-- R91: a first byte `SOF` begins a frame, the raw `ESC` of a pair is discarded and its second byte stays queued. -/
theorem test_raw_first :
    got (exec .rawSof State.reset) (fun t => (t.fp, t.busy)) = some (.readSeq, true) ∧
    got (exec .rawSos State.reset) (fun t => (t.fp, t.busy)) = some (.idle, false) ∧
    got (exec (.rawEscpair 0x11) State.reset) (fun t => (t.fp, t.rx)) = some (.idle, [.byte 0x11]) ∧
    got (exec (.rawPlain 0x41) State.reset) (fun t => (t.fp, t.rx)) = some (.idle, []) := by decide

/-- R91: in a body a pair is its second byte plus 1, and a delimiter in `ReadSeq` is the silent abort (F10). -/
theorem test_raw_body :
    got (exec (.rawEscpair 0x11) { State.reset with fp := .readSeq }) State.seq = some 0x12 ∧
    got (exec (.rawPlain 0x41) { State.reset with fp := .readSeq }) State.seq = some 0x41 ∧
    got (exec .rawSof { State.reset with fp := .readSeq, busy := true }) State.result = some (.poll .silentAbort) ∧
    got (exec .rawSos { State.reset with fp := .readSeq, cfg := small }) State.seq = some 0x14 := by decide

/-! ### Steps: the Frame Processor -/

/-- Program P1, steps 3 to 5. -/
theorem test_readResults :
    got (exec (.rdByte 3) { State.reset with fp := .readSeq }) (fun t => (t.seq, t.seqv, t.csum, t.fp)) =
      some (3, true, 3, .readCmdOffset) ∧
    got (exec (.rdByte 4) { inState .readCmdOffset with csum := 3 }) (fun t => (t.cmd, t.csum, t.fp)) =
      some (4, 0x0C, .readLength) ∧
    got (exec (.rdByte 2) { inState .readLength with csum := 0x0C }) (fun t => (t.len, t.csum, t.idx, t.fp)) =
      some (2, 0x6F, 0, .readPayload) := by decide

/-- Program P1, steps 6 to 8. -/
theorem test_readPayload :
    got (exec (.rdByte 0xBB) { inState .readPayload with len := 2, idx := 1, csum := 0xC5 })
      (fun t => (t.bufRead 1, t.csum, t.idx, t.fp)) = some (0xBB, 0x7E, 2, .readChecksum) ∧
    got (exec .fpReadPayload { inState .readPayload with rx := [.byte 0x7D, .byte 0x11], len := 2 })
      (fun t => (t.bufRead 0, t.idx, t.fp)) = some (0x12, 1, .readPayload) ∧
    got (exec .fpReadPayload (inState .readPayload)) (fun t => (t.tasks, t.fp)) = some (0, .readChecksum) ∧
    got (exec (.rdByte 0x7E) { inState .readChecksum with csum := 0x7E }) State.fp = some .dispatch := by decide

/-- F11, F12, F14 and F15: the four timeout lines; F16: an escape error takes the same exit. -/
theorem test_readFailures :
    got (exec .rdTimeout (inState .readCmdOffset)) State.result = some (.poll (.errorSent 0xF2 0x0102)) ∧
    got (exec .rdTimeout (inState .readLength)) State.result = some (.poll (.errorSent 0xF2 0x010C)) ∧
    got (exec .rdEscerr { inState .readPayload with len := 2 }) State.result = some (.poll (.errorSent 0xF2 0x0112)) ∧
    got (exec .rdTimeout (inState .readChecksum)) State.result = some (.poll (.errorSent 0xF2 0x0118)) := by decide

/-- F11: the bytes on the wire. -/
theorem test_timeout_frame :
    got (exec .rdTimeout (inState .readCmdOffset)) State.tx =
      some [.byte 0x12, .byte 0x03, .byte 0xF2, .byte 0x02, .byte 0x01, .byte 0x02, .byte 0x9E, .flush] := by decide

/-- F17 and F19: checksum and range exits. -/
theorem test_exits :
    got (exec (.rdByte 0x7F) { inState .readChecksum with csum := 0x7E }) State.tx =
      some [.byte 0x12, .byte 0x03, .byte 0xF3, .byte 0x02, .byte 0x01, .byte 0x1C, .byte 0x83, .flush] ∧
    got (exec (.rdByte 5) (inState .readCmdOffset)) (fun t => (t.result, t.cmd)) =
      some (.poll (.errorSent 0xF0 0x0106), 5) := by decide

/-- F5 to F8: the entry tests in their order. -/
theorem test_entry :
    got (exec .opPoll State.reset) State.result = some (.poll (.noOp .noByte)) ∧
    got (exec .opPoll { receiving [0x12] with link := false }) State.result = some (.poll (.noOp .notReady)) ∧
    got (exec .opPoll { receiving [0x12] with busy := true }) (fun t => (t.result, t.rx)) =
      some (.poll (.noOp .busy), [.byte 0x12]) ∧
    got (exec .fpIdle (receiving [0x14, 0])) (fun t => (t.result, t.rx)) =
      some (.poll (.noOp .notSof), [.byte 0]) := by decide

/-- Program P1, steps 9 and 10. -/
theorem test_dispatch_reply :
    got (exec .fpDispatch { inState .dispatch with cmd := 4, len := 2 }) (fun t => (t.ret, t.len, t.fp)) =
      some (0, 2, .sendReply) ∧
    got (exec .fpSendReply { inState .sendReply with len := 2, buf := ⟨[(0, 0xAA), (1, 0xBB)], 0⟩ }) State.tx =
      some [.byte 0x12, .byte 0x03, .byte 0x00, .byte 0x02, .byte 0xAA, .byte 0xBB, .byte 0x7A, .flush] := by decide

/-- S7 in one step: the request and the reply of program P1. -/
theorem test_echo_exchange :
    got (exec (.frameReq 3 4 [0xAA, 0xBB] 0x7E) State.reset) (fun t => (t.tx, t.busy, t.csum)) =
      some ([.byte 0x12, .byte 0x03, .byte 0x00, .byte 0x02, .byte 0xAA, .byte 0xBB, .byte 0x7A, .flush],
        false, 0x7A) := by decide

/-- F21: the fourth transmission fails; no flush, and `BUSY` is free. -/
theorem test_reply_cut_short :
    got (exec (.frameReq 3 4 [0xAA, 0xBB] 0x7E) { State.reset with txAnswers := [true, true, true, false] })
      (fun t => (t.tx, t.result, t.busy)) =
      some ([.byte 0x12, .byte 0x03, .byte 0x00], .poll .replyCutShort, false) := by decide

/-- R104, R173: in `Dispatch` a return code goes to the reply, but `RET_OOB` from the many entry exits with its line. -/
theorem test_returnCodes :
    got (exec .retOk { inState .dispatch with cmd := 2 }) (fun t => (t.ret, t.fp)) = some (0, .sendReply) ∧
    got (exec .retFail { inState .dispatch with cmd := 2 }) (fun t => (t.ret, t.fp)) = some (1, .sendReply) ∧
    got (exec .retOob { inState .dispatch with cmd := 2 }) (fun t => (t.ret, t.fp)) = some (0xF0, .sendReply) ∧
    got (exec .retOob { inState .dispatch with cmd := 1 }) State.result = some (.poll (.errorSent 0xF0 0x0122)) ∧
    got (exec .retTimeout (inState .dispatch)) State.ret = some 0xF2 ∧
    got (exec .retChecksum State.reset) (fun t => (t.ret, t.fp)) = some (0xF3, .idle) := by decide

/-! ### Steps: sending -/

/-- Rows 2, 3, 4 and 6 of the table of 2.2. -/
theorem test_csum :
    got (exec (.opCsum 3 4 [0xAA, 0xBB]) State.reset) State.result = some (.sum 0x7E) ∧
    got (exec (.opCsum 3 0 [0xAA, 0xBB]) State.reset) State.result = some (.sum 0x7A) ∧
    got (exec (.opCsum 7 2 [0x12, 0x7D, 0x14]) State.reset) State.result = some (.sum 0x15) ∧
    checksum Config.ref 0xFF 0xFF 0xFF [] = 0x95 := by decide

/-- I1 and I2: the sequence number counts up, and a reserved data byte is escaped. -/
theorem test_sifsend :
    got (exec (.opSifsend 0x30 [1, 2, 3]) State.reset) (fun t => (t.tx, t.sifseq, t.busy)) =
      some ([.byte 0x14, .byte 0x00, .byte 0x30, .byte 0x03, .byte 1, .byte 2, .byte 3, .byte 0x5F, .flush], 1, false) ∧
    got (exec (.frameSif 0 0x30 [0x14] 0) { State.reset with sifseq := 1 }) State.tx =
      some [.byte 0x14, .byte 0x01, .byte 0x30, .byte 0x01, .byte 0x7D, .byte 0x13, .byte 0x4C, .flush] := by decide

/-- I3, I5 and I6. -/
theorem test_sifsend_corners :
    got (exec (.opSifsend 0x30 [0x99]) { State.reset with busy := true, sifseq := 2 }) (fun t => (t.result, t.sifseq)) =
      some (.send .busy, 2) ∧
    got (exec (.opSifsend 0x30 [1]) { State.reset with sifseq := 3, txAnswers := [true, true, false] })
      (fun t => (t.result, t.tx, t.sifseq)) = some (.send .cutShort, [.byte 0x14, .byte 0x03], 4) ∧
    got (exec (.opSifsend 0 []) { State.reset with sifseq := 0xFF }) State.sifseq = some 0 := by decide

/-- R245: on a link that is down the send is cut short with nothing enqueued, and the listed answers stay. -/
theorem test_sifsend_link_down :
    got (exec (.opSifsend 0x30 [1]) { State.reset with link := false, txAnswers := [true] })
      (fun t => (t.result, t.tx, t.txAnswers, t.sifseq)) = some (.send .cutShort, [], [true], 1) ∧
    got (exec (.opEnc 0x13) { State.reset with link := false }) (fun t => (t.result, t.tx)) =
      some (.flag false, []) := by decide

/-- The `TAS` and `REL` line of 2.6. -/
theorem test_tas_rel :
    got (exec .opTas State.reset) (fun t => (t.result, t.busy)) = some (.flag true, true) ∧
    got (exec .opTas { State.reset with busy := true }) (fun t => (t.result, t.busy)) = some (.flag false, true) ∧
    got (exec .opRel { State.reset with busy := true }) State.busy = some false := by decide

/-- The frames of 2.7: line bytes by shift and mask, sequence and line escaped. -/
theorem test_errframe :
    got (exec (.opErrframe .oob 3 0x01FF) State.reset) State.tx =
      some [.byte 0x12, .byte 0x03, .byte 0xF0, .byte 0x02, .byte 0x01, .byte 0xFF, .byte 0x65, .flush] ∧
    got (exec (.frameErrTimeout 0x12 0x0112 0) State.reset) State.tx =
      some [.byte 0x12, .byte 0x7D, .byte 0x11, .byte 0xF2, .byte 0x02, .byte 0x01, .byte 0x7D, .byte 0x11, .byte 0x9F,
        .flush] ∧
    got (exec (.frameErrChecksum 0 0x011C 0) State.reset) (fun t => (t.line, t.ret)) = some (0x011C, 0xF3) ∧
    got (exec (.frameErrOob 3 0x0106 0) State.reset) (fun t => (t.line, t.ret)) = some (0x0106, 0xF0) := by decide

/-- The seven sites with their codes and lines (R258, R260). -/
theorem test_sites :
    got (exec .siteLineCmd (inState .readCmdOffset)) State.result = some (.poll (.errorSent 0xF2 0x0102)) ∧
    got (exec .siteLineOob (inState .readCmdOffset)) State.result = some (.poll (.errorSent 0xF0 0x0106)) ∧
    got (exec .siteLineLen (inState .readLength)) State.result = some (.poll (.errorSent 0xF2 0x010C)) ∧
    got (exec .siteLinePayload (inState .readPayload)) State.result = some (.poll (.errorSent 0xF2 0x0112)) ∧
    got (exec .siteLineCsumRd (inState .readChecksum)) State.result = some (.poll (.errorSent 0xF2 0x0118)) ∧
    got (exec .siteLineCsumBad (inState .readChecksum)) State.result = some (.poll (.errorSent 0xF3 0x011C)) ∧
    got (exec .siteLineManyOob (inState .dispatch)) State.result = some (.poll (.errorSent 0xF0 0x0122)) := by decide

/-- R96: a reply frame carries the engine's own checksum, here that of S7. -/
theorem test_frameReply :
    got (exec (.frameReply 3 0 [0xAA, 0xBB] 0) State.reset) State.tx =
      some [.byte 0x12, .byte 0x03, .byte 0x00, .byte 0x02, .byte 0xAA, .byte 0xBB, .byte 0x7A, .flush] ∧
    got (exec (.opSendframe .sof 3 0 [0xAA, 0xBB]) State.reset) State.csum = some 0x7A := by decide

/-! ### Steps: handlers -/

/-- D1: 26 bytes of names, `map` first. -/
theorem test_getmap :
    got (exec .opGetmap State.reset) (fun t => (t.result, t.len, t.buf.range 0 4)) =
      some (.handler 0 26, 26, [0x6D, 0x61, 0x70, 0x00]) ∧
    got (exec .cmdGetmap0 State.reset) (fun t => (t.cmd, t.len, t.bufRead 24)) = some (0, 26, 0x33) := by decide

/-- The first `GETMAP` example with another table: the unnamed entry is a lone NUL. -/
theorem test_getmap_unnamed :
    got (exec (.opHcallB .getmap) { State.reset with cfg := { Config.ref with names := [[0x61], [], [0x62]] } })
      (fun t => t.buf.range 0 t.len.toNat) = some [0x61, 0, 0, 0x62, 0] := by decide

/-- R206, R43: the return code is answered and `RET` stays; D4 and D5: offsets from `N` on take the out-of-range exit. -/
theorem test_commands :
    got (exec .cmdEcho2 { State.reset with len := 7 }) (fun t => (t.cmd, t.result)) = some (2, .handler 0 7) ∧
    got (exec .cmdEcho3 { State.reset with len := 7 }) (fun t => (t.cmd, t.len)) = some (3, 7) ∧
    got (exec .cmdEcho4 { State.reset with len := 7 }) (fun t => (t.cmd, t.len)) = some (4, 7) ∧
    got (exec .opEcho { State.reset with len := 7, ret := 9 }) (fun t => (t.result, t.ret)) = some (.handler 0 7, 9) ∧
    got (exec (.cmdOob 0xFF) (inState .readCmdOffset)) State.result = some (.poll (.errorSent 0xF0 0x0106)) ∧
    got (exec (.opDispatch 5) (inState .dispatch)) State.result = some (.poll (.errorSent 0xF0 0x0106)) := by decide

/-- M1 and M2: a header too short, and an index outside the table. -/
theorem test_many_rejects :
    got (exec .opMany { State.reset with len := 3 }) (fun t => (t.result, t.len)) = some (.handler 1 0, 0) ∧
    got (exec .cmdMany1 { State.reset with len := 3 }) (fun t => (t.result, t.len)) = some (.handler 1 0, 0) ∧
    got (exec (.manyidxOob 2) { State.reset with len := 6 }) (fun t => (t.result, t.midx)) =
      some (.handler 0xF0 0, 2) ∧
    got (exec (.manyhdrReq 2 0 0 []) State.reset) (fun t => (t.result, t.len)) = some (.handler 0xF0 0, 0) := by decide

/-- M4 and M5: properties from offset 4 on, and the failure of a write to them in header byte 0. -/
theorem test_many_props :
    got (exec (.manyhdrReq 0 0 4 []) State.reset) (fun t => (t.result, t.buf.range 0 t.len.toNat)) =
      some (.handler 0 15, [0x00, 0x01, 0x04, 0, 0, 0, 0x32, 0x6A, 0x00, 0x76, 0x65, 0x72, 0x00, 0x37, 0x00]) ∧
    got (exec (.manyhdrReq 0 2 0 [0x41]) State.reset) (fun t => (t.result, t.buf.range 0 t.len.toNat)) =
      some (.handler 0 6, [0x01, 0x02, 0, 0, 0, 0]) := by decide

/-- M6: a write past the end changes nothing in the store. -/
theorem test_many_blob_end :
    got (exec (.manyhdrReq 1 3 299 [9, 9]) State.reset) (fun t => (t.store, t.buf.range 0 t.len.toNat)) =
      some ([], [0x01, 0x03, 0x2B, 0x01, 0, 0]) := by decide

/-- R230 at the last byte of `BLOB300`: a one-byte write is stored, and read back it is the last chunk. -/
theorem test_blob_last :
    got (exec (.opChBlob 0 300 true false true 299 1) { State.reset with buf := ⟨[(6, 0x30)], 0⟩ })
      (fun t => (t.result, t.store)) = some (.chunked 0 false 299 0, [(299, 0x30)]) ∧
    got (exec (.opHcallC (.blob 0 300 true) false false 299 0) { State.reset with store := [(299, 0x30)] })
      (fun t => (t.result, t.bufRead 6)) = some (.chunked 0 true 299 1, 0x30) := by decide

/-- R230: a read that begins past the end fails with isLast set; R229: so does `PROPS`. -/
theorem test_read_past_end :
    got (exec (.opChBlob 0 300 true false false 301 0) State.reset) State.result = some (.chunked 1 true 301 0) ∧
    got (exec (.opProps false false 14 0) State.reset) State.result = some (.chunked 1 true 14 0) ∧
    got (exec (.opProps false false 13 0) State.reset) State.result = some (.chunked 0 true 13 0) := by decide

/-- R221, R223: header bytes in place, taken by `MANY`. -/
theorem test_many_rows :
    got (exec .manyidxProps0 { State.reset with len := 6, buf := ⟨[(1, 0), (2, 4), (3, 0), (4, 0), (5, 0)], 0⟩ })
      (fun t => (t.midx, t.len)) = some (0, 15) ∧
    got (exec .manyidxBlob1 { State.reset with len := 6, buf := ⟨[(1, 0), (2, 0x2B), (3, 1), (4, 0), (5, 0)], 0⟩ })
      (fun t => (t.midx, t.len, t.bufRead 1)) = some (1, 7, 1) ∧
    got (exec (.manyflagIswrite 0x82)
      { State.reset with len := 7, buf := ⟨[(0, 1), (2, 0), (3, 0), (4, 0), (5, 0), (6, 0x41)], 0⟩ })
      (fun t => (t.store, t.bufRead 1)) = some ([(0, 0x41)], 0x82) ∧
    got (exec (.manyflagIslast 0x81)
      { State.reset with len := 6, buf := ⟨[(0, 1), (2, 0x2B), (3, 1), (4, 0), (5, 0)], 0⟩ })
      (fun t => (t.mflags, t.bufRead 1, t.len)) = some (0x81, 0x81, 7) := by decide

/-- R100: the write-back of a reply header and chunk. -/
theorem test_manyhdrReply :
    got (exec (.manyhdrReply 0 1 299 [0x30]) State.reset) (fun t => (t.result, t.buf.range 0 t.len.toNat)) =
      some (.handler 0 7, [0, 1, 0x2B, 0x01, 0, 0, 0x30]) := by decide

/-- R300: what RESET names is reset, and what it leaves untouched stays. -/
theorem test_reset :
    got (exec .opReset { inState .dispatch with sifseq := 9, tcnt := 5 })
      (fun t => (t.fp, t.busy, t.seqv, t.sifseq, t.tcnt)) = some (.idle, false, false, 0, 0) ∧
    got (exec .opReset { inState .dispatch with store := [(3, 1)], rx := [.gap] }) State.store = some [(3, 1)] ∧
    got (exec .opReset { inState .dispatch with rx := [.gap] }) State.rx = some [.gap] := by decide

/-- U18 and the toggles: what is refused. -/
theorem test_refused :
    exec .opGetmap { State.reset with cfg := small } = .refused .featureAbsent ∧
    exec .opMany { State.reset with cfg := small } = .refused .featureAbsent ∧
    exec (.opSifsend 0 []) { State.reset with cfg := small } = .refused .featureAbsent ∧
    exec (.opProps false false 0 250) State.reset = .refused .operandTooLong := ⟨rfl, rfl, rfl, rfl⟩

/-! ### Steps of the machine -/

/-- A table word placed for the next step runs, and the step is that of the instruction it decodes to. -/
theorem test_withFetchWord :
    step (State.reset.withFetchWord 8 0x12) = exec .rawSof State.reset ∧
    step (State.reset.withFetchWord 16 0x0122) = exec .siteLineManyOob State.reset := ⟨rfl, rfl⟩

/-- With nothing from outside the idle engine is polled (R305); the SIF trigger takes the flag and one number (R243). -/
theorem test_step :
    got (step State.reset) State.result = some (.poll (.noOp .noByte)) ∧
    got (step { State.reset with inputs := [.sif 0x30 [1]] }) (fun t => (t.busy, t.sifseq, t.inputs)) =
      some (true, 1, []) ∧
    got (step { State.reset with inputs := [.link false] }) State.link = some false ∧
    got (step { State.reset with rx := [.gap, .byte 1], inputs := [.elapse] }) State.rx = some [.byte 1] := by decide

/-- Steps 1 and 2 of program P1, with the two-step poll of a byte that is discarded (R163, D9). -/
theorem test_poll_steps :
    got (step (receiving [0x12, 3])) (fun t => (t.fp, t.busy, t.seqv, t.rx)) =
      some (.idle, true, false, [.byte 0x12, .byte 3]) ∧
    got (step { receiving [0x12, 3] with busy := true, entered := true }) (fun t => (t.fp, t.busy, t.rx)) =
      some (.readSeq, true, [.byte 3]) ∧
    got (step { receiving [0x13] with busy := true, entered := true, inputs := [.sif 0x30 [1]] })
      (fun t => (t.result, t.busy, t.rx)) = some (.send .busy, true, [.byte 0x13]) ∧
    got (step { receiving [0x13] with busy := true, entered := true }) (fun t => (t.result, t.busy, t.rx)) =
      some (.poll (.noOp .notSof), false, []) := by decide

/-! ### Witnesses: for each statement with hypotheses, a state and operands that meet them, clause by clause -/

theorem witness_DecodeOfEncode :
    Config.ref.legal = true ∧ (Instr.frameReq 0xFF 0xFF [0x12, 0x14, 0x7D] 0).wellFormed Config.ref = true ∧
    (Instr.frameErrOob 3 0x0106 0x9C).wellFormed Config.ref = true ∧
    (Instr.manyhdrReq 0xFF 0xFF 0xFFFFFFFF []).wellFormed Config.ref = true ∧
    Instr.siteLineManyOob.wellFormed Config.ref = true ∧ Instr.cmdEcho4.wellFormed Config.ref = true ∧
    (Instr.opHcallC (.blob 0 300 true) true true 0xFFFFFFFF 249).wellFormed Config.ref = true ∧
    small.legal = true ∧ (Instr.rawPlain 0x14).wellFormed small = true := by decide

theorem witness_EncodeOfDecode :
    decode Config.ref .site [0x01, 0x22] = .ok .siteLineManyOob ∧
    decode Config.ref .operation [16, 0, 0] = .ok (.opSifsend 0 []) := by decide

theorem witness_EscapingIsInjectiveAndDelimiterFree : Config.ref.legal = true ∧ Config.ref.hasSif = true := by decide

theorem witness_StepRunsDecodedWord :
    ({ State.reset with inputs := [.word .operation [14], .run] } : State).cfg.legal = true ∧
    decode Config.ref .operation [14] = .ok .opTas := by decide

theorem witness_StepAdvancesTheOperation :
    State.reset.cfg.legal = true ∧ State.reset.inputs = [] ∧ State.reset.sif = none ∧
    ({ State.reset with inputs := [.run] } : State).inputs = [.run] ∧
    ({ State.reset with busy := true, sif := some ⟨0, 0, []⟩ } : State).sif = some ⟨0, 0, []⟩ ∧
    (inState .readSeq).fp ≠ .idle ∧ ({ State.reset with busy := true, entered := true } : State).entered = true ∧
    State.reset.fp = .idle ∧ State.reset.entered = false ∧ ({ State.reset with link := false } : State).link = false ∧
    State.reset.link = true ∧ transportAvailable State.reset = false ∧ transportAvailable (receiving [0x13]) = true ∧
    ({ receiving [0x13] with busy := true } : State).busy = true ∧ (receiving [0x13]).busy = false := by decide

/-- The clause of the SIF trigger at its largest operand, with the flag free and held. -/
theorem witness_StepServesTheOutside :
    State.reset.cfg.legal = true ∧ State.reset.cfg.hasSif = true ∧
    (List.replicate 255 (0 : Byte)).length ≤ Config.cap ∧ State.reset.busy = false ∧
    ({ State.reset with busy := true } : State).busy = true :=
  ⟨by decide, by decide, Nat.le_of_eq List.length_replicate, rfl, rfl⟩

theorem witness_IllegalConfigurationsRefused :
    ({ State.reset with cfg := { Config.ref with crcCmd := 0 } } : State).cfg.legal = false ∧
    State.reset.cfg.legal = true := by decide

/-- `k` at 0 and at the window, for the byte, the gap and the end of input; and one more than the window. -/
theorem witness_RawrdWaitsForTheWindow :
    0 ≤ State.reset.cfg.timeoutWindow ∧ 50 ≤ State.reset.cfg.timeoutWindow ∧
    (∃ s : State, s.cfg = Config.ref ∧ s.rx = List.replicate 50 .quiet ++ .byte 7 :: [.gap]) ∧
    (∃ s : State, s.cfg = Config.ref ∧ s.rx = List.replicate 50 .quiet ++ .gap :: [.byte 7]) ∧
    (∃ s : State, s.cfg = Config.ref ∧ s.rx = List.replicate 50 .quiet) ∧
    (∃ s : State, s.cfg = Config.ref ∧ s.rx = List.replicate (Config.ref.timeoutWindow + 1) .quiet ++ [.byte 7]) :=
  ⟨by decide, by decide, ⟨{ State.reset with rx := _ }, rfl, rfl⟩, ⟨{ State.reset with rx := _ }, rfl, rfl⟩,
    ⟨{ State.reset with rx := _ }, rfl, rfl⟩, ⟨{ State.reset with rx := _ }, rfl, rfl⟩⟩

/-- Each kind of first read, and each kind of read after an `ESC`. -/
theorem witness_DecIsOneOrTwoRawReads :
    State.reset.cfg.legal = true ∧
    got (exec .opRawrd { State.reset with rx := [.gap] }) State.result = some (.read .timeout) ∧
    got (exec .opRawrd (receiving [0x13])) State.result = some (.read (.byte 0x13)) ∧ Config.ref.reserved 0x13 = false ∧
    got (exec .opRawrd (receiving [0x12])) State.result = some (.read (.byte Config.ref.sof)) ∧
    got (exec .opRawrd (receiving [0x14])) State.result = some (.read (.byte Config.ref.sos)) ∧
    Config.ref.hasSif = true ∧
    got (exec .opRawrd (receiving [0x7D, 0xFF])) (fun t => (t.result, t.rx)) =
      some (.read (.byte Config.ref.esc), [.byte 0xFF]) ∧
    got (exec .opRawrd { receiving [0x7D] with rx := [.byte 0x7D, .gap] }) (fun t => (t.result, t.rx)) =
      some (.read (.byte Config.ref.esc), [.gap]) := by decide

theorem witness_CodecRoundTrip :
    (receiving [0x7D, 0x11, 0x41, 0x99]).cfg.legal = true ∧
    (receiving [0x7D, 0x11, 0x41, 0x99]).rx =
      (escapeBody Config.ref [0x12, 0x41]).map .byte ++ [.byte 0x99] := by decide

theorem witness_ChecksumFormula :
    (List.replicate 255 (0 : Byte)).length ≤ 255 ∧ 255 < (List.replicate 256 (0 : Byte)).length :=
  ⟨Nat.le_of_eq List.length_replicate, Nat.le_of_eq List.length_replicate.symm⟩

theorem witness_ChecksumDetectsOneChange :
    (3 : Byte) ≠ 2 ∧ (1 : Nat) < [(0xAA : Byte), 0xBB].length ∧ (0xBA : Byte) ≠ [(0xAA : Byte), 0xBB][1] ∧
    Config.ref.crcCmd ≠ Config.ref.crcLen ∧ (3 : Byte) ≠ 4 := by decide

theorem witness_FirstByteStartsOnlyOnSof :
    State.reset.fp = .idle ∧ State.reset.entered = false ∧ ({ State.reset with entered := true } : State).entered = true ∧ State.reset.busy = false ∧ ({ State.reset with busy := true } : State).busy = true ∧
    RdResult.byte 0x12 = .byte State.reset.cfg.sof ∧ RdResult.timeout ≠ .byte State.reset.cfg.sof := by decide

theorem witness_SequenceByteIsCaptured : (inState .readSeq).fp = .readSeq := rfl

/-- The largest offset in the table and the first outside it. -/
theorem witness_CommandByteIsRangeChecked :
    (inState .readCmdOffset).fp = .readCmdOffset ∧ (4 : Byte).toNat < (inState .readCmdOffset).cfg.jt.length ∧
    (inState .readCmdOffset).cfg.jt.length ≤ (5 : Byte).toNat := by decide

theorem witness_LengthByteIsAccepted : (inState .readLength).fp = .readLength := rfl

/-- The last byte of the longest payload, and no byte left. -/
theorem witness_PayloadByteIsStored :
    ({ inState .readPayload with idx := 254, len := 255 } : State).fp = .readPayload ∧ (254 : Byte) ≠ 255 ∧
    (254 : Byte).toNat < Config.cap ∧ (inState .readPayload).idx = (inState .readPayload).len := by decide

theorem witness_ChecksumByteIsVerified :
    (inState .readChecksum).fp = .readChecksum ∧ (0x7F : Byte) ≠ (inState .readChecksum).csum := by decide

theorem witness_ReadFailuresExit :
    (inState .readCmdOffset).fp = .readCmdOffset ∧ (inState .readLength).fp = .readLength ∧
    ({ inState .readPayload with len := 1 } : State).idx ≠ 1 ∧ (inState .readPayload).fp = .readPayload ∧
    (inState .readChecksum).fp = .readChecksum := by decide

theorem witness_RawBytesWhereAMarkerIsExpected :
    State.reset.cfg.legal = true ∧ State.reset.fp = .idle ∧ State.reset.link = true ∧ State.reset.busy = false ∧
    State.reset.entered = false ∧ ({ State.reset with entered := true } : State).entered = true ∧
    State.reset.cfg.reserved 0x41 = false := by decide

/-- With a byte left at the last address, and with none left. -/
theorem witness_RawBytesInsideABody :
    (inState .readPayload).cfg.legal = true ∧ (inState .readPayload).fp.readsBody = true ∧
    (inState .readPayload).payloadRoom ∧ ({ inState .readPayload with idx := 254, len := 255 } : State).payloadRoom ∧
    (inState .readSeq).payloadRoom ∧ Config.ref.reserved 0x41 = false :=
  ⟨by decide, by decide, fun _ => .inl rfl, fun _ => .inr (by decide), (fun h => by cases h), by decide⟩

theorem witness_IdleTestsInOrder :
    State.reset.fp = .idle ∧ State.reset.entered = false ∧
    ({ receiving [0x13] with entered := true, busy := true } : State).entered = true ∧ ({ State.reset with link := false } : State).link = false ∧
    State.reset.link = true ∧ transportAvailable State.reset = false ∧ transportAvailable (receiving [0x12]) = true ∧
    ({ receiving [0x12] with busy := true } : State).busy = true ∧ (receiving [0x13]).rx = .byte 0x13 :: [] ∧
    (0x13 : Byte) ≠ (receiving [0x13]).cfg.sof ∧
    (receiving [0x12, 3]).rx = .byte (receiving [0x12, 3]).cfg.sof :: [.byte 3] := by decide

theorem witness_ReadingStatesDecodeOnce :
    Fp.readsBody .readSeq = true ∧ Fp.readsBody .readPayload = true ∧
    ({ State.reset with idx := 254, len := 255 } : State).idx ≠ 255 ∧
    ({ State.reset with idx := 254, len := 255 } : State).idx.toNat < Config.cap := by decide

/-- The last entry and the first offset outside; the many entry's `RET_OOB` and an ordinary return. -/
theorem witness_DispatchThenReply :
    State.reset.cfg.legal = true ∧ builtinsOnly State.reset.cfg = true ∧
    ({ State.reset with cmd := 4 } : State).cmd.toNat < State.reset.cfg.jt.length ∧
    State.reset.cfg.jt.length ≤ ({ State.reset with cmd := 5 } : State).cmd.toNat ∧ State.reset.cfg.manyOffset = 1 ∧
    got (exec (.opDispatch 1) { State.reset with
      fp := .dispatch, cmd := 1, len := 6, buf := ⟨[(0, 2), (1, 0), (2, 0), (3, 0), (4, 0), (5, 0)], 0⟩ }) State.result =
      some (.handler State.reset.cfg.retOob 0) ∧
    got (exec (.opDispatch 4) { State.reset with fp := .dispatch, cmd := 4 }) State.result = some (.handler 0 0) :=
  by decide

theorem witness_ReplyIsSentAndThePollEnds : takesAll State.reset (rawFrame Config.ref .sof 0 0 []) = true := by decide

theorem witness_SequencerSuccessors : ∃ t, exec Fp.readPayload.instr (inState .readPayload) = .next t := ⟨_, rfl⟩

theorem witness_PollAlwaysReturnsToIdle :
    (receiving [0x12, 3]).pollable = true ∧ (receiving [0x12, 3]).cfg.legal = true ∧
    builtinsOnly (receiving [0x12, 3]).cfg = true ∧ (∃ t, exec .opPoll (receiving [0x13]) = .next t) :=
  ⟨by decide, by decide, by decide, ⟨_, rfl⟩⟩

theorem witness_EchoExchange :
    State.reset.cfg.legal = true ∧ (List.replicate 255 (0 : Byte)).length ≤ 255 ∧
    State.reset.cfg.jt[(4 : Byte).toNat]? = some .echo ∧ State.reset.link = true ∧ State.reset.busy = false :=
  ⟨by decide, Nat.le_of_eq List.length_replicate, by decide, rfl, rfl⟩

theorem witness_WrongChecksumExchange :
    State.reset.cfg.legal = true ∧ (List.replicate 255 (0 : Byte)).length ≤ 255 ∧ [(0xAA : Byte), 0xBB].length ≤ 255 ∧
    (4 : Byte).toNat < State.reset.cfg.jt.length ∧ State.reset.link = true ∧ State.reset.busy = false ∧
    (0x7F : Byte) ≠ frameChecksum State.reset.cfg 3 4 [0xAA, 0xBB] :=
  ⟨by decide, Nat.le_of_eq List.length_replicate, by decide, by decide, rfl, rfl, by decide⟩

theorem witness_OutOfRangeExchange :
    State.reset.cfg.legal = true ∧ [(0xAA : Byte), 0xBB].length ≤ 255 ∧
    State.reset.cfg.jt.length ≤ (5 : Byte).toNat ∧ State.reset.link = true ∧ State.reset.busy = false := by decide

theorem witness_FramesAreSentWhole :
    (List.replicate 255 (0 : Byte)).length ≤ 255 ∧ takesAll State.reset (rawFrame Config.ref .sos 3 0 [0xAA]) = true :=
  ⟨Nat.le_of_eq List.length_replicate, by decide⟩

theorem witness_ErrorFramesAreSent :
    ∃ raw, raw = rawFrame State.reset.cfg .sof 3 (errByte State.reset.cfg .oob)
      [BitVec.ofNat 8 ((0xFF06 : Half).toNat / 256), BitVec.ofNat 8 (0xFF06 : Half).toNat] := ⟨_, rfl⟩

theorem witness_ReturnCodesGoToTheReply :
    State.reset.fp ≠ .dispatch ∧ (inState .dispatch).fp = .dispatch ∧ (inState .dispatch).cfg.legal = true ∧
    ({ inState .dispatch with cmd := 2 } : State).cmd ≠ Config.ref.manyOffset ∧ small.hasMany = false ∧
    Config.ref.hasMany = true ∧ ({ inState .dispatch with cmd := 1 } : State).cmd = Config.ref.manyOffset := by decide

/-- All five names fit; and a table whose second name is the first that does not. -/
theorem witness_GetmapListsWholeNames :
    State.reset.cfg.hasNames = true ∧ (5 : Nat) = State.reset.cfg.names.length ∧
    (namesImage State.reset.cfg 5).length ≤ 255 ∧
    small.hasNames = false ∧
    ∃ c : Config, c.hasNames = true ∧ 1 ≤ c.names.length ∧ (namesImage c 1).length ≤ 255 ∧
      255 < (namesImage c 2).length := by
  refine ⟨by decide, by decide, by decide, by decide, { Config.ref with names := [[0x61], List.replicate 253 0x61] }, rfl,
    by decide, by decide, ?_⟩
  show 255 < (([0x61] ++ [0]) ++ ((List.replicate 253 (0x61 : Byte) ++ [0]) ++ [])).length
  simp only [List.length_append, List.length_replicate, List.length_cons, List.length_nil]
  omega

theorem witness_CommandsDispatchTheirEntry :
    State.reset.cfg.jt[(4 : Byte).toNat]? = some .echo ∧ State.reset.cfg.jt[(5 : Byte).toNat]? = none ∧
    State.reset.cfg.legal = true ∧ builtinsOnly State.reset.cfg = true := by decide

theorem witness_ReferenceCommandsComplete :
    State.reset.cfg = Config.ref ∧ ({ State.reset with len := 5 } : State).len.toNat < 6 ∧
    5 ≤ (5 : Byte).toNat := by decide

/-- Five bytes; six bytes with the first index outside the table. -/
theorem witness_ManyRejects :
    State.reset.cfg.hasMany = true ∧ ({ State.reset with len := 5 } : State).len.toNat < 6 ∧
    6 ≤ ({ State.reset with len := 6 } : State).len.toNat ∧
    State.reset.cfg.ct.length ≤ (({ State.reset with len := 6, buf := ⟨[(0, 2)], 0⟩ } : State).bufRead 0).toNat := by
  decide

/-- A header of six bytes for the blob, and the call it makes. -/
theorem witness_ManyForwardsAndWritesBack :
    ∃ (s u : State) (h : ChunkedHandler) (a : ChunkAnswer) (off : Offset), s.cfg.hasMany = true ∧ 6 ≤ s.len.toNat ∧
      s.cfg.ct[(s.bufRead 0).toNat]? = some h ∧
      off = joinOffset s.cfg.nativeEndian (s.bufRead 2) (s.bufRead 3) (s.bufRead 4) (s.bufRead 5) ∧
      hcallC h ((s.bufRead 1).getLsbD s.cfg.isLastBit) ((s.bufRead 1).getLsbD s.cfg.isWriteBit) off (s.len - 6)
        { s with midx := s.bufRead 0, mflags := s.bufRead 1, moff := off, mclen := s.len - 6 } = .next (a, u) :=
  ⟨{ State.reset with len := 6, buf := ⟨[(0, 1), (1, 2), (2, 0), (3, 0), (4, 0), (5, 0)], 0⟩ }, _,
    .blob 0 300 true, _, _, rfl, by decide, rfl, rfl, rfl⟩

theorem witness_ManyRowsComplete :
    State.reset.cfg.legal = true ∧ State.reset.cfg.hasMany = true ∧ builtinsOnly State.reset.cfg = true ∧
    ([] : List Byte).length ≤ 249 ∧ (List.replicate 249 (0 : Byte)).length ≤ 249 :=
  ⟨by decide, by decide, by decide, by decide, Nat.le_of_eq List.length_replicate⟩

theorem witness_ManyReplyIsWrittenBack :
    State.reset.cfg.hasMany = true ∧ (List.replicate 249 (0 : Byte)).length ≤ 249 :=
  ⟨rfl, Nat.le_of_eq List.length_replicate⟩

/-- The last write that fits, the first that does not, and a read-only blob. -/
theorem witness_BlobWriteStoresTheChunk :
    State.reset.cfg.hasMany = true ∧ (249 : Byte).toNat ≤ 249 ∧
    (51 : Offset).toNat + (249 : Byte).toNat ≤ (300 : BitVec 40).toNat ∧
    (300 : BitVec 40).toNat < (52 : Offset).toNat + (249 : Byte).toNat := by decide

/-- A full chunk, an empty one at the end, and an offset past the end. -/
theorem witness_BlobReadDeliversTheChunk :
    State.reset.cfg.hasMany = true ∧ (0 : Byte).toNat ≤ 249 ∧
    249 = min 249 ((300 : BitVec 40).toNat - (51 : Offset).toNat) ∧ (51 : Offset).toNat ≤ (300 : BitVec 40).toNat ∧
    0 = min 249 ((300 : BitVec 40).toNat - (300 : Offset).toNat) ∧ (300 : Offset).toNat ≤ (300 : BitVec 40).toNat ∧
    (300 : BitVec 40).toNat < (301 : Offset).toNat := by decide

/-- The last byte of the store and the largest chunk; and another state with that store, whose `BUF` is not the chunk. -/
theorem witness_BlobReadsBackWhatWasWritten :
    State.reset.cfg.hasMany = true ∧ (299 : Offset).toNat + (1 : Byte).toNat ≤ (300 : BitVec 40).toNat ∧
    (51 : Offset).toNat + (249 : Byte).toNat ≤ (300 : BitVec 40).toNat ∧ (249 : Byte).toNat ≤ 249 ∧
    ∃ t s' : State,
      exec (.opChBlob 0 300 true false true 299 1) { State.reset with buf := ⟨[(6, 0x30)], 0⟩ } = .next t ∧
      s'.store = t.store ∧ s'.cfg = t.cfg ∧ s'.bufRead 6 ≠ 0x30 :=
  ⟨rfl, by decide, by decide, by decide, _,
    { State.reset with store := [(299, 0x30)], buf := ⟨[(6, 0x31)], 0⟩ }, rfl, by decide, rfl, by decide⟩

/-- The object of CFG_REF is 13 bytes: its first byte, its end, and past its end. -/
theorem witness_PropsServesItsObject :
    State.reset.cfg.hasMany = true ∧ State.reset.cfg.hasProps = true ∧ (249 : Byte).toNat ≤ 249 ∧
    (State.reset.cfg.props.flatMap (fun p => p.1 ++ [0] ++ p.2 ++ [0])).length = 13 ∧ 13 = min 249 (13 - 0) ∧
    (13 : Offset).toNat ≤ 13 ∧ 13 < (14 : Offset).toNat := by decide

/-- The built-in handlers, and `PROPS` with and without its feature. -/
theorem witness_ChunkedCallsKeepTheirWindow :
    State.reset.cfg.hasMany = true ∧ State.reset.cfg.hasProps = true ∧ (249 : Byte).toNat ≤ 249 ∧
    ({ State.reset with cfg := { Config.ref with hasProps := false } } : State).cfg.hasMany = true ∧
    ({ State.reset with cfg := { Config.ref with hasProps := false } } : State).cfg.hasProps = false ∧
    (∃ t, exec (.opHcallC .props false false 13 0) State.reset = .next t) := ⟨rfl, rfl, by decide, rfl, rfl, _, rfl⟩

theorem witness_TestAndSetAndRelease :
    State.reset.busy = false ∧ ({ State.reset with busy := true } : State).busy = true := by decide

theorem witness_SifsendSendsOrIsBusy :
    State.reset.cfg.hasSif = true ∧ (List.replicate 255 (0 : Byte)).length ≤ 255 ∧ State.reset.busy = false ∧
    ({ State.reset with busy := true } : State).busy = true ∧ 255 < (List.replicate 256 (0 : Byte)).length ∧
    small.hasSif = false ∧ ({ State.reset with link := false } : State).link = false :=
  ⟨rfl, Nat.le_of_eq List.length_replicate, rfl, rfl, Nat.le_of_eq List.length_replicate.symm, rfl, rfl⟩

theorem witness_PollAndSifExclude :
    ∃ s t : State, s.cfg.legal = true ∧ s.cfg.hasSif = true ∧ ([1] : List Byte).length ≤ 255 ∧
      s.inputs = .sif 0x30 [1] :: [] ∧ step s = .next t ∧ s.busy = false ∧ t.link = true ∧
      transportAvailable t = true :=
  ⟨{ receiving [0x12] with inputs := [.sif 0x30 [1]] }, _, by decide, rfl, by decide, rfl, rfl, rfl, rfl, rfl⟩

theorem witness_PollAndSifExclude_busy :
    ∃ s t : State, s.cfg.legal = true ∧ s.cfg.hasSif = true ∧ s.inputs = .sif 0x30 [1] :: [] ∧
      step s = .next t ∧ s.busy = true :=
  ⟨{ State.reset with busy := true, inputs := [.sif 0x30 [1]] }, _, by decide, rfl, rfl, rfl, rfl⟩

/-- A byte that is no start marker waits, and the SIF trigger comes between the poll's `TAS` and its read. -/
theorem witness_PollAndSifExclude_poll :
    ∃ s : State, s.cfg.legal = true ∧ s.cfg.hasSif = true ∧ s.inputs = .run :: .sif 0x30 [1] :: [] ∧ s.sif = none ∧
      s.fp = .idle ∧ s.entered = false ∧ s.pollable = true ∧ s.rx = [.byte 0x13] :=
  ⟨{ receiving [0x13] with inputs := [.run, .sif 0x30 [1]] }, by decide, rfl, rfl, rfl, rfl, rfl, rfl, rfl⟩

theorem witness_TablesConstantAndWireOnlyGrows :
    ∃ t, exec (.frameReply 3 0 [0xAA] 0) State.reset = .next t ∧ t.tx ≠ State.reset.tx := ⟨_, rfl, by decide⟩

theorem witness_NonStoringInstructionsKeepMemory :
    (∃ t, exec .opEcho State.reset = .next t) ∧ State.reset.fp ≠ .readPayload ∧
    (∃ t, exec .rdTimeout (inState .readLength) = .next t) := ⟨⟨_, rfl⟩, by decide, ⟨_, rfl⟩⟩

theorem witness_StepKeepsDataInvariant :
    ∃ s t : State, DataInv s ∧ s.tcnt = s.cfg.timeoutWindow ∧ s.store ≠ [] ∧ step s = .next t :=
  ⟨{ State.reset with tcnt := 50, store := [(3, 1)], buf := ⟨[(254, 0)], 0⟩ }, _,
    ⟨by decide, by decide, by decide, by decide⟩, by decide, by decide, rfl⟩

/-- A poll in the middle of a payload, with the checksum of what has been received. -/
theorem witness_StepKeepsEngineInvariant :
    ∃ s t : State, EngineInv s ∧ s.fp = .readPayload ∧ step s = .next t :=
  ⟨{ inState .readPayload with cmd := 4, len := 2, idx := 1, csum := 0xC5, buf := ⟨[(0, 0xAA)], 0⟩ }, _,
    ⟨⟨by decide, by decide, by decide, by decide⟩, by decide, by decide, fun _ => rfl, (fun h => by cases h), fun _ => rfl,
      fun _ => by decide, fun _ => by decide, (fun j h => by cases h), (by decide : _ = _)⟩, rfl, rfl⟩

/-- A poll between its `TAS` and its start-marker read. -/
theorem witness_StepKeepsEngineInvariant_entered :
    ∃ s t : State, EngineInv s ∧ s.entered = true ∧ step s = .next t :=
  ⟨{ receiving [0x13] with busy := true, entered := true }, _,
    ⟨⟨by decide, by decide, by decide, by decide⟩, by decide, by decide, fun _ => rfl, fun _ => ⟨rfl, rfl⟩,
      fun h => absurd rfl h, (fun h => by cases h), (fun h => by cases h), (fun j h => by cases h), trivial⟩, rfl, rfl⟩

theorem witness_EngineNeverStops :
    ∃ s : State, EngineInv s ∧ builtinsOnly s.cfg = true ∧ ∀ x d rest, s.inputs ≠ .sif x d :: rest :=
  ⟨State.reset, ⟨⟨by decide, by decide, by decide, by decide⟩, by decide, by decide, fun _ => rfl,
    (fun h => by cases h), fun h => absurd rfl h, (fun h => by cases h), (fun h => by cases h), (fun j h => by cases h), trivial⟩, by decide,
    fun x d rest h => by cases h⟩

end Sys2Proof.Tests
end

section
/-! SUPPORT. A legal configuration taken apart (R8 to R11), and the encoding of bodies: uniquely readable byte by
byte and without delimiters (R138). -/

namespace Sys2Proof.Machine

/-! ### What a legal configuration has -/

/-- The checksum constants of a legal configuration (R10). -/
theorem legal_checksum {c : Config} (h : c.legal = true) : c.crcCmd ≠ 0 ∧ c.crcLen ≠ 0 ∧ c.crcCmd ≠ c.crcLen := by
  simp only [Config.legal, Config.checksumLegal, Bool.and_eq_true, bne_iff_ne] at h
  obtain ⟨⟨⟨⟨-, ⟨hcmd, hlen⟩, hne⟩, -⟩, -⟩, -⟩ := h
  exact ⟨hcmd, hlen, hne⟩

/-- The return codes of a legal configuration, `RET_OK` among them, are pairwise distinct (R10). -/
theorem legal_codes {c : Config} (h : c.legal = true) :
    [Config.retOk, c.retFail, c.retOob, c.retTimeout, c.retChecksum].Nodup := by
  simp only [Config.legal, Config.codesLegal, Bool.and_eq_true, decide_eq_true_eq] at h
  obtain ⟨⟨⟨-, hcodes⟩, -⟩, -⟩ := h
  exact hcodes

theorem reserved_iff {c : Config} {v : Byte} :
    c.reserved v = true ↔ v = c.sof ∨ v = c.esc ∨ c.hasSif = true ∧ v = c.sos := by
  refine ⟨reserved_true, fun h => ?_⟩
  by_contra hv
  obtain ⟨hsof, hesc, hsos⟩ := reserved_false (Bool.eq_false_of_not_eq_true hv)
  rcases h with h | h | h
  · exact hsof h
  · exact hesc h
  · exact hsos h

/-- The byte before a reserved one is not reserved (R8). -/
theorem reserved_pred {c : Config} (h : c.legal = true) {b : Byte} (hb : c.reserved b = true) :
    c.reserved (b - 1) = false := by
  obtain ⟨-, -, -, hsof, hesc, hsos⟩ := legal_markers h
  rcases reserved_true hb with rfl | rfl | ⟨hs, rfl⟩
  · exact hsof
  · exact hesc
  · exact hsos hs

/-! ### The encoding of bodies -/

theorem escapeByte_reserved {c : Config} {b : Byte} (h : c.reserved b = true) : escapeByte c b = [c.esc, b - 1] :=
  if_pos h

theorem escapeByte_plain {c : Config} {b : Byte} (h : c.reserved b = false) : escapeByte c b = [b] :=
  if_neg (by simp [h])

theorem escapeByte_ne_nil (c : Config) (b : Byte) : escapeByte c b ≠ [] := by
  cases h : c.reserved b with
  | true => simp [escapeByte_reserved h]
  | false => simp [escapeByte_plain h]

/-- The first raw byte tells a pair from a plain byte: a plain byte is never `ESC`. -/
theorem escapeByte_pair_ne_plain {c : Config} {b v : Byte} (hb : c.reserved b = true) (hv : c.reserved v = false)
    (xs ys : List Byte) : escapeByte c b ++ xs ≠ escapeByte c v ++ ys := by
  rw [escapeByte_reserved hb, escapeByte_plain hv]
  intro h
  exact (reserved_false hv).2.1 (List.cons.inj h).1.symm

/-- A sequence of encoded bytes is read off its front in one way only (R138). -/
theorem escapeByte_append_inj {c : Config} {b b' : Byte} {xs ys : List Byte}
    (h : escapeByte c b ++ xs = escapeByte c b' ++ ys) : b = b' ∧ xs = ys := by
  cases hb : c.reserved b <;> cases hb' : c.reserved b'
  case false.false =>
    rw [escapeByte_plain hb, escapeByte_plain hb'] at h
    exact List.cons.inj h
  case false.true => exact absurd h.symm (escapeByte_pair_ne_plain hb' hb ys xs)
  case true.false => exact absurd h (escapeByte_pair_ne_plain hb hb' xs ys)
  case true.true =>
    rw [escapeByte_reserved hb, escapeByte_reserved hb'] at h
    obtain ⟨hpred, hrest⟩ := List.cons.inj (List.cons.inj h).2
    exact ⟨sub_left_injective hpred, hrest⟩

theorem escapeBody_nil (c : Config) : escapeBody c [] = [] := rfl

theorem escapeBody_cons_eq (c : Config) (b : Byte) (bs : List Byte) :
    escapeBody c (b :: bs) = escapeByte c b ++ escapeBody c bs := List.flatMap_cons

theorem escapeBody_cons_ne_nil (c : Config) (b : Byte) (bs : List Byte) : escapeBody c (b :: bs) ≠ [] := by
  rw [escapeBody_cons_eq]
  exact List.append_ne_nil_of_left_ne_nil (escapeByte_ne_nil c b) _

/-- The encoding of bodies is injective (R138). -/
theorem escapeBody_injective (c : Config) : Function.Injective (escapeBody c) := by
  intro body body' h
  induction body generalizing body' with
  | nil =>
    cases body' with
    | nil => rfl
    | cons b' bs' => exact absurd h.symm (escapeBody_cons_ne_nil c b' bs')
  | cons b bs ih =>
    cases body' with
    | nil => exact absurd h (escapeBody_cons_ne_nil c b bs)
    | cons b' bs' =>
      rw [escapeBody_cons_eq, escapeBody_cons_eq] at h
      obtain ⟨rfl, hrest⟩ := escapeByte_append_inj h
      rw [ih hrest]

/-- Every raw byte of a body is `ESC` or outside the reserved set. -/
theorem mem_escapeBody {c : Config} (h : c.legal = true) {body : List Byte} {v : Byte} (hv : v ∈ escapeBody c body) :
    v = c.esc ∨ c.reserved v = false := by
  obtain ⟨b, -, hv⟩ := List.mem_flatMap.1 hv
  cases hb : c.reserved b with
  | true =>
    rw [escapeByte_reserved hb, List.mem_pair] at hv
    exact hv.imp_right fun (e : v = b - 1) => e ▸ reserved_pred h hb
  | false =>
    rw [escapeByte_plain hb, List.mem_singleton] at hv
    exact .inr (hv ▸ hb)

/-- No delimiter is among the raw bytes of a body (R138). -/
theorem delimiter_not_mem_escapeBody {c : Config} (h : c.legal = true) {v : Byte}
    (hv : v = c.sof ∨ c.hasSif = true ∧ v = c.sos) (body : List Byte) : v ∉ escapeBody c body := by
  intro hmem
  rcases mem_escapeBody h hmem with hesc | hplain
  · exact delimiter_ne_esc h hv hesc
  · obtain ⟨hsof, -, hsos⟩ := reserved_false hplain
    exact hv.elim hsof hsos

/-- Settles O4: the first byte is read off in one way, and no raw byte of a body but `ESC` is reserved. -/
theorem escapingIsInjectiveAndDelimiterFree : Obligations.EscapingIsInjectiveAndDelimiterFree :=
  fun c body _ h => ⟨fun e => escapeBody_injective c e, delimiter_not_mem_escapeBody h (.inl rfl) body,
    fun hs => delimiter_not_mem_escapeBody h (.inr ⟨hs, rfl⟩) body⟩

end Sys2Proof.Machine
end

section
/-! SUPPORT. The cases of `step` (R81, U1), and that nothing but the test of the configuration answers `illegalConfig`.
-/

namespace Sys2Proof.Machine

/-! ### The cases of a step -/

theorem step_illegal {s : State} (h : s.cfg.legal = false) : step s = .refused .illegalConfig :=
  if_neg (by simp [h])

theorem step_nil {s : State} (h : s.cfg.legal = true) (hi : s.inputs = []) : step s = advance s := by
  unfold step
  rw [if_pos h, hi]

theorem step_cons {s : State} {i : Input} {rest : List Input} (h : s.cfg.legal = true) (hi : s.inputs = i :: rest) :
    step s = applyInput i (s.setInputs rest) := by
  unfold step
  rw [if_pos h, hi]

theorem runWord_ok {l : Layer} {bytes : List Byte} {i : Instr} {s : State} (h : decode s.cfg l bytes = .ok i) :
    runWord l bytes s = exec i s := by
  unfold runWord
  rw [h]

/-- Settles O5: the word is served first, and decoding looks at the configuration alone. -/
theorem stepRunsDecodedWord : Obligations.StepRunsDecodedWord := by
  intro s l bytes rest i hl hi hd
  calc step s = runWord l bytes (s.setInputs rest) := step_cons hl hi
    _ = exec i (s.setInputs rest) := runWord_ok hd

/-! ### Nothing past the test of the configuration answers `illegalConfig` -/

/-- The outcome is not the refusal of an illegal configuration (U1). -/
def NotIllegal {α : Type} (o : Host.Outcome α Fault Refusal) : Prop := o ≠ .refused .illegalConfig

section
variable {α : Type}

@[simp] theorem notIllegal_next (t : α) : NotIllegal (.next t : Host.Outcome α Fault Refusal) := nofun

@[simp] theorem notIllegal_fault (f : Fault) : NotIllegal (.fault f : Host.Outcome α Fault Refusal) := nofun

@[simp] theorem notIllegal_undecodable (e : DecodeError) :
    NotIllegal (.refused (.undecodable e) : Host.Outcome α Fault Refusal) := nofun

@[simp] theorem notIllegal_tooLong : NotIllegal (.refused .operandTooLong : Host.Outcome α Fault Refusal) := nofun

@[simp] theorem notIllegal_absent : NotIllegal (.refused .featureAbsent : Host.Outcome α Fault Refusal) := nofun

/-- A continuation that passes faults and refusals on adds no such refusal. -/
theorem NotIllegal.passOn {β : Type} {f : Host.Outcome α Fault Refusal → Host.Outcome β Fault Refusal}
    {o : Host.Outcome α Fault Refusal} (h : NotIllegal o) (hnext : ∀ r, NotIllegal (f (.next r)))
    (hfault : ∀ e, f (.fault e) = .fault e) (hrefused : ∀ r, f (.refused r) = .refused r) : NotIllegal (f o) := by
  cases o with
  | next r => exact hnext r
  | fault e => rw [hfault]; exact notIllegal_fault e
  | refused r =>
    rw [hrefused]
    rintro ⟨⟩
    exact h rfl

end

/-! ### Handlers and dispatch -/

theorem NotIllegal.boundedDone {o : BoundedOutcome} (h : NotIllegal o) : NotIllegal (boundedDone o) :=
  h.passOn (fun _ => notIllegal_next _) (fun _ => rfl) (fun _ => rfl)

theorem NotIllegal.chunkedDone {o : ChunkOutcome} (h : NotIllegal o) : NotIllegal (chunkedDone o) :=
  h.passOn (fun _ => notIllegal_next _) (fun _ => rfl) (fun _ => rfl)

theorem NotIllegal.manyReturn {o : ChunkOutcome} (h : NotIllegal o) : NotIllegal (manyReturn o) :=
  h.passOn (fun _ => notIllegal_next _) (fun _ => rfl) (fun _ => rfl)

theorem NotIllegal.dispatchReturn {o : BoundedOutcome} (h : NotIllegal o) : NotIllegal (dispatchReturn o) :=
  h.passOn (fun _ => notIllegal_next _) (fun _ => rfl) (fun _ => rfl)

theorem getmap_notIllegal (s : State) : NotIllegal (getmap s) := by
  unfold getmap
  split <;> simp

theorem hcallC_notIllegal (h : ChunkedHandler) (isLast isWrite : Bool) (off : Offset) (clen : Byte) (s : State) :
    NotIllegal (hcallC h isLast isWrite off clen s) := by
  cases h with
  | props => simp only [hcallC]; split <;> simp
  | blob base size writable => exact notIllegal_next _
  | app id => simp only [hcallC, appChunked]; split <;> simp

theorem many_notIllegal (s : State) : NotIllegal (many s) := by
  unfold many
  split
  · exact notIllegal_absent
  · split
    · exact notIllegal_next _
    · simp only
      split
      · exact notIllegal_next _
      · exact (hcallC_notIllegal _ _ _ _ _ _).manyReturn

theorem hcallB_notIllegal (h : BoundedHandler) (s : State) : NotIllegal (hcallB h s) := by
  cases h with
  | echo => exact notIllegal_next _
  | getmap => exact getmap_notIllegal s
  | many => exact many_notIllegal s
  | app id => exact notIllegal_next _

theorem dispatch_notIllegal {x : Byte} {s : State} {o : BoundedOutcome} (h : dispatch x s = some o) :
    NotIllegal o := by
  obtain ⟨b, -, rfl⟩ := Option.map_eq_some_iff.1 h
  exact hcallB_notIllegal b s

theorem dispatchTo_notIllegal (x : Byte) (s : State) : NotIllegal (dispatchTo x s) := by
  unfold dispatchTo
  split
  · next h => exact (dispatch_notIllegal h).boundedDone
  · exact notIllegal_next _

theorem boundedMany_notIllegal (s : State) : NotIllegal (boundedDone (many s)) := (many_notIllegal s).boundedDone

/-! ### The operand checks -/

theorem NotIllegal.withData {data : List Byte} {go : Answer} (h : NotIllegal go) : NotIllegal (withData data go) := by
  unfold Machine.withData
  split
  · exact notIllegal_tooLong
  · exact h

theorem NotIllegal.withChunk {s : State} {clen : Byte} {go : Answer} (h : NotIllegal go) :
    NotIllegal (withChunk s clen go) := by
  unfold Machine.withChunk
  split
  · exact notIllegal_absent
  · split
    · exact notIllegal_tooLong
    · exact h

theorem sifGuard_notIllegal (data : List Byte) (s go : State) : NotIllegal (sifGuard data s go) := by
  unfold sifGuard
  split
  · exact notIllegal_absent
  · split <;> simp

/-! ### The Frame Processor -/

theorem payloadResult_notIllegal (r : RdResult) (s : State) : NotIllegal (payloadResult r s) := by
  cases r with
  | byte v => simp only [payloadResult]; split <;> simp
  | timeout => exact notIllegal_next _
  | escError => exact notIllegal_next _

theorem deliver_notIllegal (r : RdResult) (s : State) : NotIllegal (deliver r s) := by
  unfold deliver takeResult
  split
  case h_5 =>
    split
    · exact notIllegal_next _
    · exact payloadResult_notIllegal r _
  all_goals exact notIllegal_next _

theorem stepRead_notIllegal (s : State) : NotIllegal (stepRead s) := deliver_notIllegal _ _

theorem stepPayload_notIllegal (s : State) : NotIllegal (stepPayload s) := by
  unfold stepPayload
  split
  · exact notIllegal_next _
  · exact stepRead_notIllegal s

theorem stepDispatch_notIllegal (s : State) : NotIllegal (stepDispatch s) := by
  unfold stepDispatch
  split
  · next h => exact (dispatch_notIllegal h).dispatchReturn
  · exact notIllegal_next _

theorem fpStep_notIllegal (s : State) : NotIllegal (fpStep s) := by
  unfold fpStep
  cases s.fp with
  | idle => exact notIllegal_next _
  | readSeq | readCmdOffset | readLength | readChecksum => exact stepRead_notIllegal s
  | readPayload => exact stepPayload_notIllegal s
  | dispatch => exact stepDispatch_notIllegal s
  | sendReply => exact notIllegal_next _

theorem runToIdle_notIllegal (n : Nat) (s : State) : NotIllegal (runToIdle n s) := by
  induction n generalizing s with
  | zero => exact notIllegal_next s
  | succ n ih =>
    unfold runToIdle
    split
    · exact notIllegal_next s
    · have hstep := fpStep_notIllegal s
      cases h : fpStep s with
      | next u => exact ih u
      | fault f => exact notIllegal_fault f
      | refused r => rwa [h] at hstep

theorem poll_notIllegal (s : State) : NotIllegal (poll s) := by
  unfold poll
  split
  · exact notIllegal_next _
  · split
    · exact notIllegal_next _
    · split
      · exact notIllegal_next _
      · exact runToIdle_notIllegal _ _

theorem rawArrival_notIllegal (bytes : List Byte) (s : State) : NotIllegal (rawArrival bytes s) := by
  unfold rawArrival
  cases s.fp with
  | idle | dispatch | sendReply => exact notIllegal_next _
  | readSeq | readCmdOffset | readLength | readPayload | readChecksum => exact stepRead_notIllegal _

theorem returnArrival_notIllegal (r : Byte) (s : State) : NotIllegal (returnArrival r s) := by
  unfold returnArrival
  simp only
  split <;> simp

theorem execManyhdrReq_notIllegal (idx flags : Byte) (off : Offset) (chunk : List Byte) (s : State) :
    NotIllegal (execManyhdrReq idx flags off chunk s) := by
  unfold execManyhdrReq
  split
  · exact notIllegal_tooLong
  · exact boundedMany_notIllegal _

theorem execManyhdrReply_notIllegal (r flags : Byte) (off : Offset) (chunk : List Byte) (s : State) :
    NotIllegal (execManyhdrReply r flags off chunk s) := by
  refine NotIllegal.withChunk ?_
  split
  · exact notIllegal_tooLong
  · exact notIllegal_next _

/-! ### Every instruction, every input -/

/-- No meaning of an instruction answers that the configuration is illegal. -/
theorem exec_notIllegal (i : Instr) (s : State) : NotIllegal (exec i s) := by
  cases i with
  | rawSof | rawSos | rawEscpair | rawPlain => exact rawArrival_notIllegal _ s
  | frameReq => exact (poll_notIllegal _).withData
  | frameReply | opCsum | opSendframe => exact (notIllegal_next _).withData
  | frameSif | opSifsend => exact sifGuard_notIllegal _ _ _
  | manyhdrReq => exact execManyhdrReq_notIllegal _ _ _ _ s
  | manyhdrReply => exact execManyhdrReply_notIllegal _ _ _ _ s
  | manyflagIslast | manyflagIswrite | manyidxProps0 | manyidxBlob1 | manyidxOob | opMany =>
    exact boundedMany_notIllegal _
  | cmdGetmap0 | cmdMany1 | cmdEcho2 | cmdEcho3 | cmdEcho4 | cmdOob | opDispatch => exact dispatchTo_notIllegal _ _
  | retOk | retFail | retOob | retTimeout | retChecksum => exact returnArrival_notIllegal _ s
  | rdByte | rdTimeout | rdEscerr => exact deliver_notIllegal _ s
  | fpReadSeq | fpReadCmdOffset | fpReadLength | fpReadChecksum => exact stepRead_notIllegal _
  | fpReadPayload => exact stepPayload_notIllegal _
  | fpDispatch => exact stepDispatch_notIllegal _
  | opPoll => exact poll_notIllegal s
  | opHcallB h => exact (hcallB_notIllegal h s).boundedDone
  | opGetmap => exact (getmap_notIllegal s).boundedDone
  | opHcallC | opProps => exact (hcallC_notIllegal _ _ _ _ _ s).chunkedDone.withChunk
  | opChBlob => exact (notIllegal_next _).withChunk
  | frameErrOob | frameErrTimeout | frameErrChecksum | fpIdle | fpSendReply | siteLineCmd | siteLineOob | siteLineLen
  | siteLinePayload | siteLineCsumRd | siteLineCsumBad | siteLineManyOob | opRawrd | opDec | opEnc | opEcho | opTas
  | opRel | opErrframe | opReset => exact notIllegal_next _

theorem runWord_notIllegal (l : Layer) (bytes : List Byte) (s : State) : NotIllegal (runWord l bytes s) := by
  unfold runWord
  split
  · exact exec_notIllegal _ s
  · exact notIllegal_undecodable _

theorem advance_notIllegal (s : State) : NotIllegal (advance s) := by
  unfold advance
  split
  · exact notIllegal_next _
  · split
    · exact notIllegal_next _
    · exact runWord_notIllegal _ _ s

theorem applyInput_notIllegal (i : Input) (s : State) : NotIllegal (applyInput i s) := by
  cases i with
  | word l bytes => exact runWord_notIllegal l bytes s
  | run => exact advance_notIllegal s
  | sif x data => exact sifGuard_notIllegal data s _
  | link | arrive | elapse | answers => exact notIllegal_next _

theorem step_notIllegal {s : State} (h : s.cfg.legal = true) : NotIllegal (step s) := by
  cases hi : s.inputs with
  | nil => rw [step_nil h hi]; exact advance_notIllegal s
  | cons i rest => rw [step_cons h hi]; exact applyInput_notIllegal i _

/-- Exactly the illegal configurations are refused as such (U1). -/
theorem step_refused_illegal_iff (s : State) : step s = .refused .illegalConfig ↔ s.cfg.legal = false :=
  ⟨fun hs => Bool.eq_false_of_not_eq_true fun h => step_notIllegal h hs, step_illegal⟩

/-- Settles O8: only `step`'s own test answers `illegalConfig`, and `legal` taken apart constraint by constraint. -/
theorem illegalConfigurationsRefused : Obligations.IllegalConfigurationsRefused := by
  refine ⟨step_refused_illegal_iff, fun c h => ?_⟩
  obtain ⟨hss, hse, hes, -⟩ := legal_markers h
  obtain ⟨hmany, -, -, -, hjt, hct, hbits⟩ := legal_tables h
  have hcodes := legal_codes h
  simp only [List.nodup_cons, List.mem_cons, List.not_mem_nil, or_false, not_or] at hcodes
  obtain ⟨⟨hf0, -⟩, ⟨hfo, hft, hfc⟩, ⟨hot, hoc⟩, htc, -⟩ := hcodes
  exact ⟨⟨hss, hse, hes⟩, fun b hb => reserved_false (reserved_pred h (reserved_iff.2 hb)), legal_checksum h,
    ⟨hot, hoc, htc⟩, ⟨Ne.symm hf0, hfo, hft, hfc⟩, hmany, hbits, hjt, hct⟩

/-- Settles O9: each field of the reset state as R45 gives it. -/
theorem resetValues : Obligations.ResetValues :=
  ⟨rfl, rfl, rfl, rfl, rfl, rfl, rfl, by decide⟩

end Sys2Proof.Machine
end

section
/-! SUPPORT. A command offset inside the table calls its entry, one outside takes the out-of-range exit (R166, R201);
what the built-in handlers then answer (R206, R207, R227). -/

namespace Sys2Proof.Machine

theorem dispatchTo_entry {x : Byte} {s : State} {b : BoundedHandler} (h : s.cfg.jt[x.toNat]? = some b) :
    dispatchTo x s = boundedDone (hcallB b s) := by
  simp [dispatchTo, dispatch, h]

theorem dispatchTo_outside {x : Byte} {s : State} (h : s.cfg.tableSize ≤ x.toNat) :
    dispatchTo x s = .next (outOfBounds s.cfg.lineOob s) := by
  simp [dispatchTo, dispatch, List.getElem?_eq_none h]

/-- `GETMAP` when every name fits (R207). -/
theorem getmap_allFit {s : State} {image : List Byte} (hn : s.cfg.hasNames = true)
    (h : serialiseNames 0 s.cfg.names = (true, image)) :
    getmap s = .next (handlerReturn Config.retOk (lengthByte image) (s.bufWriteAll 0 image)) := by
  simp [getmap, hn, h]

/-- `MANY` with a payload shorter than a header (R227). -/
theorem many_short {s : State} (hm : s.cfg.hasMany = true) (h : s.len.toNat < Config.header) :
    many s = .next (handlerReturn s.cfg.retFail 0 s) := by
  simp [many, hm, h]

/-! ### The command rows under the reference table -/

/-- The bytes `GETMAP` answers for CFG_REF's names (R12, R207). -/
def refNames : List Byte :=
  [0x6D, 0x61, 0x70, 0x00, 0x6D, 0x61, 0x6E, 0x79, 0x00, 0x65, 0x63, 0x68, 0x6F, 0x00,
    0x65, 0x63, 0x68, 0x6F, 0x32, 0x00, 0x65, 0x63, 0x68, 0x6F, 0x33, 0x00]

theorem serialiseNames_ref : serialiseNames 0 Config.ref.names = (true, refNames) := by decide

section
variable {s : State}

theorem getmapRow_ref (hc : s.cfg = Config.ref) :
    exec .cmdGetmap0 s = .next { s with
      cmd := 0, len := 26, result := .handler 0 26, buf := s.buf.writeAll 0 refNames } := by
  have hentry : (s.setCmd 0).cfg.jt[(0 : Byte).toNat]? = some .getmap := by rw [State.setCmd_cfg, hc]; rfl
  have hnames : (s.setCmd 0).cfg.hasNames = true := by rw [State.setCmd_cfg, hc]; rfl
  have himage : serialiseNames 0 (s.setCmd 0).cfg.names = (true, refNames) := by
    rw [State.setCmd_cfg, hc]; exact serialiseNames_ref
  calc exec .cmdGetmap0 s = boundedDone (getmap (s.setCmd 0)) := dispatchTo_entry hentry
    _ = boundedDone (.next (handlerReturn Config.retOk (lengthByte refNames)
        ((s.setCmd 0).bufWriteAll 0 refNames))) := by rw [getmap_allFit hnames himage]

theorem manyRow_ref (hc : s.cfg = Config.ref) (h : s.len.toNat < 6) :
    exec .cmdMany1 s = .next { s with cmd := 1, len := 0, result := .handler 1 0 } := by
  have hentry : (s.setCmd 1).cfg.jt[(1 : Byte).toNat]? = some .many := by rw [State.setCmd_cfg, hc]; rfl
  have hmany : (s.setCmd 1).cfg.hasMany = true := by rw [State.setCmd_cfg, hc]; rfl
  calc exec .cmdMany1 s = boundedDone (many (s.setCmd 1)) := dispatchTo_entry hentry
    _ = boundedDone (.next (handlerReturn s.cfg.retFail 0 (s.setCmd 1))) := by rw [many_short hmany h]; rfl
    _ = boundedDone (.next (handlerReturn 1 0 (s.setCmd 1))) := by rw [hc]; rfl

/-- An offset whose entry is `ECHO` answers success and the payload as it is (R206). -/
theorem commandArrival_echo {x : Byte} (h : s.cfg.jt[x.toNat]? = some .echo) :
    commandArrival x s = .next { s with cmd := x, result := .handler 0 s.len } :=
  dispatchTo_entry (s := s.setCmd x) h

/-- An offset outside the table is the out-of-range exit with the offset in `CMD` (R166, R269). -/
theorem commandArrival_outside {x : Byte} (h : s.cfg.tableSize ≤ x.toNat) :
    ∃ t, commandArrival x s = .next t ∧ ErrorExit { s with cmd := x } t .oob s.cfg.lineOob :=
  ⟨_, dispatchTo_outside (s := s.setCmd x) h, raise_errorExit .oob _ (s.setCmd x)⟩

end

/-- Settles O42: each row is the dispatch of its offset in CFG_REF's table. -/
theorem referenceCommandsComplete : Obligations.ReferenceCommandsComplete := by
  intro s hc
  have hecho : ∀ x : Byte, Config.ref.jt[x.toNat]? = some .echo →
      commandArrival x s = .next { s with cmd := x, result := .handler 0 s.len } :=
    fun x h => commandArrival_echo (hc ▸ h)
  refine ⟨getmapRow_ref hc, manyRow_ref hc, hecho 2 rfl, hecho 3 rfl, hecho 4 rfl, fun x hx => ?_⟩
  obtain ⟨t, hrun, hexit⟩ := commandArrival_outside (s := s) (x := x) (hc ▸ hx)
  exact ⟨t, hrun, hc ▸ hexit⟩

end Sys2Proof.Machine
end

section
/-! SUPPORT. What every instruction keeps, whatever it does: the configuration, the bytes on the wire, the canonical
memories and the counter's range (R31, R32, R36 to R40, R178, R244). -/

namespace Sys2Proof.Machine

/-- A state that differs in registers of the exchange, the SIF agent's excepted, and in the result port alone. -/
theorem keeps_of_registers {s t : State} (h : t = { s with
    fp := t.fp, seqv := t.seqv, cmd := t.cmd, len := t.len, csum := t.csum, ret := t.ret, line := t.line
    busy := t.busy, midx := t.midx, entered := t.entered, result := t.result }) : Keeps s t := by
  rw [h]
  exact keeps_of rfl rfl rfl rfl rfl rfl rfl rfl rfl rfl

/-! ### Rows of the Frame Processor and of the raw bytes -/

/-- Raw bytes put at the head of the receive queue, and taken or left there. -/
theorem keeps_rawArrival {bytes : List Byte} {s t : State} (h : rawArrival bytes s = .next t) :
    Keeps (s.offer bytes) t := by
  unfold rawArrival at h
  cases hf : s.fp <;> rw [hf] at h
  case idle => exact keeps_stepIdle h
  case dispatch | sendReply => cases h; exact keeps_refl _
  all_goals exact keeps_stepRead h

theorem keeps_returnArrival {r : Byte} {s t : State} (h : returnArrival r s = .next t) : Keeps s t := by
  have hret : Keeps s (s.setRet r) := keeps_of_registers rfl
  unfold returnArrival at h
  simp only at h
  split at h
  · cases h; exact keeps_trans hret (keeps_afterHandler _)
  · cases h; exact hret

theorem keeps_commandArrival {x : Byte} {s t : State} (h : commandArrival x s = .next t) : Keeps s t :=
  keeps_trans (t := s.setCmd x) (keeps_of_registers rfl) (keeps_dispatchTo h)

/-! ### Sending by itself -/

theorem keeps_sendAlone (m : Marker) (seq x : Byte) (data : List Byte) (s : State) :
    Keeps s (sendAlone m seq x data s) :=
  keeps_trans (keeps_sendFrame m seq x data s) (keeps_answer _ _)

theorem keeps_errFrame (code : ErrCode) (seq : Byte) (line : Half) (s : State) : Keeps s (errFrame code seq line s).2 :=
  keeps_trans (t := s.loadError line (errByte s.cfg code)) (keeps_of_registers rfl)
    (keeps_sendFrame _ _ _ _ _)

theorem keeps_errAlone (code : ErrCode) (seq : Byte) (line : Half) (s : State) : Keeps s (errAlone code seq line s) :=
  keeps_trans (keeps_errFrame code seq line s) (keeps_answer _ _)

theorem keeps_enc (b : Byte) (s : State) : Keeps s (enc b s).2 := by
  rw [(enc_offered b s).2]
  exact ⟨rfl, List.suffix_refl _, List.prefix_append _ _, rfl, rfl, rfl, rfl, id, id, id⟩

theorem keeps_tas (s : State) : Keeps s (tas s).2 := by
  unfold tas
  split <;> exact keeps_of_registers rfl

/-! ### Handlers called by themselves -/

theorem keeps_bufWriteAll (s : State) (a : Nat) (vs : List Byte) : Keeps s (s.bufWriteAll a vs) :=
  ⟨rfl, List.suffix_refl _, List.prefix_refl _, rfl, rfl, rfl, rfl, writeAll_wf a vs, id, id⟩

theorem keeps_boundedDone {o : BoundedOutcome} {s t : State} (hc : BoundedCall s o) (h : boundedDone o = .next t) :
    Keeps s t := by
  obtain ⟨r, hr⟩ := boundedDone_next.1 h
  exact keeps_bounded hc hr

/-- `MANY` after header bytes have been put in `BUF`. -/
theorem keeps_manyArrival {a : Nat} {vs : List Byte} {s t : State}
    (h : boundedDone (many (s.bufWriteAll a vs)) = .next t) : Keeps s t :=
  keeps_trans (keeps_bufWriteAll s a vs) (keeps_boundedDone (many_call _) h)

theorem withData_next {data : List Byte} {go : Answer} {t : State} (h : withData data go = .next t) :
    go = .next t := by
  unfold withData at h
  split at h
  · cases h
  · exact h

theorem withChunk_next {s t : State} {clen : Byte} {go : Answer} (h : withChunk s clen go = .next t) :
    go = .next t := by
  unfold withChunk at h
  split at h
  · cases h
  · split at h
    · cases h
    · exact h

theorem sifGuard_next {data : List Byte} {s go t : State} (h : sifGuard data s go = .next t) :
    data.length ≤ Config.cap ∧ t = go := by
  unfold sifGuard at h
  split at h
  · cases h
  · split at h
    · cases h
    · next hlen => cases h; exact ⟨Nat.not_lt.1 hlen, rfl⟩

theorem keeps_execManyhdrReq {idx flags : Byte} {off : Offset} {chunk : List Byte} {s t : State}
    (h : execManyhdrReq idx flags off chunk s = .next t) : Keeps s t := by
  unfold execManyhdrReq at h
  split at h
  · cases h
  · have hload : Keeps s (s.loadPayload (headerBytes s.cfg idx flags off ++ chunk)) :=
      keeps_trans (keeps_bufWriteAll s 0 _) (keeps_of_registers rfl)
    exact keeps_trans hload (keeps_boundedDone (many_call _) h)

theorem keeps_execManyhdrReply {r flags : Byte} {off : Offset} {chunk : List Byte} {s t : State}
    (h : execManyhdrReply r flags off chunk s = .next t) : Keeps s t := by
  have h := withChunk_next h
  split at h
  · cases h
  · cases h
    have hchunk : Keeps s (s.chunkWrite chunk) := keeps_bufWriteAll s _ _
    have hheader : Keeps (s.chunkWrite chunk) ((s.chunkWrite chunk).bufWriteAll 0 (headerBytes s.cfg r flags off)) :=
      keeps_bufWriteAll _ _ _
    exact keeps_trans hchunk (keeps_trans hheader (keeps_of_registers rfl))

theorem keeps_chunkedDone {o : ChunkOutcome} {s t : State} (hc : ChunkCall s o) (h : chunkedDone o = .next t) :
    Keeps s t := by
  cases o with
  | next q =>
    cases h
    obtain ⟨hframe, hform, -, -⟩ := hc q.1 q.2 rfl
    have hhandler : HandlerFrame s q.2 := by
      unfold ChunkFrame at hframe
      rw [hframe]
      rfl
    exact keeps_trans (keeps_handler ⟨hhandler, hform⟩) (keeps_answer _ _)
  | fault f => cases h
  | refused r => cases h

/-! ### The SIF agent: what it changes besides -/

/-- The second half of a SIF send clears the job and keeps the rest. -/
theorem keeps_sifFinish (j : SifJob) (s : State) : Keeps { s with sif := none } (sifFinish j s) := by
  have h := keeps_sendFrame .sos j.seq j.cmd j.data s
  exact ⟨h.cfg, h.rx, h.tx, h.sifseq, rfl, h.link, h.inputs, h.buffer, h.store, h.counter⟩

/-- A whole SIF send counts `SIFSEQ` and keeps the rest (R244). -/
theorem keeps_sifWhole (x : Byte) (data : List Byte) (s : State) :
    ∃ job n, Keeps { s with sif := job, sifseq := n } (sifWhole x data s) := by
  unfold sifWhole sifBegin
  split
  · exact ⟨s.sif, s.sifseq, keeps_answer s _⟩
  · refine ⟨none, s.sifseq + 1, ?_⟩
    refine keeps_trans ?_ (keeps_sifFinish _ (sifTake x data s))
    exact keeps_of_registers rfl

/-! ### Every instruction -/

/-- The rows that change `SIFSEQ`: the SIF send, a SIF frame as its product, and `RESET` (R244, R300). -/
def setsSifseq : Instr → Bool
  | .opSifsend _ _ | .frameSif _ _ _ _ | .opReset => true
  | _ => false

/-- Every other instruction keeps what a micro-step keeps, from the state with its raw bytes on the receive queue. -/
theorem exec_keeps {i : Instr} {s t : State} (h : exec i s = .next t) (hi : setsSifseq i = false) :
    ∃ rx, Keeps (s.setRx rx) t := by
  have same : Keeps s t → ∃ rx, Keeps (s.setRx rx) t := fun k => ⟨s.rx, k⟩
  have setFp : ∀ f, Keeps (s.setFp f) t → ∃ rx, Keeps (s.setRx rx) t :=
    fun f k => same (keeps_trans (keeps_setFp s f) k)
  cases i with
  | opSifsend | frameSif | opReset => cases hi
  | rawSof | rawSos | rawEscpair | rawPlain => exact ⟨_, keeps_rawArrival h⟩
  | frameReq => exact ⟨_, keeps_poll (withData_next h)⟩
  | frameReply | opSendframe => cases withData_next h; exact same (keeps_sendAlone _ _ _ _ s)
  | frameErrOob | frameErrTimeout | frameErrChecksum | opErrframe => cases h; exact same (keeps_errAlone _ _ _ s)
  | manyhdrReq => exact same (keeps_execManyhdrReq h)
  | manyhdrReply => exact same (keeps_execManyhdrReply h)
  | manyflagIslast | manyflagIswrite | manyidxProps0 | manyidxBlob1 | manyidxOob => exact same (keeps_manyArrival h)
  | cmdGetmap0 | cmdMany1 | cmdEcho2 | cmdEcho3 | cmdEcho4 | cmdOob => exact same (keeps_commandArrival h)
  | retOk | retFail | retOob | retTimeout | retChecksum => exact same (keeps_returnArrival h)
  | rdByte | rdTimeout | rdEscerr => exact same (keeps_deliver h)
  | fpIdle => exact setFp _ (keeps_stepIdle h)
  | fpReadSeq | fpReadCmdOffset | fpReadLength | fpReadChecksum => exact setFp _ (keeps_stepRead h)
  | fpReadPayload => exact setFp _ (keeps_stepPayload h)
  | fpDispatch => exact setFp _ (keeps_stepDispatch h)
  | fpSendReply => cases h; exact setFp _ (keeps_stepSendReply _)
  | siteLineCmd | siteLineOob | siteLineLen | siteLinePayload | siteLineCsumRd | siteLineCsumBad | siteLineManyOob =>
    cases h; exact same (keeps_raise _ _ s)
  | opRawrd => cases h; exact same (keeps_trans (keeps_rawrd s) (keeps_answer _ _))
  | opDec => cases h; exact same (keeps_trans (keeps_dec s) (keeps_answer _ _))
  | opEnc => cases h; exact same (keeps_trans (keeps_enc _ s) (keeps_answer _ _))
  | opCsum => cases withData_next h; exact same (keeps_answer s _)
  | opPoll => exact same (keeps_poll h)
  | opDispatch => exact same (keeps_dispatchTo h)
  | opHcallB b => exact same (keeps_boundedDone (hcallB_call b s) h)
  | opEcho => exact same (keeps_boundedDone (echo_call s) h)
  | opGetmap => exact same (keeps_boundedDone (getmap_call s) h)
  | opMany => exact same (keeps_boundedDone (many_call s) h)
  | opHcallC | opProps => exact same (keeps_chunkedDone (hcallC_call _ _ _ _ _ s) (withChunk_next h))
  | opChBlob => exact same (keeps_chunkedDone (chBlob_call _ _ _ _ _ _ _ s) (withChunk_next h))
  | opTas =>
    cases h
    exact same (keeps_trans (keeps_tas s) (keeps_answer _ _))
  | opRel => cases h; exact same (keeps_of_registers rfl)

/-- A SIF send or a SIF frame, past its checks, is the whole operation. -/
theorem exec_sif_keeps {x : Byte} {data : List Byte} {s t : State} (h : sifGuard data s (sifWhole x data s) = .next t) :
    ∃ job n, Keeps { s with sif := job, sifseq := n } t := by
  rw [(sifGuard_next h).2]
  exact keeps_sifWhole x data s

/-- Settles O55: all but three rows keep what a micro-step keeps; a SIF send counts `SIFSEQ`, `RESET` clears it. -/
theorem tablesConstantAndWireOnlyGrows : Obligations.TablesConstantAndWireOnlyGrows := by
  intro i s t h
  cases hi : setsSifseq i with
  | false =>
    obtain ⟨rx, k⟩ := exec_keeps h hi
    exact ⟨k.cfg, k.tx, fun _ _ _ => k.sifseq⟩
  | true =>
    cases i with
    | opSifsend x data =>
      obtain ⟨job, n, k⟩ := exec_sif_keeps h
      exact ⟨k.cfg, k.tx, fun hne => absurd rfl (hne x data)⟩
    | frameSif q x data c =>
      obtain ⟨job, n, k⟩ := exec_sif_keeps h
      exact ⟨k.cfg, k.tx, fun _ hne => absurd rfl (hne q x data c)⟩
    | opReset => cases h; exact ⟨rfl, List.prefix_refl _, fun _ _ hne => absurd rfl hne⟩
    | _ => cases hi

/-! ### The data invariant -/

theorem Keeps.dataInv {s t : State} (k : Keeps s t) (h : DataInv s) : DataInv t where
  legal := k.cfg ▸ h.legal
  buffer := k.buffer h.buffer
  store := k.store h.store
  counter := k.cfg ▸ k.counter h.counter

/-- The data invariant speaks of the configuration, the two memories and the counter alone. -/
theorem dataInv_congr {s t : State} (h : DataInv s) (hcfg : t.cfg = s.cfg) (hbuf : t.buf = s.buf)
    (hstore : t.store = s.store) (htcnt : t.tcnt = s.tcnt) : DataInv t where
  legal := hcfg ▸ h.legal
  buffer := hbuf ▸ h.buffer
  store := hstore ▸ h.store
  counter := by rw [hcfg, htcnt]; exact h.counter

/-- Every instruction keeps the data invariant. -/
theorem exec_dataInv {i : Instr} {s t : State} (hd : DataInv s) (h : exec i s = .next t) : DataInv t := by
  cases hi : setsSifseq i with
  | false =>
    obtain ⟨rx, k⟩ := exec_keeps h hi
    exact k.dataInv (dataInv_congr hd rfl rfl rfl rfl)
  | true =>
    cases i with
    | opSifsend | frameSif =>
      obtain ⟨job, n, k⟩ := exec_sif_keeps h
      exact k.dataInv (dataInv_congr hd rfl rfl rfl rfl)
    | opReset => cases h; exact ⟨hd.legal, rfl, hd.store, Nat.zero_le _⟩
    | _ => cases hi

theorem runWord_next {l : Layer} {bytes : List Byte} {s t : State} (h : runWord l bytes s = .next t) :
    ∃ i, decode s.cfg l bytes = .ok i ∧ exec i s = .next t := by
  unfold runWord at h
  split at h
  · next i hi => exact ⟨i, hi, h⟩
  · cases h

theorem runWord_dataInv {l : Layer} {bytes : List Byte} {s t : State} (hd : DataInv s)
    (h : runWord l bytes s = .next t) : DataInv t := by
  obtain ⟨i, -, hi⟩ := runWord_next h
  exact exec_dataInv hd hi

theorem advance_dataInv {s t : State} (hd : DataInv s) (h : advance s = .next t) : DataInv t := by
  unfold advance at h
  split at h
  · cases h; exact (keeps_sifFinish _ s).dataInv (dataInv_congr hd rfl rfl rfl rfl)
  · split at h
    · cases h; exact (keeps_enterPoll s).dataInv hd
    · exact runWord_dataInv hd h

theorem sifBegin_dataInv (x : Byte) (data : List Byte) {s : State} (hd : DataInv s) : DataInv (sifBegin x data s) := by
  unfold sifBegin
  split <;> exact dataInv_congr hd rfl rfl rfl rfl

theorem applyInput_dataInv {i : Input} {s t : State} (hd : DataInv s) (h : applyInput i s = .next t) : DataInv t := by
  cases i with
  | word l bytes => exact runWord_dataInv hd h
  | run => exact advance_dataInv hd h
  | sif x data => rw [(sifGuard_next h).2]; exact sifBegin_dataInv x data hd
  | link | arrive | elapse | answers => cases h; exact dataInv_congr hd rfl rfl rfl rfl

/-- Settles O57: an instruction, the SIF agent and a transport event each keep the data invariant. -/
theorem stepKeepsDataInvariant : Obligations.StepKeepsDataInvariant := by
  intro s t hd h
  cases hi : s.inputs with
  | nil => rw [step_nil hd.legal hi] at h; exact advance_dataInv hd h
  | cons i rest =>
    rw [step_cons hd.legal hi] at h
    have hrest : DataInv (s.setInputs rest) := dataInv_congr hd rfl rfl rfl rfl
    exact applyInput_dataInv hrest h

end Sys2Proof.Machine
end

section
/-! SUPPORT. Where the sequencer goes (R23): the end of a poll, and what a read result leads to, one case per
transition. -/

namespace Sys2Proof.Machine

/-! ### The end of a poll, and what stores nothing -/

/-- No poll stands in `t`: `Idle`, `BUSY` free, no start marker to be read (R175, R278). -/
structure Released (t : State) : Prop where
  fp : t.fp = .idle
  busy : t.busy = false
  entered : t.entered = false

theorem endPoll_released (st : PollStatus) (s : State) : Released (endPoll st s) := ⟨rfl, rfl, rfl⟩

theorem raise_released (code : ErrCode) (line : Half) (s : State) : Released (raise code line s) := ⟨rfl, rfl, rfl⟩

/-- Both memories of `t` are those of `s`. -/
def StoresNothing (s t : State) : Prop := t.buf = s.buf ∧ t.store = s.store

theorem storesNothing_refl (s : State) : StoresNothing s s := ⟨rfl, rfl⟩

theorem storesNothing_trans {s t u : State} (a : StoresNothing s t) (b : StoresNothing t u) : StoresNothing s u :=
  ⟨b.1.trans a.1, b.2.trans a.2⟩

theorem StoresNothing.sameMemory {s t : State} (h : StoresNothing s t) : SameMemory s t := by
  obtain ⟨hbuf, hstore⟩ := h
  intro a
  rw [State.bufRead, State.bufRead, hbuf, hstore]
  exact ⟨rfl, rfl⟩

theorem rawrd_storesNothing (s : State) : StoresNothing s (rawrd s).2 := by
  obtain ⟨k, -, rx, -, e, -⟩ := rawrd_cases s
  rw [e]
  exact ⟨rfl, rfl⟩

theorem dec_storesNothing (s : State) : StoresNothing s (dec s).2 := by
  obtain ⟨rx, k, n, -, -, -, e⟩ := dec_cases s
  rw [e]
  exact ⟨rfl, rfl⟩

theorem enc_storesNothing (b : Byte) (s : State) : StoresNothing s (enc b s).2 := by
  rw [(enc_offered b s).2]
  exact ⟨rfl, rfl⟩

theorem sendFrame_storesNothing (m : Marker) (seq x : Byte) (data : List Byte) (s : State) :
    StoresNothing s (sendFrame m seq x data s).2 := by
  rw [(sendFrame_spec m seq x data s).2]
  exact ⟨rfl, rfl⟩

theorem raise_storesNothing (code : ErrCode) (line : Half) (s : State) : StoresNothing s (raise code line s) := by
  have h := raise_errorExit code line s
  unfold ErrorExit at h
  rw [h]
  exact ⟨rfl, rfl⟩

/-! ### A read result inside a frame body -/

/-- What a read result does in a state that reads a frame body, with a byte still to be read: the transition of that
state with the byte read, or an exit of the poll (R164 to R171). -/
inductive Receives (s : State) : State → Prop
  | seq (v : Byte) : s.fp = .readSeq → Receives s (captureSeq v s)
  | cmd (v : Byte) : s.fp = .readCmdOffset → v.toNat < s.cfg.tableSize →
      Receives s ((captureCmd v s).setFp .readLength)
  | len (v : Byte) : s.fp = .readLength → Receives s (captureLen v s)
  | payload (v : Byte) : s.fp = .readPayload → s.idx ≠ s.len → s.idx.toNat < Config.cap →
      Receives s (storePayload v s)
  | checksum : s.fp = .readChecksum → Receives s (s.setFp .dispatch)
  | exit {t : State} : Released t → StoresNothing s t → Receives s t

theorem raise_receives (code : ErrCode) (line : Half) (s : State) : Receives s (raise code line s) :=
  .exit (raise_released code line s) (raise_storesNothing code line s)

theorem seqResult_receives (r : RdResult) {s : State} (hf : s.fp = .readSeq) : Receives s (seqResult r s) := by
  cases r with
  | byte v => exact .seq v hf
  | timeout | escError => exact .exit (endPoll_released _ s) ⟨rfl, rfl⟩

theorem cmdResult_receives (r : RdResult) {s : State} (hf : s.fp = .readCmdOffset) : Receives s (cmdResult r s) := by
  cases r with
  | byte v =>
    simp only [cmdResult]
    split
    · exact .exit (raise_released _ _ _) (raise_storesNothing _ _ (captureCmd v s))
    · next hv => exact .cmd v hf (Nat.not_le.1 hv)
  | timeout | escError => exact raise_receives _ _ s

theorem lenResult_receives (r : RdResult) {s : State} (hf : s.fp = .readLength) : Receives s (lenResult r s) := by
  cases r with
  | byte v => exact .len v hf
  | timeout | escError => exact raise_receives _ _ s

theorem payloadResult_receives {r : RdResult} {s t : State} (hf : s.fp = .readPayload) (hi : s.idx ≠ s.len)
    (h : payloadResult r s = .next t) : Receives s t := by
  cases r with
  | byte v =>
    simp only [payloadResult] at h
    split at h
    · next hcap => cases h; exact .payload v hf hi hcap
    · cases h
  | timeout | escError => cases h; exact raise_receives _ _ s

theorem csumResult_receives (r : RdResult) {s : State} (hf : s.fp = .readChecksum) : Receives s (csumResult r s) := by
  cases r with
  | byte k =>
    simp only [csumResult]
    split
    · exact .checksum hf
    · exact raise_receives _ _ s
  | timeout | escError => exact raise_receives _ _ s

/-- In `ReadPayload` a payload byte is still to be read. -/
def State.bytesLeft (s : State) : Prop := s.fp = .readPayload → s.idx ≠ s.len

theorem bytesLeft_of_ne {s : State} (h : s.fp ≠ .readPayload) : s.bytesLeft := fun e => absurd e h

theorem bytesLeft_setFp {f : Fp} (h : f ≠ .readPayload) (s : State) : (s.setFp f).bytesLeft := bytesLeft_of_ne h

theorem takeResult_receives {r : RdResult} {s t : State} (hb : s.fp.readsBody = true) (hi : s.bytesLeft)
    (h : takeResult r s = .next t) : Receives s t := by
  unfold takeResult at h
  cases hf : s.fp <;> rw [hf] at h hb
  case readSeq => cases h; exact seqResult_receives r hf
  case readCmdOffset => cases h; exact cmdResult_receives r hf
  case readLength => cases h; exact lenResult_receives r hf
  case readPayload =>
    simp only [if_neg (hi hf)] at h
    exact payloadResult_receives hf (hi hf) h
  case readChecksum => cases h; exact csumResult_receives r hf
  case idle | dispatch | sendReply => cases hb

/-- The state in which a reading state takes the result `q` of its read. -/
def resultRead (s : State) (rx : List RxEvent) (tcnt tasks : Nat) (q : RdResult) : State :=
  (afterRead s rx tcnt tasks).answer (.read q)

/-- A reading state makes one read, and takes its result (R164 to R169). -/
theorem stepRead_receives {s t : State} (hb : s.fp.readsBody = true) (hi : s.bytesLeft) (h : stepRead s = .next t) :
    ∃ rx k n q, rx <:+ s.rx ∧ k ≤ s.cfg.timeoutWindow ∧ Receives (resultRead s rx k n q) t ∧
      Keeps (resultRead s rx k n q) t := by
  obtain ⟨rx, k, n, hrx, hk, -, e⟩ := dec_cases s
  unfold stepRead deliver at h
  simp only [e] at h
  exact ⟨rx, k, n, _, hrx, hk, takeResult_receives (s := resultRead s rx k n (dec s).1) hb hi h, keeps_takeResult h⟩

/-! ### The start marker, and the handler -/

/-- The start-marker read begins a frame or ends the poll (R163). -/
theorem takeMarker_cases (read : State → RdResult × State) (s : State) :
    (∃ q, takeMarker read s = beginFrame ((read s).2.answer q)) ∨
      ∃ q st, takeMarker read s = endPoll st ((read s).2.answer q) := by
  unfold takeMarker markerResult
  simp only
  split
  · exact .inl ⟨_, rfl⟩
  · exact .inr ⟨_, _, rfl⟩

/-- After the handler the poll goes on to the reply, or takes its exit (R173, R174). -/
theorem afterHandler_cases (s : State) :
    afterHandler s = s.setFp .sendReply ∨ Released (afterHandler s) ∧ StoresNothing s (afterHandler s) := by
  unfold afterHandler
  split
  · exact .inr ⟨raise_released _ _ s, raise_storesNothing _ _ s⟩
  · exact .inl rfl

/-- `Dispatch` goes on to the reply with what a Bounded handler may change, or takes its exit (R172, R173). -/
theorem stepDispatch_cases {s t : State} (h : stepDispatch s = .next t) :
    (∃ u r, HandlerFrame s u ∧ t = (u.setRet r).setFp .sendReply) ∨ Released t := by
  unfold stepDispatch at h
  split at h
  · next o ho =>
    cases o with
    | next q =>
      cases h
      rcases afterHandler_cases (q.2.setRet q.1) with e | ⟨hr, -⟩
      · exact .inl ⟨q.2, q.1, (dispatch_call ho q.1 q.2 rfl).1, e⟩
      · exact .inr hr
    | fault f => cases h
    | refused r => cases h
  · cases h; exact .inr (raise_released _ _ s)

/-! ### Successors -/

theorem successor_idle (f : Fp) : f.successor .idle = true := by cases f <;> rfl

theorem Released.successor {t : State} (h : Released t) (f : Fp) : f.successor t.fp = true := by
  rw [h.fp]
  exact successor_idle f

theorem Receives.successor {s t : State} (h : Receives s t) : s.fp.successor t.fp = true := by
  cases h with
  | seq v hf | cmd v hf | len v hf | checksum hf => rw [hf]; rfl
  | payload v hf =>
    rw [hf, storePayload_fp]
    unfold nextOfPayload
    split <;> rfl
  | exit hr => exact hr.successor _

/-- `ReadPayload` stays where it is with bytes left to read alone (R23). -/
theorem Receives.bytesLeft {s t : State} (h : Receives s t) (hs : s.fp = .readPayload) (ht : t.fp = .readPayload) :
    t.idx ≠ t.len := by
  cases h with
  | seq v hf | cmd v hf | len v hf | checksum hf => rw [hs] at hf; cases hf
  | payload v hf =>
    rw [storePayload_fp] at ht
    unfold nextOfPayload at ht
    split at ht
    · cases ht
    · next hne => exact hne
  | exit hr => rw [hr.fp] at ht; cases ht

theorem stepRead_successor {s t : State} (hb : s.fp.readsBody = true) (hi : s.bytesLeft) (h : stepRead s = .next t) :
    s.fp.successor t.fp = true ∧ (s.fp = .readPayload → t.fp = .readPayload → t.idx ≠ t.len) := by
  obtain ⟨rx, k, n, q, -, -, hr, -⟩ := stepRead_receives hb hi h
  exact ⟨hr.successor, hr.bytesLeft⟩

theorem takeMarker_successor (read : State → RdResult × State) (s : State) :
    Fp.idle.successor (takeMarker read s).fp = true := by
  rcases takeMarker_cases read s with ⟨q, e⟩ | ⟨q, st, e⟩ <;> rw [e] <;> rfl

theorem stepIdle_successor {s t : State} (hf : s.fp = .idle) (h : stepIdle s = .next t) :
    Fp.idle.successor t.fp = true := by
  have turnedAway : ∀ why, Fp.idle.successor (s.noOp why).fp = true := by
    intro why
    rw [State.noOp_fp, hf]
    rfl
  unfold stepIdle entryTest afterEntry at h
  cases h
  split
  · exact takeMarker_successor _ _
  · split
    · exact turnedAway _
    · split
      · exact turnedAway _
      · split
        · exact turnedAway _
        · exact takeMarker_successor _ _

theorem stepPayload_successor {s t : State} (hf : s.fp = .readPayload) (h : stepPayload s = .next t) :
    s.fp.successor t.fp = true ∧ (t.fp = .readPayload → s.idx ≠ s.len ∧ t.idx ≠ t.len) := by
  unfold stepPayload at h
  split at h
  · cases h
    rw [hf]
    exact ⟨rfl, nofun⟩
  · next hi =>
    obtain ⟨hsucc, hleft⟩ := stepRead_successor (by rw [hf]; rfl) (fun _ => hi) h
    exact ⟨hsucc, fun ht => ⟨hi, hleft hf ht⟩⟩

theorem stepDispatch_successor {s t : State} (h : stepDispatch s = .next t) : Fp.dispatch.successor t.fp = true := by
  rcases stepDispatch_cases h with ⟨u, r, -, rfl⟩ | hr
  · rfl
  · exact hr.successor _

/-- Settles O30: the micro-step of each state, and where it leads. -/
theorem sequencerSuccessors : Obligations.SequencerSuccessors := by
  intro s t f h
  cases f with
  | idle => exact ⟨stepIdle_successor rfl h, nofun⟩
  | readSeq | readCmdOffset | readLength | readChecksum =>
    exact ⟨(stepRead_successor rfl (bytesLeft_setFp (by decide) s) h).1, nofun⟩
  | readPayload =>
    obtain ⟨hsucc, hleft⟩ := stepPayload_successor rfl h
    exact ⟨hsucc, fun _ => hleft⟩
  | dispatch => exact ⟨stepDispatch_successor h, nofun⟩
  | sendReply => cases h; exact ⟨rfl, nofun⟩

end Sys2Proof.Machine
end

section
/-! SUPPORT. The engine's invariant under its own two agents, micro-step by micro-step (R22, R25, R33, R152, R166,
R246). -/

namespace Sys2Proof.Machine

/-! ### The micro-step of the operation in progress -/

theorem decode_fpState (c : Config) (f : Fp) : decode c .fpState [f.code] = .ok f.instr := by cases f <;> rfl

/-- The sequencer's state register, run as a word, is the micro-step of its state (R21). -/
theorem runWord_fpState (s : State) : runWord .fpState [s.fp.code] s = exec s.fp.instr s :=
  runWord_ok (decode_fpState s.cfg s.fp)

theorem exec_currentState (s : State) : exec s.fp.instr s = fpStep s := exec_fpState s.fp s

theorem advance_sif {s : State} {j : SifJob} (h : s.sif = some j) : advance s = .next (sifFinish j s) := by
  unfold advance
  rw [h]

theorem advance_idle {s : State} (h : s.sif = none) (hf : s.fp = .idle) (he : s.entered = false) :
    advance s = .next (enterPoll s) := by
  unfold advance
  rw [h]
  exact if_pos ⟨hf, he⟩

theorem advance_polling {s : State} (h : s.sif = none) (hp : s.polling) : advance s = exec s.fp.instr s := by
  have hne : ¬ (s.fp = .idle ∧ s.entered = false) := fun ⟨hf, he⟩ => hp.elim (· hf) (by simp [he])
  rw [← runWord_fpState]
  unfold advance
  rw [h]
  exact if_neg hne

/-! ### The invariant where no poll is in progress, and inside a frame -/

/-- In `Idle` with no start marker to be read, the invariant asks that `BUSY` is held exactly by a SIF send. -/
theorem engineInv_idle {t : State} (hd : DataInv t) (ht : triggersOnly t = true) (hf : t.fp = .idle)
    (he : t.entered = false) (hb : t.busy = t.sif.isSome)
    (hj : ∀ j, t.sif = some j → j.data.length ≤ Config.cap) : EngineInv t where
  data := hd
  triggers := ht
  busy := by simp [State.polling, hf, he, hb]
  oneHolder := by simp [State.polling, hf, he]
  marker := by simp [he]
  sequence := by simp [hf]
  command := by simp [hf, Fp.hasCommand]
  index := by simp [hf]
  job := hj
  checksum := by simp [receiveChecksum, hf]

/-- Past the start marker: `BUSY` is held by the poll, and the frame registers hold what the state says. -/
theorem engineInv_frame {t : State} (hd : DataInv t) (ht : triggersOnly t = true) (hf : t.fp ≠ .idle)
    (he : t.entered = false) (hb : t.busy = true) (hs : t.sif = none) (hseq : t.seqv = t.fp.hasSequence)
    (hcmd : t.fp.hasCommand = true → t.cmd.toNat < t.cfg.tableSize)
    (hidx : t.fp = .readPayload → t.idx.toNat ≤ t.len.toNat) (hsum : receiveChecksum t) : EngineInv t where
  data := hd
  triggers := ht
  busy := by simp [State.polling, hf, hb]
  oneHolder := fun _ => hs
  marker := by simp [he]
  sequence := fun _ => hseq
  command := hcmd
  index := hidx
  job := by simp [hs]
  checksum := hsum

/-- Past the start marker the poll alone holds `BUSY`. -/
theorem EngineInv.frame {s : State} (h : EngineInv s) (hf : s.fp ≠ .idle) :
    s.entered = false ∧ s.busy = true ∧ s.sif = none :=
  ⟨Bool.eq_false_of_not_eq_true fun he => hf (h.marker he).1, h.busy.2 (.inl (.inl hf)), h.oneHolder (.inl hf)⟩

theorem Keeps.triggers {s t : State} (k : Keeps s t) (h : triggersOnly s = true) : triggersOnly t = true := by
  unfold triggersOnly
  rw [k.inputs]
  exact h

/-- A poll that ends leaves the invariant. -/
theorem EngineInv.released {s t : State} (h : EngineInv s) (hs : s.sif = none) (k : Keeps s t) (hr : Released t) :
    EngineInv t := by
  have hsif : t.sif = none := k.sif.trans hs
  exact engineInv_idle (k.dataInv h.data) (k.triggers h.triggers) hr.fp hr.entered (by rw [hr.busy, hsif]; rfl)
    (by simp [hsif])

/-- The invariant does not speak of the transport, the window's count, the result port or, but for words, of what the
outside does next. -/
theorem EngineInv.environment {s t : State} (h : EngineInv s) (hd : DataInv t) (ht : triggersOnly t = true)
    (e : t = { s with link := t.link, rx := t.rx, txAnswers := t.txAnswers, tcnt := t.tcnt, tasks := t.tasks,
                      result := t.result, inputs := t.inputs }) : EngineInv t := by
  rw [e] at hd ht ⊢
  exact ⟨hd, ht, h.busy, h.oneHolder, h.marker, h.sequence, h.command, h.index, h.job, h.checksum⟩

theorem EngineInv.answer {s : State} (h : EngineInv s) (q : Result) : EngineInv (s.answer q) :=
  h.environment ((keeps_answer s q).dataInv h.data) h.triggers rfl

theorem keeps_resultRead {s : State} {rx : List RxEvent} {k n : Nat} (q : RdResult) (hrx : rx <:+ s.rx)
    (hk : k ≤ s.cfg.timeoutWindow) : Keeps s (resultRead s rx k n q) :=
  keeps_trans (keeps_afterRead hrx hk) (keeps_answer _ _)

theorem EngineInv.resultRead {s : State} (h : EngineInv s) {rx : List RxEvent} {k n : Nat} (q : RdResult)
    (hrx : rx <:+ s.rx) (hk : k ≤ s.cfg.timeoutWindow) : EngineInv (resultRead s rx k n q) :=
  h.environment ((keeps_resultRead q hrx hk).dataInv h.data) h.triggers rfl

/-! ### Reading a frame -/

/-- The checksum of the payload so far, when its next byte is stored (R152, R168). -/
theorem checksum_storePayload (c : Config) (seq x len v : Byte) (b : PayloadBuffer) {k : Nat} (hk : k < Config.cap) :
    checksum c seq x len ((b.write k v).range 0 (k + 1)) = checksum c seq x len (b.range 0 k) ^^^ v := by
  have hlow : (b.write k v).range 0 k = b.range 0 k := by
    refine range_congr fun i hi => ?_
    rw [read_write, if_neg (by omega)]
  have hlast : (b.write k v).read (0 + k) = v := by rw [Nat.zero_add, read_write, if_pos ⟨rfl, hk⟩]
  rw [range_succ, hlow, hlast]
  simp [checksum, xorBytes]

/-- The payload byte counted: the index stays within the length, and the checksum is that of the bytes stored. -/
theorem storePayload_engineInv {s : State} (h : EngineInv s) {v : Byte} (hf : s.fp = .readPayload)
    (hi : s.idx ≠ s.len) (hcap : s.idx.toNat < Config.cap) (k : Keeps s (storePayload v s)) :
    EngineInv (storePayload v s) := by
  have hne : s.fp ≠ .idle := by rw [hf]; decide
  obtain ⟨he, hb, hs⟩ := h.frame hne
  have hlt : s.idx.toNat < s.len.toNat := idx_lt_len (h.index hf) hi
  have hnext : (s.idx + 1).toNat = s.idx.toNat + 1 := succ_toNat hlt
  have hcmd : s.cmd.toNat < s.cfg.tableSize := h.command (by rw [hf]; rfl)
  have hseq : s.seqv = true := by rw [h.sequence hne, hf]; rfl
  have hsum : s.csum ^^^ v =
      checksum s.cfg s.seq s.cmd s.len ((s.buf.write s.idx.toNat v).range 0 (s.idx + 1).toNat) := by
    have hold := h.checksum
    rw [receiveChecksum, hf] at hold
    rw [hnext, checksum_storePayload _ _ _ _ _ _ hcap, ← hold]
  by_cases hlast : s.idx + 1 = s.len
  · have hfp : (storePayload v s).fp = .readChecksum := if_pos hlast
    refine engineInv_frame (k.dataInv h.data) (k.triggers h.triggers) (by rw [hfp]; decide) he hb hs
      (by rw [hfp]; exact hseq) (fun _ => hcmd) (by rw [hfp]; nofun) ?_
    rw [receiveChecksum, hfp]
    exact hlast ▸ hsum
  · have hfp : (storePayload v s).fp = .readPayload := if_neg hlast
    refine engineInv_frame (k.dataInv h.data) (k.triggers h.triggers) (by rw [hfp]; decide) he hb hs
      (by rw [hfp]; exact hseq) (fun _ => hcmd) (fun _ => ?_) ?_
    · show (s.idx + 1).toNat ≤ s.len.toNat
      omega
    · rw [receiveChecksum, hfp]
      exact hsum

/-- Each transition of the receive path keeps the invariant (R164 to R171). -/
theorem Receives.engineInv {s t : State} (hr : Receives s t) (h : EngineInv s) (hne : s.fp ≠ .idle) (k : Keeps s t) :
    EngineInv t := by
  obtain ⟨he, hb, hs⟩ := h.frame hne
  have hd := k.dataInv h.data
  have ht := k.triggers h.triggers
  have hseq := h.sequence hne
  have hsum := h.checksum
  cases hr with
  | seq v hf => exact engineInv_frame hd ht nofun he hb hs rfl nofun nofun rfl
  | cmd v hf hv =>
    rw [hf] at hseq
    rw [receiveChecksum, hf] at hsum
    exact engineInv_frame hd ht nofun he hb hs hseq (fun _ => hv) nofun
      (congrArg (· ^^^ codeTerm s.cfg v) hsum)
  | len v hf =>
    rw [hf] at hseq
    rw [receiveChecksum, hf] at hsum
    exact engineInv_frame hd ht nofun he hb hs hseq (fun _ => h.command (by rw [hf]; rfl)) (fun _ => Nat.zero_le _)
      (congrArg (· ^^^ lengthTerm s.cfg v) hsum)
  | payload v hf hi hcap => exact storePayload_engineInv h hf hi hcap k
  | checksum hf =>
    rw [hf] at hseq
    rw [receiveChecksum, hf] at hsum
    exact engineInv_frame hd ht nofun he hb hs hseq (fun _ => h.command (by rw [hf]; rfl)) nofun hsum
  | exit hrel => exact h.released hs k hrel

theorem stepRead_engineInv {s t : State} (h : EngineInv s) (hb : s.fp.readsBody = true) (hi : s.bytesLeft)
    (hstep : stepRead s = .next t) : EngineInv t := by
  obtain ⟨rx, k, n, q, hrx, hk, hr, hkeeps⟩ := stepRead_receives hb hi hstep
  refine hr.engineInv (h.resultRead q hrx hk) (fun hf => ?_) hkeeps
  have hf : s.fp = .idle := hf
  rw [hf] at hb
  cases hb

theorem stepPayload_engineInv {s t : State} (h : EngineInv s) (hf : s.fp = .readPayload)
    (hstep : stepPayload s = .next t) : EngineInv t := by
  unfold stepPayload at hstep
  split at hstep
  · next hi =>
    cases hstep
    obtain ⟨he, hb, hs⟩ := h.frame (by rw [hf]; decide)
    have hseq := h.sequence (by rw [hf]; decide)
    have hsum := h.checksum
    rw [hf] at hseq
    rw [receiveChecksum, hf] at hsum
    simp only [hi] at hsum
    exact engineInv_frame (dataInv_congr h.data rfl rfl rfl rfl) h.triggers nofun he hb hs hseq
      (fun _ => h.command (by rw [hf]; rfl)) nofun hsum
  · next hi => exact stepRead_engineInv h (by rw [hf]; rfl) (fun _ => hi) hstep

/-! ### The start marker, the handler and the reply -/

/-- A poll past its `TAS` and the start-marker read after it (R163). -/
theorem takeMarker_engineInv {s : State} (h : EngineInv s) (he : s.entered = true) :
    EngineInv (takeMarker rawrd s) := by
  obtain ⟨hf, hv⟩ := h.marker he
  have hb : s.busy = true := h.busy.2 (.inl (.inr he))
  have hs : s.sif = none := h.oneHolder (.inr he)
  have k : Keeps s (takeMarker rawrd s) := keeps_takeMarker s (keeps_rawrd s)
  rcases takeMarker_cases rawrd s with ⟨q, e⟩ | ⟨q, st, e⟩
  · obtain ⟨j, -, rx, -, e', -⟩ := rawrd_cases s
    have hbegin : takeMarker rawrd s = beginFrame ((afterRead s rx j (s.tasks + j)).answer q) := by rw [e, e']
    rw [hbegin] at k ⊢
    exact engineInv_frame (k.dataInv h.data) (k.triggers h.triggers) nofun rfl hb hs hv nofun nofun trivial
  · exact h.released hs k (e ▸ endPoll_released _ _)

theorem stepDispatch_engineInv {s t : State} (h : EngineInv s) (hf : s.fp = .dispatch)
    (hstep : stepDispatch s = .next t) : EngineInv t := by
  have hne : s.fp ≠ .idle := by rw [hf]; decide
  obtain ⟨he, hb, hs⟩ := h.frame hne
  have k := keeps_stepDispatch hstep
  rcases stepDispatch_cases hstep with ⟨u, r, hu, rfl⟩ | hr
  · have hseq := h.sequence hne
    have hcmd := h.command (by rw [hf]; rfl)
    rw [hf] at hseq
    unfold HandlerFrame at hu
    rw [hu] at k ⊢
    exact engineInv_frame (k.dataInv h.data) (k.triggers h.triggers) nofun he hb hs hseq (fun _ => hcmd) nofun trivial
  · exact h.released hs k hr

/-- The micro-step of a poll in progress keeps the invariant. -/
theorem fpStep_engineInv {s t : State} (h : EngineInv s) (hp : s.polling) (hstep : fpStep s = .next t) :
    EngineInv t := by
  unfold fpStep at hstep
  cases hf : s.fp <;> rw [hf] at hstep
  case idle =>
    have he : s.entered = true := hp.resolve_left (· hf)
    unfold stepIdle at hstep
    rw [if_pos he] at hstep
    cases hstep
    exact takeMarker_engineInv h he
  case readPayload => exact stepPayload_engineInv h hf hstep
  case dispatch => exact stepDispatch_engineInv h hf hstep
  case sendReply =>
    cases hstep
    exact h.released (h.frame (by rw [hf]; decide)).2.2 (keeps_stepSendReply s) ⟨rfl, rfl, rfl⟩
  all_goals exact stepRead_engineInv h (by rw [hf]; rfl) (bytesLeft_of_ne (by rw [hf]; decide)) hstep

/-! ### The entry of a poll and the SIF agent -/

/-- The entry of a poll takes `BUSY`, or only says why not (R161, R162). -/
theorem enterPoll_cases (s : State) : enterPoll s = s.enter ∨ ∃ why, enterPoll s = s.noOp why := by
  unfold enterPoll entryTest
  simp only
  split
  · exact .inr ⟨_, rfl⟩
  · split
    · exact .inr ⟨_, rfl⟩
    · split
      · exact .inr ⟨_, rfl⟩
      · exact .inl rfl

theorem enterPoll_engineInv {s : State} (h : EngineInv s) (hs : s.sif = none) (hf : s.fp = .idle) :
    EngineInv (enterPoll s) := by
  rcases enterPoll_cases s with e | ⟨why, e⟩ <;> rw [e]
  · exact {
      data := (keeps_enter s).dataInv h.data
      triggers := h.triggers
      busy := by simp [State.enter, State.polling]
      oneHolder := fun _ => hs
      marker := fun _ => ⟨hf, rfl⟩
      sequence := fun hne => absurd hf hne
      command := by simp [hf, Fp.hasCommand]
      index := by simp [hf]
      job := by simp [hs]
      checksum := by simp [receiveChecksum, hf] }
  · exact h.answer _

/-- While no poll is in progress the engine is in `Idle` with no start marker to be read. -/
theorem not_polling {s : State} (h : ¬ s.polling) : s.fp = .idle ∧ s.entered = false := by
  unfold State.polling at h
  push Not at h
  exact ⟨h.1, Bool.eq_false_of_not_eq_true h.2⟩

theorem sendFrame_sequencer (m : Marker) (seq x : Byte) (data : List Byte) (s : State) :
    (sendFrame m seq x data s).2.fp = s.fp ∧ (sendFrame m seq x data s).2.entered = s.entered := by
  rw [(sendFrame_spec m seq x data s).2]
  exact ⟨rfl, rfl⟩

/-- The end of a SIF send: its `REL` frees the flag it held (R243). -/
theorem sifFinish_engineInv {s : State} {j : SifJob} (h : EngineInv s) (hj : s.sif = some j) :
    EngineInv (sifFinish j s) := by
  obtain ⟨hf, he⟩ := not_polling fun hp => by rw [h.oneHolder hp] at hj; cases hj
  have k := keeps_sifFinish j s
  obtain ⟨hfp, hentered⟩ := sendFrame_sequencer .sos j.seq j.cmd j.data s
  exact engineInv_idle (k.dataInv (dataInv_congr h.data rfl rfl rfl rfl)) (k.triggers h.triggers) (hfp.trans hf)
    (hentered.trans he) rfl nofun

/-- The SIF trigger is turned away, or takes the flag that nobody holds (R243, R246). -/
theorem sifBegin_engineInv {s : State} (h : EngineInv s) (x : Byte) {data : List Byte}
    (hlen : data.length ≤ Config.cap) : EngineInv (sifBegin x data s) := by
  unfold sifBegin
  split
  · exact h.answer _
  · next hb =>
    obtain ⟨hf, he⟩ := not_polling fun hp => hb (h.busy.2 (.inl hp))
    refine engineInv_idle (dataInv_congr h.data rfl rfl rfl rfl) h.triggers hf he rfl fun j hj => ?_
    cases hj
    exact hlen

/-! ### Every step -/

theorem advance_engineInv {s t : State} (h : EngineInv s) (hstep : advance s = .next t) : EngineInv t := by
  cases hj : s.sif with
  | some j =>
    rw [advance_sif hj] at hstep
    cases hstep
    exact sifFinish_engineInv h hj
  | none =>
    by_cases hp : s.polling
    · rw [advance_polling hj hp, exec_currentState] at hstep
      exact fpStep_engineInv h hp hstep
    · obtain ⟨hf, he⟩ := not_polling hp
      rw [advance_idle hj hf he] at hstep
      cases hstep
      exact enterPoll_engineInv h hj hf

theorem applyInput_engineInv {i : Input} {s t : State} (h : EngineInv s) (hi : ∀ l bytes, i ≠ .word l bytes)
    (hstep : applyInput i s = .next t) : EngineInv t := by
  cases i with
  | word l bytes => exact absurd rfl (hi l bytes)
  | run => exact advance_engineInv h hstep
  | sif x data =>
    obtain ⟨hlen, rfl⟩ := sifGuard_next hstep
    exact sifBegin_engineInv h x hlen
  | link | arrive | elapse | answers =>
    cases hstep
    exact h.environment (dataInv_congr h.data rfl rfl rfl rfl) h.triggers rfl

theorem triggersOnly_cons {s : State} {i : Input} {rest : List Input} (h : triggersOnly s = true)
    (hi : s.inputs = i :: rest) : (∀ l bytes, i ≠ .word l bytes) ∧ triggersOnly (s.setInputs rest) = true := by
  unfold triggersOnly at h
  rw [hi, List.all_cons, Bool.and_eq_true] at h
  obtain ⟨hhead, htail⟩ := h
  refine ⟨?_, htail⟩
  rintro l bytes rfl
  cases hhead

/-- Settles O58: a step is a micro-step of one of the two agents or a transport event, and each keeps the invariant. -/
theorem stepKeepsEngineInvariant : Obligations.StepKeepsEngineInvariant := by
  intro s t h hstep
  cases hi : s.inputs with
  | nil => rw [step_nil h.data.legal hi] at hstep; exact advance_engineInv h hstep
  | cons i rest =>
    rw [step_cons h.data.legal hi] at hstep
    obtain ⟨hword, hrest⟩ := triggersOnly_cons h.triggers hi
    have hs : EngineInv (s.setInputs rest) := h.environment (dataInv_congr h.data rfl rfl rfl rfl) hrest rfl
    exact applyInput_engineInv hs hword hstep

/-- Settles O59: at reset nothing is in progress, and the two memories are empty. -/
theorem resetMeetsInvariants : Obligations.ResetMeetsInvariants := by
  have hd : DataInv State.reset := ⟨by decide, by decide, by decide, by decide⟩
  exact ⟨hd, engineInv_idle hd rfl rfl rfl rfl nofun⟩

end Sys2Proof.Machine
end

section
/-! SUPPORT. The instructions that store nothing, and that they keep both memories (R43, R256). -/

namespace Sys2Proof.Machine

/-! ### The Frame Processor -/

/-- Of the transitions of the receive path only the payload byte's stores (R168). -/
theorem Receives.storesNothing {s t : State} (h : Receives s t) (hf : s.fp ≠ .readPayload) : StoresNothing s t := by
  cases h with
  | seq | cmd | len | checksum => exact ⟨rfl, rfl⟩
  | payload v hp => exact absurd hp hf
  | exit _ hs => exact hs

theorem takeMarker_storesNothing {read : State → RdResult × State} {s : State} (hr : StoresNothing s (read s).2) :
    StoresNothing s (takeMarker read s) := by
  rcases takeMarker_cases read s with ⟨q, e⟩ | ⟨q, st, e⟩ <;> rw [e] <;> exact hr

theorem afterEntry_storesNothing {read : State → RdResult × State} {s : State}
    (hr : StoresNothing s.enter (read s.enter).2) : StoresNothing s (afterEntry read s) := by
  unfold afterEntry
  split
  · exact ⟨rfl, rfl⟩
  · exact takeMarker_storesNothing (s := s.enter) hr

theorem stepIdle_storesNothing {s t : State} (h : stepIdle s = .next t) : StoresNothing s t := by
  unfold stepIdle entryTest at h
  cases h
  split
  · exact takeMarker_storesNothing (rawrd_storesNothing s)
  · split
    · exact ⟨rfl, rfl⟩
    · split
      · exact ⟨rfl, rfl⟩
      · exact afterEntry_storesNothing (rawrd_storesNothing s.enter)

theorem takeResult_storesNothing {r : RdResult} {s t : State} (hf : s.fp ≠ .readPayload)
    (h : takeResult r s = .next t) : StoresNothing s t := by
  cases hb : s.fp.readsBody with
  | true => exact (takeResult_receives hb (bytesLeft_of_ne hf) h).storesNothing hf
  | false =>
    unfold takeResult at h
    cases hfp : s.fp <;> rw [hfp] at h hb
    case idle =>
      cases h
      split
      · exact takeMarker_storesNothing (storesNothing_refl s)
      · exact afterEntry_storesNothing (storesNothing_refl s.enter)
    case dispatch | sendReply => cases h; exact ⟨rfl, rfl⟩
    all_goals cases hb

theorem deliver_storesNothing {r : RdResult} {s t : State} (hf : s.fp ≠ .readPayload) (h : deliver r s = .next t) :
    StoresNothing s t :=
  takeResult_storesNothing (s := s.answer (.read r)) hf h

theorem stepRead_storesNothing {s t : State} (hf : s.fp ≠ .readPayload) (h : stepRead s = .next t) :
    StoresNothing s t := by
  have hfp : (dec s).2.fp = s.fp := by
    obtain ⟨rx, k, n, -, -, -, e⟩ := dec_cases s
    rw [e]
    rfl
  exact storesNothing_trans (dec_storesNothing s) (deliver_storesNothing (hfp ▸ hf) h)

theorem rawArrival_storesNothing {bytes : List Byte} {s t : State} (hf : s.fp ≠ .readPayload)
    (h : rawArrival bytes s = .next t) : StoresNothing s t := by
  have taken : stepRead (s.offer bytes) = .next t → StoresNothing s t :=
    stepRead_storesNothing (s := s.offer bytes) hf
  unfold rawArrival at h
  cases hfp : s.fp <;> rw [hfp] at h
  case idle => exact stepIdle_storesNothing (s := s.offer bytes) h
  case dispatch | sendReply => cases h; exact ⟨rfl, rfl⟩
  all_goals exact taken h

theorem returnArrival_storesNothing {r : Byte} {s t : State} (h : returnArrival r s = .next t) : StoresNothing s t := by
  unfold returnArrival at h
  simp only at h
  split at h
  · cases h
    rcases afterHandler_cases (s.setRet r) with e | ⟨-, hs⟩
    · rw [e]; exact ⟨rfl, rfl⟩
    · exact hs
  · cases h; exact ⟨rfl, rfl⟩

/-! ### Sending -/

theorem sendAlone_storesNothing (m : Marker) (seq x : Byte) (data : List Byte) (s : State) :
    StoresNothing s (sendAlone m seq x data s) :=
  sendFrame_storesNothing m seq x data s

theorem errAlone_storesNothing (code : ErrCode) (seq : Byte) (line : Half) (s : State) :
    StoresNothing s (errAlone code seq line s) :=
  sendFrame_storesNothing _ _ _ _ (s.loadError line (errByte s.cfg code))

theorem sifWhole_storesNothing (x : Byte) (data : List Byte) (s : State) : StoresNothing s (sifWhole x data s) := by
  unfold sifWhole sifBegin
  split
  · exact ⟨rfl, rfl⟩
  · exact sendFrame_storesNothing .sos s.sifseq x data (sifTake x data s)

theorem tas_storesNothing (s : State) : StoresNothing s (tas s).2 := by
  unfold tas
  split <;> exact ⟨rfl, rfl⟩

/-! ### Every instruction -/

/-- The instructions that may store a byte in sequencer state `f`: those that run a handler, a poll or the state
`ReadPayload`, read results and raw bytes in that state, and `RESET`. -/
def mayStore (f : Fp) : Instr → Bool
  | .frameReq _ _ _ _ | .manyhdrReq _ _ _ _ | .manyhdrReply _ _ _ _ | .manyflagIslast _ | .manyflagIswrite _
  | .cmdGetmap0 | .cmdMany1 | .cmdEcho2 | .cmdEcho3 | .cmdEcho4 | .cmdOob _ | .manyidxProps0 | .manyidxBlob1
  | .manyidxOob _ | .fpReadPayload | .fpDispatch | .opPoll | .opDispatch _ | .opHcallB _ | .opGetmap | .opMany
  | .opHcallC _ _ _ _ _ | .opProps _ _ _ _ | .opChBlob _ _ _ _ _ _ _ | .opReset => true
  | .rdByte _ | .rdTimeout | .rdEscerr | .rawSof | .rawSos | .rawEscpair _ | .rawPlain _ => f == .readPayload
  | _ => false

theorem exec_storesNothing {i : Instr} {s t : State} (hi : mayStore s.fp i = false) (h : exec i s = .next t) :
    StoresNothing s t := by
  cases i with
  | rawSof | rawSos | rawEscpair | rawPlain => exact rawArrival_storesNothing (beq_eq_false_iff_ne.1 hi) h
  | rdByte | rdTimeout | rdEscerr => exact deliver_storesNothing (beq_eq_false_iff_ne.1 hi) h
  | frameReply | opSendframe => cases withData_next h; exact sendAlone_storesNothing _ _ _ _ s
  | frameErrOob | frameErrTimeout | frameErrChecksum | opErrframe => cases h; exact errAlone_storesNothing _ _ _ s
  | frameSif | opSifsend => rw [(sifGuard_next h).2]; exact sifWhole_storesNothing _ _ s
  | retOk | retFail | retOob | retTimeout | retChecksum => exact returnArrival_storesNothing h
  | fpIdle => exact stepIdle_storesNothing (s := s.setFp .idle) h
  | fpReadSeq => exact stepRead_storesNothing (s := s.setFp .readSeq) nofun h
  | fpReadCmdOffset => exact stepRead_storesNothing (s := s.setFp .readCmdOffset) nofun h
  | fpReadLength => exact stepRead_storesNothing (s := s.setFp .readLength) nofun h
  | fpReadChecksum => exact stepRead_storesNothing (s := s.setFp .readChecksum) nofun h
  | fpSendReply => cases h; exact sendFrame_storesNothing _ _ _ _ (s.setFp .sendReply)
  | siteLineCmd | siteLineOob | siteLineLen | siteLinePayload | siteLineCsumRd | siteLineCsumBad | siteLineManyOob =>
    cases h; exact raise_storesNothing _ _ s
  | opRawrd => cases h; exact rawrd_storesNothing s
  | opDec => cases h; exact dec_storesNothing s
  | opEnc b => cases h; exact enc_storesNothing b s
  | opCsum => cases withData_next h; exact ⟨rfl, rfl⟩
  | opEcho | opRel => cases h; exact ⟨rfl, rfl⟩
  | opTas => cases h; exact tas_storesNothing s
  | _ => cases hi

/-- Settles O56: none of the instructions named may store. -/
theorem nonStoringInstructionsKeepMemory : Obligations.NonStoringInstructionsKeepMemory := by
  intro i s t h hi
  refine (exec_storesNothing ?_ h).sameMemory
  rcases hi with hi | ⟨b, rfl⟩ | ⟨q, x, d, rfl⟩ | ⟨m, q, x, d, rfl⟩ | ⟨k, q, l, rfl⟩ | ⟨x, d, rfl⟩ |
    ⟨q, x, d, k, rfl⟩ | ⟨q, x, d, k, rfl⟩ | ⟨q, l, k, rfl⟩ | ⟨q, l, k, rfl⟩ | ⟨q, l, k, rfl⟩ |
    ⟨hf, hi⟩
  case inl =>
    clear h
    revert i
    simp only [List.forall_mem_cons, List.not_mem_nil, IsEmpty.forall_iff, implies_true, and_true]
    and_intros <;> rfl
  case inr.inr.inr.inr.inr.inr.inr.inr.inr.inr.inr =>
    have hf : (s.fp == .readPayload) = false := beq_eq_false_iff_ne.2 hf
    rcases hi with ⟨v, rfl⟩ | rfl | rfl | rfl | rfl | ⟨x, rfl⟩ | ⟨v, rfl⟩ <;> exact hf
  all_goals rfl

end Sys2Proof.Machine
end

section
/-! SUPPORT. What a step serves: the operation in progress, the SIF trigger, the transport's events (R21, R70, R243,
R247); and `RESET` (R300). -/

namespace Sys2Proof.Machine

theorem setFp_self {s : State} {f : Fp} (h : s.fp = f) : s.setFp f = s := by
  subst h
  rfl

/-- With nothing from outside, or at a `run` trigger, the operation in progress advances (R247). -/
theorem step_advances {s u : State} {rest : List Input} (h : s.cfg.legal = true)
    (hu : (s.inputs = [] ∧ u = s) ∨ (s.inputs = .run :: rest ∧ u = { s with inputs := rest })) :
    step s = advance u ∧ u.cfg.legal = true := by
  rcases hu with ⟨hi, rfl⟩ | ⟨hi, rfl⟩
  · exact ⟨step_nil h hi, h⟩
  · exact ⟨step_cons h hi, h⟩

/-! ### The entry test, in its order (R161, R162) -/

theorem enterPoll_notReady {s : State} (hlink : s.link = false) : enterPoll s = s.noOp .notReady := by
  simp [enterPoll, entryTest, transportReady, hlink]

theorem enterPoll_noByte {s : State} (hlink : s.link = true) (hbyte : transportAvailable s = false) :
    enterPoll s = s.noOp .noByte := by
  simp [enterPoll, entryTest, transportReady, hlink, hbyte]

theorem enterPoll_busy {s : State} (hlink : s.link = true) (hbyte : transportAvailable s = true)
    (hb : s.busy = true) : enterPoll s = s.noOp .busy := by
  simp [enterPoll, entryTest, transportReady, hlink, hbyte, hb]

/-! ### Steps -/

/-- A pollable engine past the entry of a poll ends as the row of `Idle` does at once (R161 to R163). -/
theorem step_enter {u : State} (hl : u.cfg.legal = true) (hs : u.sif = none) (hf : u.fp = .idle)
    (he : u.entered = false) (hp : u.pollable = true) (hi : u.inputs = []) : step u.enter = exec .fpIdle u := by
  obtain ⟨-, hwhole, hmarker⟩ := stepIdle_enterPoll hp he
  calc step u.enter = advance u.enter := step_nil hl hi
    _ = exec u.enter.fp.instr u.enter := advance_polling hs (.inr rfl)
    _ = fpStep u.enter := exec_currentState _
    _ = stepIdle u.enter := by rw [fpStep, State.enter_fp, hf]
    _ = stepIdle u := hmarker.trans hwhole.symm
    _ = exec .fpIdle u := congrArg stepIdle (setFp_self hf).symm

/-- Settles O6: the cases of `advance`, and the entry of a poll in its order of tests. -/
theorem stepAdvancesTheOperation : Obligations.StepAdvancesTheOperation := by
  intro s u rest hl hu
  obtain ⟨hstep, hlu⟩ := step_advances hl hu
  rw [hstep]
  refine ⟨fun j => advance_sif, advance_polling, fun hs hf he => ?_⟩
  rw [advance_idle hs hf he]
  refine ⟨fun hlink => congrArg _ (enterPoll_notReady hlink),
    fun hlink hbyte => congrArg _ (enterPoll_noByte hlink hbyte),
    fun hlink hbyte hb => congrArg _ (enterPoll_busy hlink hbyte hb), fun hlink hbyte hb => ?_⟩
  have hp : u.pollable = true := by simp [State.pollable, hlink, hbyte, hb]
  exact ⟨congrArg _ (stepIdle_enterPoll hp he).1, step_enter hlu hs hf he hp⟩

/-- A SIF trigger whose feature is there and whose data fits (R243, U18). -/
theorem sifGuard_passes {data : List Byte} {s go : State} (hs : s.cfg.hasSif = true) (hd : data.length ≤ Config.cap) :
    sifGuard data s go = .next go := by
  unfold sifGuard
  rw [if_neg (by simp [hs]), if_neg (Nat.not_lt.2 hd)]

/-- Settles O7: each input is served as `applyInput` says. -/
theorem stepServesTheOutside : Obligations.StepServesTheOutside := by
  intro s rest hl
  refine ⟨fun x data hi hs hd => ?_, fun _ hi => step_cons hl hi, fun _ hi => step_cons hl hi,
    fun _ hi => step_cons hl hi, fun hi => step_cons hl hi⟩
  have hstep : step s = .next (sifBegin x data (s.setInputs rest)) := (step_cons hl hi).trans (sifGuard_passes hs hd)
  rw [hstep]
  exact ⟨fun hb => congrArg _ (if_pos hb), fun hb => congrArg _ (if_neg (by simp [hb]))⟩

/-- Settles O10: `resetState` names R45's registers and draws the rest. -/
theorem resetOperation : Obligations.ResetOperation := fun s => ⟨resetState s, rfl, rfl, rfl⟩

end Sys2Proof.Machine
end

section
/-! SUPPORT. The micro-step of `Dispatch` and the call it makes (R172, R173, R201, R205, R225). -/

namespace Sys2Proof.Machine

/-- A fault of a dispatch shows an application Chunked handler in the table (R225). -/
theorem not_builtins_of_fault {α : Type} {c : Config} {o : Host.Outcome α Fault Refusal} {f : Fault}
    (h : CompletesOrFaults c o) (hf : o = .fault f) : builtinsOnly c = false := by
  refine Bool.eq_false_of_not_eq_true fun hb => ?_
  obtain ⟨t, ht⟩ := h.builtins hb
  rw [hf] at ht
  cases ht

/-- A Bounded handler leaves the configuration, `CMD` and `RET` alone (R43, R203). -/
theorem handlerFrame_registers {s t : State} (h : HandlerFrame s t) :
    t.cfg = s.cfg ∧ t.cmd = s.cmd ∧ t.ret = s.ret := by
  unfold HandlerFrame at h
  rw [h]
  exact ⟨rfl, rfl, rfl⟩

/-- The exit of the many entry's `RET_OOB`, or the reply with the code in `RET` (R173, R174). -/
theorem afterHandler_exit {s : State}
    (h : s.cfg.hasMany = true ∧ s.cmd = s.cfg.manyOffset ∧ s.ret = s.cfg.retOob) :
    afterHandler s = outOfBounds s.cfg.lineManyOob s := if_pos h

theorem afterHandler_reply {s : State}
    (h : ¬ (s.cfg.hasMany = true ∧ s.cmd = s.cfg.manyOffset ∧ s.ret = s.cfg.retOob)) :
    afterHandler s = s.setFp .sendReply := if_neg h

theorem stepDispatch_entry {s : State} {b : BoundedHandler} (h : s.cfg.jt[s.cmd.toNat]? = some b) :
    stepDispatch s = dispatchReturn (hcallB b s) := by
  simp [stepDispatch, dispatch, h]

theorem stepDispatch_outside {s : State} (h : s.cfg.tableSize ≤ s.cmd.toNat) :
    stepDispatch s = .next (outOfBounds s.cfg.lineOob s) := by
  simp [stepDispatch, dispatch, List.getElem?_eq_none h]

/-- Settles O28: the call of the entry completes, with its code and length on the result port, or faults; an offset
outside the table takes its exit. -/
theorem dispatchThenReply : Obligations.DispatchThenReply := by
  intro s hl
  constructor
  · intro hx
    have hentry : s.cfg.jt[s.cmd.toNat]? = some s.cfg.jt[s.cmd.toNat] := List.getElem?_eq_getElem hx
    generalize s.cfg.jt[s.cmd.toNat] = b at hentry
    have hop : exec (.opDispatch s.cmd) { s with fp := .dispatch } = boundedDone (hcallB b (s.setFp .dispatch)) :=
      dispatchTo_entry (s := s.setFp .dispatch) hentry
    have hrow : exec .fpDispatch s = dispatchReturn (hcallB b (s.setFp .dispatch)) :=
      stepDispatch_entry (s := s.setFp .dispatch) hentry
    rw [hop, hrow]
    have hends := hcallB_completes (s := s.setFp .dispatch) hl (List.mem_of_getElem? hentry)
    have hfault : hcallB b (s.setFp .dispatch) = .fault .chunkTooLong → builtinsOnly s.cfg = false :=
      not_builtins_of_fault hends
    rcases hends with ⟨⟨r, u⟩, hcall⟩ | ⟨-, hcall⟩
    · obtain ⟨hframe, -, hresult⟩ := hcallB_call b (s.setFp .dispatch) r u hcall
      obtain ⟨hcfg, hcmd, hret⟩ : u.cfg = s.cfg ∧ u.cmd = s.cmd ∧ u.ret = s.ret :=
        handlerFrame_registers (s := s.setFp .dispatch) hframe
      rw [hcall, ← hcfg, ← hcmd]
      refine .inl ⟨u, afterHandler (u.setRet r), r, rfl, hresult, hret, rfl, fun h => ?_, fun h => ?_⟩
      · rw [afterHandler_exit (s := u.setRet r) h]
        exact raise_errorExit .oob _ (u.setRet r)
      · exact afterHandler_reply (s := u.setRet r) h
    · rw [hcall]
      exact .inr ⟨hfault hcall, rfl, rfl⟩
  · intro hx
    exact ⟨_, stepDispatch_outside (s := s.setFp .dispatch) hx,
      errorExit_from (raise_errorExit .oob s.cfg.lineOob (s.setFp .dispatch)) rfl⟩

end Sys2Proof.Machine
end

section
/-! SUPPORT. `MANY` and the two kinds of call (R203, R206, R221 to R226, R44): the forwarded call and its write-back,
the header rows, and what a Chunked call leaves alone. -/

namespace Sys2Proof.Machine

/-! ### Calls made by themselves -/

/-- Settles O39: `ECHO` and the built-in calls by definition; an application handler's call is within its frame. -/
theorem boundedCallsRunTheHandler : Obligations.BoundedCallsRunTheHandler := by
  intro s
  refine ⟨rfl, rfl, rfl, rfl, fun id => ?_⟩
  exact ⟨(appBounded id s).2, rfl, (appBounded_call id s _ _ rfl).1, rfl, rfl, rfl, rfl, rfl⟩

/-- A Chunked call whose feature is there and whose chunk is within its bound (R224). -/
theorem withChunk_passes {s : State} {clen : Byte} {go : Answer} (hm : s.cfg.hasMany = true)
    (hc : clen.toNat ≤ Config.chunkMax) : withChunk s clen go = go := by
  unfold withChunk
  rw [if_neg (by simp [hm]), if_neg (Nat.not_lt.2 hc)]

/-- What a Chunked call made by itself leaves alone, and the answer on the result port (R44, R224, R225). -/
theorem chunkedDone_keepsWindow {s t : State} {o : ChunkOutcome} (hc : ChunkCall s o) (h : chunkedDone o = .next t) :
    t = { s with buf := t.buf, store := t.store, appState := t.appState, result := t.result } ∧ KeepsHeader s t ∧
    ∃ r l o n, t.result = .chunked r l o n ∧ n.toNat ≤ Config.chunkMax := by
  cases o with
  | next q =>
    obtain ⟨a, u⟩ := q
    cases h
    obtain ⟨hframe, -, hheader, hlen⟩ := hc a u rfl
    refine ⟨?_, hheader, a.ret, a.isLast, a.off, a.clen, rfl, hlen⟩
    exact congrArg (State.answer · (.chunked a.ret a.isLast a.off a.clen)) hframe
  | fault f => cases h
  | refused r => cases h

theorem CompletesOrFaults.chunkedDone {c : Config} {o : ChunkOutcome} (h : CompletesOrFaults c o) :
    CompletesOrFaults c (chunkedDone o) := by
  rcases h with ⟨t, rfl⟩ | ⟨hi, rfl⟩
  · exact .inl ⟨_, rfl⟩
  · exact .inr ⟨hi, rfl⟩

/-- Settles O51: the call of each kind of handler, and what every call keeps. -/
theorem chunkedCallsKeepTheirWindow : Obligations.ChunkedCallsKeepTheirWindow := by
  intro s h isLast isWrite off clen hm hc
  have hcall : exec (.opHcallC h isLast isWrite off clen) s = chunkedDone (hcallC h isLast isWrite off clen s) :=
    withChunk_passes hm hc
  refine ⟨?_, ?_, ?_, ?_, ?_, fun t ht => ?_⟩
  · rintro base size w rfl
    exact ⟨rfl, _, hcall⟩
  · rintro rfl
    rfl
  · rintro rfl hp
    exact ⟨_, by rw [hcall, hcallC, if_neg (by simp [hp])]; rfl⟩
  · rintro rfl hp
    rw [hcall, hcallC, if_pos hp]
    rfl
  · rintro id rfl
    rw [hcall]
    rcases hcallC_completes (.app id) isLast isWrite off clen s nofun with ⟨a, u, e⟩ | ⟨-, e⟩ <;> rw [e]
    · exact .inl ⟨_, rfl⟩
    · exact .inr rfl
  · rw [hcall] at ht
    exact chunkedDone_keepsWindow (hcallC_call h isLast isWrite off clen s) ht

/-! ### The write-back of a ManyHeader -/

theorem headerBytes_length (c : Config) (r flags : Byte) (off : Offset) : (headerBytes c r flags off).length = 6 := by
  obtain ⟨b2, b3, b4, b5, hsplit, -⟩ := splitOffset_cases c.nativeEndian off
  simp [headerBytes, hsplit]

/-- A ManyHeader written to `BUF` reads back field by field (R73, R99, R100). -/
theorem read_headerBytes (b : PayloadBuffer) (c : Config) (r flags : Byte) (off : Offset) :
    (b.writeAll 0 (headerBytes c r flags off)).read 0 = r ∧
    (b.writeAll 0 (headerBytes c r flags off)).read 1 = flags ∧
    joinOffset c.nativeEndian ((b.writeAll 0 (headerBytes c r flags off)).read 2)
      ((b.writeAll 0 (headerBytes c r flags off)).read 3) ((b.writeAll 0 (headerBytes c r flags off)).read 4)
      ((b.writeAll 0 (headerBytes c r flags off)).read 5) = off ∧
    ∀ k, 6 ≤ k → (b.writeAll 0 (headerBytes c r flags off)).read k = b.read k := by
  obtain ⟨b2, b3, b4, b5, hsplit, hjoin⟩ := splitOffset_cases c.nativeEndian off
  have hbytes : headerBytes c r flags off = [r, flags, b2, b3, b4, b5] := by rw [headerBytes, hsplit]; rfl
  refine ⟨?_, ?_, ?_, fun k hk => read_writeAll_outside _ _ _ _ (.inr ?_)⟩
  · rw [hbytes, read_writeAll]; rfl
  · rw [hbytes, read_writeAll]; rfl
  · rw [hbytes]
    simp only [read_writeAll]
    exact hjoin
  · rw [headerBytes_length]
    omega

theorem getLsbD_bitMask (i k : Fin 8) : (bitMask i).getLsbD k = decide (k = i) := by
  revert i k
  decide

/-- Replacing isLast changes that bit of the flags byte alone (R100, R223, R226). -/
theorem getLsbD_withIsLast (c : Config) (flags : Byte) (isLast : Bool) (k : Fin 8) :
    (withIsLast c flags isLast).getLsbD k = if k = c.isLastBit then isLast else flags.getLsbD k := by
  cases isLast with
  | true =>
    rw [withIsLast, if_pos rfl, BitVec.getLsbD_or, getLsbD_bitMask]
    by_cases hk : k = c.isLastBit <;> simp [hk]
  | false =>
    rw [withIsLast, if_neg Bool.false_ne_true, BitVec.getLsbD_and, BitVec.getLsbD_not, getLsbD_bitMask]
    by_cases hk : k = c.isLastBit <;> simp [hk]

/-! ### MANY -/

/-- `MANY` of an index in the table is the forwarded call and its write-back (R221, R226). -/
theorem many_entry {s : State} {h : ChunkedHandler} (hm : s.cfg.hasMany = true) (hlen : Config.header ≤ s.len.toNat)
    (hentry : s.cfg.ct[(s.bufRead 0).toNat]? = some h) :
    many s = manyReturn (manyCall h (loadMany (s.setMidx (s.bufRead 0)))) := by
  unfold many
  rw [if_neg (by simp [hm]), if_neg (Nat.not_lt.2 hlen)]
  simp [hentry]

/-- Settles O44: the forwarded call keeps the working registers, and the write-back reads back as a header. -/
theorem manyForwardsAndWritesBack : Obligations.ManyForwardsAndWritesBack := by
  intro s u h a off hm hlen hentry hoff hcall
  subst hoff
  have hforward : manyCall h (loadMany (s.setMidx (s.bufRead 0))) = .next (a, u) := hcall
  have hmany : exec .opMany s = .next (rewrap a.ret (withIsLast u.cfg u.mflags a.isLast) a.off a.clen u).2 := by
    show boundedDone (many s) = _
    rw [many_entry hm hlen hentry, hforward]
    rfl
  obtain ⟨hframe, -, -, -⟩ := hcallC_call _ _ _ _ _ _ _ _ hcall
  unfold ChunkFrame at hframe
  have hcfg : u.cfg = s.cfg := by rw [hframe]
  have hflags : u.mflags = s.bufRead 1 := by rw [hframe]
  obtain ⟨hret, hbyte, hjoin, hrest⟩ :=
    read_headerBytes u.buf u.cfg a.ret (withIsLast u.cfg u.mflags a.isLast) a.off
  refine ⟨_, hmany, ?_, hret, fun k => ?_, hcfg ▸ hjoin, hrest⟩
  · rw [hframe]
    rfl
  · refine (congrArg (BitVec.getLsbD · k) hbyte).trans ?_
    rw [getLsbD_withIsLast, hcfg, hflags]

theorem execManyhdrReq_eq {s : State} {idx flags : Byte} {off : Offset} {chunk : List Byte}
    (hc : chunk.length ≤ Config.chunkMax) : execManyhdrReq idx flags off chunk s = exec .opMany { s with
      buf := s.buf.writeAll 0 ([idx, flags] ++ splitOffset s.cfg.nativeEndian off ++ chunk)
      len := BitVec.ofNat 8 (chunk.length + 6) } := by
  have hlen : (headerBytes s.cfg idx flags off ++ chunk).length = chunk.length + 6 := by
    rw [List.length_append, headerBytes_length, Nat.add_comm]
  unfold execManyhdrReq State.loadPayload lengthByte
  rw [if_neg (Nat.not_lt.2 hc), hlen]
  rfl

/-- `MANY` by itself, in any state with a legal configuration and the feature (R225). -/
theorem execMany_completes {s : State} (hl : s.cfg.legal = true) (hm : s.cfg.hasMany = true) :
    CompletesOrFaults s.cfg (exec .opMany s) := (many_completes hl hm).boundedDone

/-- Settles O45: each header row puts its bytes in `BUF` and is then `MANY`. -/
theorem manyRowsComplete : Obligations.ManyRowsComplete := by
  intro s
  refine ⟨fun _ _ _ _ => execManyhdrReq_eq, fun _ => ⟨rfl, rfl⟩, rfl, rfl, fun _ => rfl,
    fun hl hm => ⟨?_, fun i hi => ?_⟩⟩
  · refine (execMany_completes hl hm).weaken.imp_left fun ⟨t, ht⟩ => ⟨t, ht, ?_⟩
    obtain ⟨r, hr⟩ := boundedDone_next.1 ht
    exact (many_call s r t hr).1
  · have hrow : ∃ u : State, exec i s = exec .opMany u ∧ u.cfg = s.cfg := by
      rcases hi with rfl | ⟨idx, flags, off, chunk, hc, rfl⟩ | ⟨flags, rfl⟩ | ⟨flags, rfl⟩ | rfl | rfl | ⟨idx, rfl⟩
      · exact ⟨s, rfl, rfl⟩
      · exact ⟨_, execManyhdrReq_eq hc, rfl⟩
      all_goals exact ⟨_, rfl, rfl⟩
    obtain ⟨u, e, hu⟩ := hrow
    have hends : CompletesOrFaults s.cfg (exec i s) := by
      rw [e, ← hu]
      exact execMany_completes (hu ▸ hl) (hu ▸ hm)
    exact ⟨hends.weaken, hends.builtins⟩

end Sys2Proof.Machine
end

section
/-! SUPPORT. The decoder read against the encoder, layer by layer: the words of a well-formed instruction are read back
as that instruction, and bytes that decode are the words of what they decode to (R73, R93 to R100, R107). -/

namespace Sys2Proof

open Machine

/-! ### Words of an instruction, decoded: raw bytes and frames (R91 to R98) -/

section
variable {c : Config}

/-- The read sentinels of a legal configuration are two values with a high byte (R133). -/
theorem legal_sentinels (h : c.legal = true) :
    255 < c.rdTimeout.toNat ∧ 255 < c.rdEscErr.toNat ∧ c.rdTimeout ≠ c.rdEscErr := by
  simp only [Config.legal, Config.sentinelsLegal, Bool.and_eq_true, decide_eq_true_eq, bne_iff_ne] at h
  obtain ⟨⟨-, ⟨htimeout, hesc⟩, hne⟩, -⟩ := h
  exact ⟨htimeout, hesc, hne⟩

/-- The codes of the three ErrorFrames, each against those the decoder tests before it (R10, R97). -/
theorem legal_codes_ne (h : c.legal = true) :
    c.retTimeout ≠ c.retOob ∧ c.retChecksum ≠ c.retOob ∧ c.retChecksum ≠ c.retTimeout := by
  have hcodes := legal_codes h
  simp only [List.nodup_cons, List.mem_cons, List.not_mem_nil, or_false, not_or] at hcodes
  obtain ⟨-, -, ⟨hot, hoc⟩, htc, -⟩ := hcodes
  exact ⟨Ne.symm hot, Ne.symm hoc, Ne.symm htc⟩

theorem decodeRaw_sos (hl : c.legal = true) (hs : c.hasSif = true) : decodeRaw c [c.sos] = .ok .rawSos := by
  obtain ⟨hsof, -⟩ := legal_markers hl
  simp [decodeRaw, Ne.symm hsof, hs]

theorem decodeRaw_plain {v : Byte} (hv : c.reserved v = false) : decodeRaw c [v] = .ok (.rawPlain v) := by
  obtain ⟨hsof, hesc, hsos⟩ := reserved_false hv
  simp [decodeRaw, hsof, hesc, hsos]

section
variable {seq x csum : Byte} {payload : List Byte}

theorem decodeHostFrame_frame (hp : payload.length ≤ 255) :
    decodeHostFrame c (frameBytes c.sof seq x payload csum) = .ok (.frameReq seq x payload csum) := by
  simp [decodeHostFrame, frameBytes, parseBody_frame seq x payload csum hp]

theorem decodeDeviceFrame_sof (hp : payload.length ≤ 255) :
    decodeDeviceFrame c (frameBytes c.sof seq x payload csum) = .ok (deviceSofFrame c seq x payload csum) := by
  simp [decodeDeviceFrame, frameBytes, parseBody_frame seq x payload csum hp]

theorem decodeDeviceFrame_sos (hl : c.legal = true) (hs : c.hasSif = true) (hp : payload.length ≤ 255) :
    decodeDeviceFrame c (frameBytes c.sos seq x payload csum) = .ok (.frameSif seq x payload csum) := by
  obtain ⟨hsof, -⟩ := legal_markers hl
  simp [decodeDeviceFrame, frameBytes, parseBody_frame seq x payload csum hp, Ne.symm hsof, hs]

/-- A code that is not reserved, or a length other than 2, makes a reply (R106). -/
theorem deviceSofFrame_reply (h : looksLikeError c x payload = false) :
    deviceSofFrame c seq x payload csum = .frameReply seq x payload csum := by
  unfold deviceSofFrame
  split
  · simp only [looksLikeError, reservedCode, List.length_cons, List.length_nil, beq_self_eq_true, Bool.and_true,
      Bool.or_eq_false_iff, beq_eq_false_iff_ne] at h
    obtain ⟨⟨hoob, htimeout⟩, hchecksum⟩ := h
    rw [if_neg hoob, if_neg htimeout, if_neg hchecksum]
  · rfl

end

/-- The row of an ErrorFrame (R97). -/
def errorInstr (code : ErrCode) (seq : Byte) (line : Half) (csum : Byte) : Instr :=
  match code with
  | .oob => .frameErrOob seq line csum
  | .timeout => .frameErrTimeout seq line csum
  | .checksum => .frameErrChecksum seq line csum

/-- The three reserved codes are pairwise distinct, so each names its own row (R10, R97). -/
theorem deviceSofFrame_error (hl : c.legal = true) (code : ErrCode) (seq : Byte) (line : Half) (csum : Byte) :
    deviceSofFrame c seq (errByte c code) (split16 line) csum = errorInstr code seq line csum := by
  obtain ⟨hi, lo, hsplit, hjoin⟩ := split16_cases line
  obtain ⟨hto, hco, hct⟩ := legal_codes_ne hl
  rw [hsplit, ← hjoin]
  cases code with
  | oob => simp [deviceSofFrame, errByte, errorInstr]
  | timeout => simp [deviceSofFrame, errByte, errorInstr, hto]
  | checksum => simp [deviceSofFrame, errByte, errorInstr, hco, hct]

theorem decodeDeviceFrame_error (hl : c.legal = true) (code : ErrCode) (seq : Byte) (line : Half) (csum : Byte) :
    decodeDeviceFrame c (frameBytes c.sof seq (errByte c code) (split16 line) csum) =
      .ok (errorInstr code seq line csum) := by
  rw [decodeDeviceFrame_sof (by simp [split16]), deviceSofFrame_error hl]

/-! ### The Many header, the short words and the sites (R99 to R104, R133, R258) -/

theorem decodeManyRequest_header {chunk : List Byte} (idx flags : Byte) (off : Offset)
    (h : chunk.length ≤ Config.chunkMax) :
    decodeManyRequest c ([idx, flags] ++ splitOffset c.nativeEndian off ++ chunk) =
      .ok (.manyhdrReq idx flags off chunk) := by
  obtain ⟨b2, b3, b4, b5, hsplit, hjoin⟩ := splitOffset_cases c.nativeEndian off
  simp [hsplit, decodeManyRequest, hjoin, h]

theorem decodeManyReply_header {chunk : List Byte} (r flags : Byte) (off : Offset)
    (h : chunk.length ≤ Config.chunkMax) :
    decodeManyReply c ([r, flags] ++ splitOffset c.nativeEndian off ++ chunk) =
      .ok (.manyhdrReply r flags off chunk) := by
  obtain ⟨b2, b3, b4, b5, hsplit, hjoin⟩ := splitOffset_cases c.nativeEndian off
  simp [hsplit, decodeManyReply, hjoin, h]

/-- A bus value past 255 is no byte: its sentinel is looked up (R133). -/
theorem decodeReadResult_sentinel {v : Half} (h : 255 < v.toNat) :
    decodeReadResult c (split16 v) =
      if v = c.rdTimeout then .ok .rdTimeout
      else if v = c.rdEscErr then .ok .rdEscerr else .error .notAReadResult := by
  obtain ⟨hi, lo, hsplit, rfl⟩ := split16_cases v
  have hhigh : hi ≠ 0 := by
    rintro rfl
    rw [join16_zero_toNat] at h
    exact absurd lo.isLt (Nat.not_lt.2 h)
  rw [hsplit]
  exact if_neg hhigh

/-! ### Layers whose words are looked up in a table of rows (R104, R258) -/

/-- The first row of a table that has the value, as the decoder's chains of tests find it. -/
def firstRow {α : Type} [DecidableEq α] (v : α) : List (α × Instr) → Except DecodeError Instr
  | [] => .error .noTableRow
  | (w, i) :: rows => if v = w then .ok i else firstRow v rows

/-- The rows of the return codes, in the order of R104. -/
def codeRows (c : Config) : List (Byte × Instr) :=
  [(Config.retOk, .retOk), (c.retFail, .retFail), (c.retOob, .retOob), (c.retTimeout, .retTimeout),
    (c.retChecksum, .retChecksum)]

/-- The rows of the seven sites, in the order of R258. -/
def siteRows (c : Config) : List (Half × Instr) :=
  [(c.lineCmd, .siteLineCmd), (c.lineOob, .siteLineOob), (c.lineLen, .siteLineLen),
    (c.linePayload, .siteLinePayload), (c.lineCsumRd, .siteLineCsumRd), (c.lineCsumBad, .siteLineCsumBad),
    (c.lineManyOob, .siteLineManyOob)]

theorem decodeReturnCode_eq (c : Config) (b : Byte) : decodeReturnCode c [b] = firstRow b (codeRows c) := rfl

theorem decodeSite_eq (c : Config) (hi lo : Byte) :
    decodeSite c [hi, lo] = firstRow (join16 hi lo) (siteRows c) := rfl

section
variable {α : Type} [DecidableEq α] {v : α} {i : Instr}

theorem firstRow_append {rows : List (α × Instr)} (later : List (α × Instr)) (h : v ∉ rows.map Prod.fst) :
    firstRow v (rows ++ (v, i) :: later) = .ok i := by
  induction rows with
  | nil => exact if_pos rfl
  | cons row rows ih =>
    rw [List.map_cons, List.mem_cons, not_or] at h
    obtain ⟨hne, hrest⟩ := h
    exact (if_neg hne).trans (ih hrest)

/-- In a table without repeated values every row is found. -/
theorem firstRow_of_nodup {rows : List (α × Instr)} (hrows : (rows.map Prod.fst).Nodup) (h : (v, i) ∈ rows) :
    firstRow v rows = .ok i := by
  obtain ⟨earlier, later, rfl⟩ := List.append_of_mem h
  rw [List.map_append, List.map_cons, List.nodup_middle, List.nodup_cons, List.mem_append, not_or] at hrows
  obtain ⟨⟨hearlier, -⟩, -⟩ := hrows
  exact firstRow_append later hearlier

/-- A row whose value no earlier row has is found. -/
theorem firstRow_of_getElem? {rows : List (α × Instr)} {k : Nat} (hk : rows[k]? = some (v, i))
    (hfirst : v ∉ (rows.map Prod.fst).take k) : firstRow v rows = .ok i := by
  obtain ⟨hlt, hrow⟩ := List.getElem?_eq_some_iff.1 hk
  rw [← List.map_take] at hfirst
  rw [← List.take_append_drop k rows, List.drop_eq_getElem_cons hlt, hrow]
  exact firstRow_append _ hfirst

theorem mem_of_firstRow {rows : List (α × Instr)} (h : firstRow v rows = .ok i) : (v, i) ∈ rows := by
  induction rows with
  | nil => cases h
  | cons row rows ih =>
    unfold firstRow at h
    split at h
    · next hv =>
      cases h
      exact hv ▸ List.mem_cons_self
    · exact List.mem_cons_of_mem _ (ih h)

end

/-- The return codes of a legal configuration are pairwise distinct, so each names its own row (R10, R104). -/
theorem decodeReturnCode_row (hl : c.legal = true) {r : Byte} {i : Instr} (h : (r, i) ∈ codeRows c) :
    decodeReturnCode c [r] = .ok i :=
  firstRow_of_nodup (rows := codeRows c) (legal_codes hl) h

theorem siteIsFirst_not_mem {k : Nat} {line : Half} (h : siteIsFirst c k = true) (hline : c.lines[k]? = some line) :
    line ∉ c.lines.take k := by
  simpa [siteIsFirst, hline] using h

/-- A value that no earlier site has names its own site's row (R258). -/
theorem decodeSite_row {k : Nat} {line : Half} {i : Instr} (h : siteIsFirst c k = true)
    (hk : (siteRows c)[k]? = some (line, i)) : decodeSite c (split16 line) = .ok i := by
  obtain ⟨hi, lo, hsplit, hjoin⟩ := split16_cases line
  have hline : c.lines[k]? = some line := by
    rw [show c.lines = (siteRows c).map Prod.fst from rfl, List.getElem?_map, hk]
    rfl
  rw [hsplit, decodeSite_eq, hjoin]
  exact firstRow_of_getElem? hk (siteIsFirst_not_mem h hline)

/-! ### Operations (R18) -/

theorem decodeOperation_csum {data : List Byte} (seq x : Byte) (h : data.length ≤ 255) :
    decodeOperation ([3, seq, x] ++ dataBytes data) = .ok (.opCsum seq x data) := by
  show decodeCsum (seq :: x :: dataBytes data) = _
  simp [decodeCsum, parseData_dataBytes data h]

theorem parseMarker_markerByte (m : Marker) : parseMarker (markerByte m) = .ok m := by
  cases m <;> rfl

theorem parseCode_codeByte (k : ErrCode) : parseCode (codeByte k) = .ok k := by
  cases k <;> rfl

theorem decodeOperation_sendframe {data : List Byte} (m : Marker) (seq x : Byte) (h : data.length ≤ 255) :
    decodeOperation ([5, markerByte m, seq, x] ++ dataBytes data) = .ok (.opSendframe m seq x data) := by
  show decodeSendframe (markerByte m :: seq :: x :: dataBytes data) = _
  simp [decodeSendframe, parseMarker_markerByte, parseData_dataBytes data h]

theorem decodeOperation_hcallB (h : BoundedHandler) :
    decodeOperation (7 :: boundedBytes h) = .ok (.opHcallB h) := by
  have hparse : parseBounded (boundedBytes h) = .ok (h, []) := by
    simpa using parseBounded_boundedBytes h []
  show decodeHcallB (boundedBytes h) = _
  simp [decodeHcallB, hparse, noOperand]

section
variable (isLast isWrite : Bool) (off : Offset) (clen : Byte)

theorem decodeOperation_hcallC (h : ChunkedHandler) :
    decodeOperation (11 :: (chunkedBytes h ++ callBytes isLast isWrite off clen)) =
      .ok (.opHcallC h isLast isWrite off clen) := by
  show decodeHcallC _ = _
  simp [decodeHcallC, parseChunked_chunkedBytes, parseCall_callBytes]

theorem decodeOperation_props :
    decodeOperation (12 :: callBytes isLast isWrite off clen) = .ok (.opProps isLast isWrite off clen) := by
  show decodeProps _ = _
  simp [decodeProps, parseCall_callBytes]

theorem decodeOperation_chBlob (base size : BitVec 40) (writable : Bool) :
    decodeOperation (13 :: (blobBytes base size writable ++ callBytes isLast isWrite off clen)) =
      .ok (.opChBlob base size writable isLast isWrite off clen) := by
  show decodeChBlob _ = _
  simp [decodeChBlob, parseBlob_blobBytes, parseCall_callBytes]

end

theorem decodeOperation_sifsend {data : List Byte} (x : Byte) (h : data.length ≤ 255) :
    decodeOperation ([16, x] ++ dataBytes data) = .ok (.opSifsend x data) := by
  show decodeSifsend (x :: dataBytes data) = _
  simp [decodeSifsend, parseData_dataBytes data h]

theorem decodeOperation_errframe (code : ErrCode) (seq : Byte) (line : Half) :
    decodeOperation ([17, codeByte code, seq] ++ split16 line) = .ok (.opErrframe code seq line) := by
  obtain ⟨hi, lo, hsplit, rfl⟩ := split16_cases line
  rw [hsplit]
  show decodeErrframe [codeByte code, seq, hi, lo] = _
  simp [decodeErrframe, parseCode_codeByte]

end

/-- Settles O1, row by row: the words of each constructor, read in its layer. -/
theorem decodeOfEncode : Obligations.DecodeOfEncode := by
  intro c i hl hw
  cases i with
  | rawSof | rawEscpair => exact if_pos rfl
  | rawSos => exact decodeRaw_sos hl hw
  | rawPlain v => exact decodeRaw_plain (by simpa [Instr.wellFormed] using hw)
  | frameReq => exact decodeHostFrame_frame (of_decide_eq_true hw)
  | frameReply seq ret payload csum =>
    simp only [Instr.wellFormed, Bool.and_eq_true, Bool.not_eq_true'] at hw
    obtain ⟨⟨hp, hreply⟩, -⟩ := hw
    exact (decodeDeviceFrame_sof (of_decide_eq_true hp)).trans (congrArg _ (deviceSofFrame_reply hreply))
  | frameErrOob => exact decodeDeviceFrame_error hl .oob _ _ _
  | frameErrTimeout => exact decodeDeviceFrame_error hl .timeout _ _ _
  | frameErrChecksum => exact decodeDeviceFrame_error hl .checksum _ _ _
  | frameSif seq cmd payload csum =>
    simp only [Instr.wellFormed, Bool.and_eq_true] at hw
    obtain ⟨⟨hs, hp⟩, -⟩ := hw
    exact decodeDeviceFrame_sos hl hs (of_decide_eq_true hp)
  | manyhdrReq => exact decodeManyRequest_header _ _ _ (of_decide_eq_true hw)
  | manyhdrReply => exact decodeManyReply_header _ _ _ (of_decide_eq_true hw)
  | manyflagIslast => exact if_pos hw
  | manyflagIswrite flags =>
    simp only [Instr.wellFormed, Bool.and_eq_true, Bool.not_eq_true'] at hw
    obtain ⟨hwrite, hlast⟩ := hw
    exact (if_neg (ne_true_of_eq_false hlast)).trans (if_pos hwrite)
  | cmdGetmap0 | cmdMany1 | cmdEcho2 | cmdEcho3 | cmdEcho4 | manyidxProps0 | manyidxBlob1 =>
    exact if_neg (Nat.not_le.2 (of_decide_eq_true hw))
  | cmdOob | manyidxOob => exact if_pos (of_decide_eq_true hw)
  | retOk => exact decodeReturnCode_row (r := Config.retOk) hl List.mem_cons_self
  | retFail | retOob | retTimeout | retChecksum =>
    refine decodeReturnCode_row hl ?_
    simp [codeRows]
  | rdByte => rfl
  | rdTimeout =>
    obtain ⟨hbus, -, -⟩ := legal_sentinels hl
    exact (decodeReadResult_sentinel hbus).trans (if_pos rfl)
  | rdEscerr =>
    obtain ⟨-, hbus, hne⟩ := legal_sentinels hl
    exact (decodeReadResult_sentinel hbus).trans ((if_neg (Ne.symm hne)).trans (if_pos rfl))
  | siteLineCmd => exact decodeSite_row (k := 0) hw rfl
  | siteLineOob => exact decodeSite_row (k := 1) hw rfl
  | siteLineLen => exact decodeSite_row (k := 2) hw rfl
  | siteLinePayload => exact decodeSite_row (k := 3) hw rfl
  | siteLineCsumRd => exact decodeSite_row (k := 4) hw rfl
  | siteLineCsumBad => exact decodeSite_row (k := 5) hw rfl
  | siteLineManyOob => exact decodeSite_row (k := 6) hw rfl
  | fpIdle | fpReadSeq | fpReadCmdOffset | fpReadLength | fpReadPayload | fpReadChecksum | fpDispatch | fpSendReply =>
    rfl
  | opRawrd | opDec | opEnc | opPoll | opDispatch | opEcho | opGetmap | opMany | opTas | opRel | opReset => rfl
  | opCsum => exact decodeOperation_csum _ _ (of_decide_eq_true hw)
  | opSendframe => exact decodeOperation_sendframe _ _ _ (of_decide_eq_true hw)
  | opHcallB => exact decodeOperation_hcallB _
  | opHcallC => exact decodeOperation_hcallC _ _ _ _ _
  | opProps => exact decodeOperation_props _ _ _ _
  | opChBlob => exact decodeOperation_chBlob _ _ _ _ _ _ _
  | opSifsend => exact decodeOperation_sifsend _ (of_decide_eq_true hw)
  | opErrframe => exact decodeOperation_errframe _ _ _

end Sys2Proof
end

section
/-! SUPPORT. The encoder read against the decoder, layer by layer: bytes that decode are the words of what they decode
to (R73, R93 to R100). -/

namespace Sys2Proof

open Machine

/-- The bytes are the words of the instruction, in the layer it belongs to. -/
def WordsOf (c : Config) (l : Layer) (bs : List Byte) (i : Instr) : Prop := layerOf i = l ∧ encode c i = bs

section
variable {c : Config} {bs : List Byte} {i : Instr}

/-! ### Raw bytes and frames (R91 to R98) -/

theorem wordsOf_decodeRaw (h : decodeRaw c bs = .ok i) : WordsOf c .raw bs i := by
  unfold decodeRaw at h
  split at h
  · cases h
  · split at h
    · next hsof => cases h; exact ⟨rfl, hsof ▸ rfl⟩
    · split at h
      · next hsos =>
        obtain ⟨-, hsos⟩ := Bool.and_eq_true_iff.1 hsos
        cases h
        exact ⟨rfl, eq_of_beq hsos ▸ rfl⟩
      · split at h
        · cases h
        · cases h; exact ⟨rfl, rfl⟩
  · split at h
    · next hesc => cases h; exact ⟨rfl, hesc ▸ rfl⟩
    · cases h
  · cases h

theorem wordsOf_decodeHostFrame (h : decodeHostFrame c bs = .ok i) : WordsOf c .hostFrame bs i := by
  unfold decodeHostFrame at h
  split at h
  · cases h
  · split at h
    · next hm =>
      split at h
      · cases h
      · next hbody =>
        cases h
        exact ⟨rfl, by rw [bytes_of_parseBody hbody, hm]; rfl⟩
    · cases h

/-- Whichever row a `SOF` frame names, its bytes are the frame's (R96, R97, R106). -/
theorem wordsOf_deviceSofFrame (seq ret : Byte) (payload : List Byte) (csum : Byte) :
    WordsOf c .deviceFrame (frameBytes c.sof seq ret payload csum) (deviceSofFrame c seq ret payload csum) := by
  unfold deviceSofFrame
  split
  · next hi lo =>
    split
    · next hr => exact ⟨rfl, by rw [hr, ← split16_join16]; rfl⟩
    · split
      · next hr => exact ⟨rfl, by rw [hr, ← split16_join16]; rfl⟩
      · split
        · next hr => exact ⟨rfl, by rw [hr, ← split16_join16]; rfl⟩
        · exact ⟨rfl, rfl⟩
  · exact ⟨rfl, rfl⟩

theorem wordsOf_decodeDeviceFrame (h : decodeDeviceFrame c bs = .ok i) : WordsOf c .deviceFrame bs i := by
  unfold decodeDeviceFrame at h
  split at h
  · cases h
  · split at h
    · cases h
    · next hbody =>
      rw [bytes_of_parseBody hbody]
      split at h
      · next hm =>
        cases h
        rw [hm]
        exact wordsOf_deviceSofFrame _ _ _ _
      · split at h
        · next hsos =>
          obtain ⟨-, hm⟩ := Bool.and_eq_true_iff.1 hsos
          cases h
          rw [eq_of_beq hm]
          exact ⟨rfl, rfl⟩
        · cases h

/-! ### The Many header and the short words (R99 to R104, R133, R258) -/

theorem wordsOf_decodeManyRequest (h : decodeManyRequest c bs = .ok i) : WordsOf c .manyRequest bs i := by
  unfold decodeManyRequest at h
  split at h
  · split at h
    · cases h
      exact ⟨rfl, by rw [encode, splitOffset_joinOffset]; rfl⟩
    · cases h
  · cases h

theorem wordsOf_decodeManyReply (h : decodeManyReply c bs = .ok i) : WordsOf c .manyReply bs i := by
  unfold decodeManyReply at h
  split at h
  · split at h
    · cases h
      exact ⟨rfl, by rw [encode, splitOffset_joinOffset]; rfl⟩
    · cases h
  · cases h

theorem wordsOf_decodeManyFlags (h : decodeManyFlags c bs = .ok i) : WordsOf c .manyFlags bs i := by
  unfold decodeManyFlags at h
  split at h
  · cases h
  · split at h
    · cases h; exact ⟨rfl, rfl⟩
    · split at h
      · cases h; exact ⟨rfl, rfl⟩
      · cases h
  · cases h

theorem singleton_of_toNat {b : Byte} {n : Nat} (h : b.toNat = n) : [BitVec.ofNat 8 n] = [b] := by
  rw [← byte_eq_ofNat h]

theorem wordsOf_decodeCommand (h : decodeCommand c bs = .ok i) : WordsOf c .command bs i := by
  unfold decodeCommand at h
  split at h
  · cases h
  · split at h
    · cases h; exact ⟨rfl, rfl⟩
    · split at h <;> rename_i hb <;> cases h <;> exact ⟨rfl, singleton_of_toNat hb⟩
  · cases h

theorem wordsOf_decodeManyIndex (h : decodeManyIndex c bs = .ok i) : WordsOf c .manyIndex bs i := by
  unfold decodeManyIndex at h
  split at h
  · cases h
  · split at h
    · cases h; exact ⟨rfl, rfl⟩
    · split at h <;> rename_i hb <;> cases h <;> exact ⟨rfl, singleton_of_toNat hb⟩
  · cases h

theorem wordsOf_decodeFpState (h : decodeFpState bs = .ok i) : WordsOf c .fpState bs i := by
  unfold decodeFpState at h
  split at h
  · cases h
  · split at h <;> rename_i hb <;> cases h <;> exact ⟨rfl, singleton_of_toNat hb⟩
  · cases h

theorem wordsOf_codeRows {b : Byte} (h : (b, i) ∈ codeRows c) : WordsOf c .returnCode [b] i := by
  simp only [codeRows, List.mem_cons, Prod.mk.injEq, List.not_mem_nil, or_false] at h
  rcases h with ⟨rfl, rfl⟩ | ⟨rfl, rfl⟩ | ⟨rfl, rfl⟩ | ⟨rfl, rfl⟩ | ⟨rfl, rfl⟩ <;> exact ⟨rfl, rfl⟩

theorem wordsOf_siteRows {line : Half} (h : (line, i) ∈ siteRows c) : WordsOf c .site (split16 line) i := by
  simp only [siteRows, List.mem_cons, Prod.mk.injEq, List.not_mem_nil, or_false] at h
  rcases h with ⟨rfl, rfl⟩ | ⟨rfl, rfl⟩ | ⟨rfl, rfl⟩ | ⟨rfl, rfl⟩ | ⟨rfl, rfl⟩ | ⟨rfl, rfl⟩ | ⟨rfl, rfl⟩ <;>
    exact ⟨rfl, rfl⟩

theorem wordsOf_decodeReturnCode (h : decodeReturnCode c bs = .ok i) : WordsOf c .returnCode bs i := by
  match bs with
  | [] => cases h
  | [b] => exact wordsOf_codeRows (mem_of_firstRow h)
  | _ :: _ :: _ => cases h

theorem wordsOf_decodeSite (h : decodeSite c bs = .ok i) : WordsOf c .site bs i := by
  match bs with
  | [] | [_] => cases h
  | [hi, lo] =>
    rw [← split16_join16]
    exact wordsOf_siteRows (mem_of_firstRow h)
  | _ :: _ :: _ :: _ => cases h

theorem wordsOf_decodeReadResult (h : decodeReadResult c bs = .ok i) : WordsOf c .readResult bs i := by
  unfold decodeReadResult at h
  split at h
  · cases h
  · cases h
  · next hi lo =>
    split at h
    · next hhi => cases h; exact ⟨rfl, hhi ▸ rfl⟩
    · rw [← split16_join16 hi lo]
      split at h
      · next hbus => cases h; exact ⟨rfl, congrArg split16 hbus.symm⟩
      · split at h
        · next hbus => cases h; exact ⟨rfl, congrArg split16 hbus.symm⟩
        · cases h
  · cases h

/-! ### Operations (R18) -/

theorem wordsOf_noOperand {k : Byte} {j : Instr} (hj : WordsOf c .operation [k] j) (h : noOperand j bs = .ok i) :
    WordsOf c .operation (k :: bs) i := by
  obtain ⟨rfl, rfl⟩ := bytes_of_noOperand h
  exact hj

theorem wordsOf_decodeEnc (h : decodeEnc bs = .ok i) : WordsOf c .operation (2 :: bs) i := by
  unfold decodeEnc at h
  split at h <;> cases h
  exact ⟨rfl, rfl⟩

theorem wordsOf_decodeCsum (h : decodeCsum bs = .ok i) : WordsOf c .operation (3 :: bs) i := by
  unfold decodeCsum at h
  split at h
  · split at h
    · cases h
    · next hdata => cases h; exact ⟨rfl, by rw [bytes_of_parseData hdata]; rfl⟩
  · cases h

theorem byte_of_parseMarker {b : Byte} {m : Marker} (h : parseMarker b = .ok m) : markerByte m = b := by
  unfold parseMarker at h
  split at h
  · next hb => cases h; exact hb.symm
  · split at h
    · next hb => cases h; exact hb.symm
    · cases h

theorem byte_of_parseCode {b : Byte} {k : ErrCode} (h : parseCode b = .ok k) : codeByte k = b := by
  unfold parseCode at h
  split at h
  · next hb => cases h; exact hb.symm
  · split at h
    · next hb => cases h; exact hb.symm
    · split at h
      · next hb => cases h; exact hb.symm
      · cases h

theorem wordsOf_decodeSendframe (h : decodeSendframe bs = .ok i) : WordsOf c .operation (5 :: bs) i := by
  unfold decodeSendframe at h
  split at h
  · split at h
    · next hm hdata =>
      cases h
      exact ⟨rfl, by rw [← byte_of_parseMarker hm, bytes_of_parseData hdata]; rfl⟩
    · cases h
    · cases h
  · cases h

theorem wordsOf_decodeDispatch (h : decodeDispatch bs = .ok i) : WordsOf c .operation (6 :: bs) i := by
  unfold decodeDispatch at h
  split at h <;> cases h
  exact ⟨rfl, rfl⟩

theorem wordsOf_decodeHcallB (h : decodeHcallB bs = .ok i) : WordsOf c .operation (7 :: bs) i := by
  unfold decodeHcallB at h
  split at h
  · cases h
  · next hb =>
    obtain ⟨rfl, rfl⟩ := bytes_of_noOperand h
    exact ⟨rfl, by rw [bytes_of_parseBounded hb, List.append_nil]; rfl⟩

theorem wordsOf_decodeHcallC (h : decodeHcallC bs = .ok i) : WordsOf c .operation (11 :: bs) i := by
  unfold decodeHcallC at h
  split at h
  · cases h
  · next hc =>
    split at h
    · cases h
    · next hcall => cases h; exact ⟨rfl, by rw [bytes_of_parseChunked hc, ← bytes_of_parseCall hcall]; rfl⟩

theorem wordsOf_decodeProps (h : decodeProps bs = .ok i) : WordsOf c .operation (12 :: bs) i := by
  unfold decodeProps at h
  split at h
  · cases h
  · next hcall => cases h; exact ⟨rfl, by rw [← bytes_of_parseCall hcall]; rfl⟩

theorem wordsOf_decodeChBlob (h : decodeChBlob bs = .ok i) : WordsOf c .operation (13 :: bs) i := by
  unfold decodeChBlob at h
  split at h
  · cases h
  · next hblob =>
    split at h
    · cases h
    · next hcall => cases h; exact ⟨rfl, by rw [bytes_of_parseBlob hblob, ← bytes_of_parseCall hcall]; rfl⟩

theorem wordsOf_decodeSifsend (h : decodeSifsend bs = .ok i) : WordsOf c .operation (16 :: bs) i := by
  unfold decodeSifsend at h
  split at h
  · split at h
    · cases h
    · next hdata => cases h; exact ⟨rfl, by rw [bytes_of_parseData hdata]; rfl⟩
  · cases h

theorem wordsOf_decodeErrframe (h : decodeErrframe bs = .ok i) : WordsOf c .operation (17 :: bs) i := by
  unfold decodeErrframe at h
  split at h
  · split at h
    · cases h
    · next hcode =>
      cases h
      exact ⟨rfl, by rw [encode, byte_of_parseCode hcode, split16_join16]; rfl⟩
  · split at h <;> cases h

theorem wordsOf_decodeOperation (h : decodeOperation bs = .ok i) : WordsOf c .operation bs i := by
  unfold decodeOperation at h
  split at h
  · cases h
  · next k rest =>
    split at h
    -- case `h_n` is operation number `n - 1`; past the last one there is no operation
    case h_20 => cases h
    all_goals
      rename_i hk
      rw [byte_eq_ofNat hk]
    case h_3 => exact wordsOf_decodeEnc h
    case h_4 => exact wordsOf_decodeCsum h
    case h_6 => exact wordsOf_decodeSendframe h
    case h_7 => exact wordsOf_decodeDispatch h
    case h_8 => exact wordsOf_decodeHcallB h
    case h_12 => exact wordsOf_decodeHcallC h
    case h_13 => exact wordsOf_decodeProps h
    case h_14 => exact wordsOf_decodeChBlob h
    case h_17 => exact wordsOf_decodeSifsend h
    case h_18 => exact wordsOf_decodeErrframe h
    all_goals exact wordsOf_noOperand ⟨rfl, rfl⟩ h

end

/-- Settles O2, layer by layer. -/
theorem encodeOfDecode : Obligations.EncodeOfDecode := by
  intro c l bs i h
  cases l with
  | raw => exact wordsOf_decodeRaw h
  | hostFrame => exact wordsOf_decodeHostFrame h
  | deviceFrame => exact wordsOf_decodeDeviceFrame h
  | manyRequest => exact wordsOf_decodeManyRequest h
  | manyReply => exact wordsOf_decodeManyReply h
  | manyFlags => exact wordsOf_decodeManyFlags h
  | command => exact wordsOf_decodeCommand h
  | manyIndex => exact wordsOf_decodeManyIndex h
  | returnCode => exact wordsOf_decodeReturnCode h
  | readResult => exact wordsOf_decodeReadResult h
  | fpState => exact wordsOf_decodeFpState h
  | site => exact wordsOf_decodeSite h
  | operation => exact wordsOf_decodeOperation h

end Sys2Proof
end
section
/-! SUPPORT. Raw bytes at the head of the receive queue (R91, R92): the start-marker read takes the first of them as it
is, a reading state takes them through one `DEC`. -/

namespace Sys2Proof.Machine

/-! ### Where a start marker is expected -/

/-- The start-marker read with a byte waiting: `SOF` begins a frame, any other byte ends the poll (R163). -/
theorem takeMarker_waiting {s : State} {v : Byte} {rest : List RxEvent} (h : s.rx = .byte v :: rest) :
    takeMarker rawrd s =
      if v = s.cfg.sof then beginFrame { s with rx := rest, tcnt := 0, result := .read (.byte v) }
      else endPoll (.noOp .notSof) { s with rx := rest, tcnt := 0 } := by
  unfold takeMarker markerResult
  rw [rawrd_byte h]
  by_cases hv : v = s.cfg.sof
  · rw [if_pos hv]
    exact if_pos (congrArg RdResult.byte hv)
  · rw [if_neg hv]
    exact if_neg fun e => hv (RdResult.byte.inj e)

/-- `u` is the state in which the start marker of a poll begun in `s` is read: `s` itself past the `TAS`, else `s` with
its `TAS` taken, which the link and the flag allow (R161, R162). -/
def AtMarker (s u : State) : Prop :=
  (s.entered = true ∧ u = s) ∨ (s.link = true ∧ s.busy = false ∧ s.entered = false ∧ u = s.enter)

/-- Raw bytes where a start marker is expected: the first alone is taken (R91, R163). -/
theorem rawArrival_marker {s u : State} (hf : s.fp = .idle) (hu : AtMarker s u) (v : Byte) (bytes : List Byte) :
    rawArrival (v :: bytes) s = .next (takeMarker rawrd (u.offer (v :: bytes))) := by
  have hidle : rawArrival (v :: bytes) s = stepIdle (s.offer (v :: bytes)) := by
    unfold rawArrival
    rw [hf]
  rw [hidle]
  rcases hu with ⟨he, rfl⟩ | ⟨hlink, hb, he, rfl⟩
  · exact congrArg _ (if_pos he)
  · have hp : (s.offer (v :: bytes)).pollable = true := by
      simp [State.pollable, transportAvailable, hlink, hb]
    obtain ⟨-, hwhole, -⟩ := stepIdle_enterPoll hp he
    exact hwhole

section
variable {s u : State}

/-- `SOF` begins a frame (R91, R163). -/
theorem rawArrival_sof (hf : s.fp = .idle) (hu : AtMarker s u) :
    rawArrival [u.cfg.sof] s = .next (beginFrame { u with tcnt := 0, result := .read (.byte u.cfg.sof) }) := by
  rw [rawArrival_marker hf hu, takeMarker_waiting (s := u.offer [u.cfg.sof]) rfl]
  exact congrArg _ (if_pos rfl)

/-- Any other byte is discarded, and what came with it stays queued (R91, R163). -/
theorem rawArrival_discarded (hf : s.fp = .idle) (hu : AtMarker s u) {v : Byte} (hv : v ≠ u.cfg.sof)
    (bytes : List Byte) :
    rawArrival (v :: bytes) s =
      .next (endPoll (.noOp .notSof) { u with rx := bytes.map .byte ++ s.rx, tcnt := 0 }) := by
  have hrx : u.rx = s.rx := by rcases hu with ⟨-, rfl⟩ | ⟨-, -, -, rfl⟩ <;> rfl
  rw [rawArrival_marker hf hu, takeMarker_waiting (s := u.offer (v :: bytes)) rfl, ← hrx]
  exact congrArg _ (if_neg hv)

end

/-- Settles O24: the state past the `TAS` reads the first raw byte, in a poll begun by it and in one that waits. -/
theorem rawBytesWhereAMarkerIsExpected : Obligations.RawBytesWhereAMarkerIsExpected := by
  intro s hl hf
  obtain ⟨hsos, hesc, -⟩ := legal_markers hl
  constructor
  · intro hlink hb he
    have hu : AtMarker s s.enter := .inr ⟨hlink, hb, he, rfl⟩
    have hbegin : beginFrame { s.enter with tcnt := 0, result := .read (.byte s.cfg.sof) } = { s with
        busy := true, seqv := false, tcnt := 0, fp := .readSeq, result := .read (.byte s.cfg.sof) } := by
      simp [beginFrame, State.enter, he]
    have hend : ∀ rx, endPoll (.noOp .notSof) { s.enter with rx := rx, tcnt := 0 } =
        { s with rx := rx, seqv := false, tcnt := 0, result := .poll (.noOp .notSof) } := by
      simp [endPoll, State.enter, hf, hb, he]
    have hother : ∀ v bytes, v ≠ s.cfg.sof → rawArrival (v :: bytes) s = .next { s with
        rx := bytes.map .byte ++ s.rx, seqv := false, tcnt := 0, result := .poll (.noOp .notSof) } :=
      fun v bytes hv => (rawArrival_discarded hf hu hv bytes).trans (congrArg _ (hend _))
    exact ⟨(rawArrival_sof hf hu).trans (congrArg _ hbegin), hother _ [] hsos.symm, fun x => hother _ [x] hesc.symm,
      fun v hv => hother v [] (reserved_false hv).1⟩
  · intro he
    have hu : AtMarker s s := .inl ⟨he, rfl⟩
    have hend : ∀ rx, endPoll (.noOp .notSof) { s with rx := rx, tcnt := 0 } = { s with
        rx := rx, busy := false, entered := false, tcnt := 0, result := .poll (.noOp .notSof) } := by
      simp [endPoll, hf]
    have hother : ∀ v bytes, v ≠ s.cfg.sof → rawArrival (v :: bytes) s = .next { s with
        rx := bytes.map .byte ++ s.rx, busy := false, entered := false, tcnt := 0
        result := .poll (.noOp .notSof) } :=
      fun v bytes hv => (rawArrival_discarded hf hu hv bytes).trans (congrArg _ (hend _))
    exact ⟨rawArrival_sof hf hu, hother _ [] hsos.symm, fun x => hother _ [x] hesc.symm,
      fun v hv => hother v [] (reserved_false hv).1⟩

/-! ### Inside a frame body -/

/-- Raw bytes in a reading state are taken by one `DEC` (R91, R134). -/
theorem rawArrival_body {s : State} (hb : s.fp.readsBody = true) (bytes : List Byte) :
    rawArrival bytes s = stepRead (s.offer bytes) := by
  unfold rawArrival
  cases hf : s.fp
  case idle | dispatch | sendReply => rw [hf] at hb; cases hb
  all_goals rfl

/-- Raw bytes that `DEC` reads as `r`, leaving what was queued before, act as the row of `r` (R91, R133). -/
theorem rawArrival_reads {s : State} {bytes : List Byte} {r : RdResult} (hb : s.fp.readsBody = true)
    (hroom : s.payloadRoom) (hdec : dec (s.offer bytes) = (r, { s with tcnt := 0 })) :
    ∃ t, rawArrival bytes s = .next t ∧ exec r.instr { s with tcnt := 0 } = .next t := by
  obtain ⟨t, ht⟩ := deliver_completes r { s with tcnt := 0 } hroom
  refine ⟨t, ?_, (exec_readResult r _).trans ht⟩
  rw [rawArrival_body hb, stepRead, hdec]
  exact ht

/-- `DEC` of one raw byte that is not `ESC` (R134). -/
theorem dec_offer_plain {s : State} {v : Byte} (hv : v ≠ s.cfg.esc) :
    dec (s.offer [v]) = (plainResult s.cfg v, { s with tcnt := 0 }) :=
  dec_plain (s := s.offer [v]) rfl hv

/-- `DEC` of a raw escape pair (R134, R136). -/
theorem dec_offer_pair (s : State) (x : Byte) :
    dec (s.offer [s.cfg.esc, x]) = (.byte (x + 1), { s with tcnt := 0 }) :=
  dec_pair (s := s.offer [s.cfg.esc, x]) rfl

theorem plainResult_sof (c : Config) : plainResult c c.sof = .escError := if_pos (.inl rfl)

/-- `SOS` is a delimiter only when it is reserved (R9, R91). -/
theorem plainResult_sos {c : Config} (h : c.sos ≠ c.sof) :
    plainResult c c.sos = if c.hasSif then .escError else .byte c.sos := by
  unfold plainResult
  simp [h]

/-- Settles O25: what `DEC` reads each raw unit as. -/
theorem rawBytesInsideABody : Obligations.RawBytesInsideABody := by
  intro s hl hb hroom
  obtain ⟨hss, hse, hes, -⟩ := legal_markers hl
  have hsof := dec_offer_plain (s := s) hse
  have hsos := dec_offer_plain (s := s) hes
  rw [plainResult_sof] at hsof
  rw [plainResult_sos hss.symm] at hsos
  refine ⟨rawArrival_reads hb hroom hsof, ?_, fun x => rawArrival_reads hb hroom (dec_offer_pair s x),
    fun v hv => ?_⟩
  · have hrow : (if s.cfg.hasSif then Instr.rdEscerr else .rdByte s.cfg.sos) =
        (if s.cfg.hasSif then RdResult.escError else .byte s.cfg.sos).instr := by
      split <;> rfl
    rw [hrow]
    exact rawArrival_reads hb hroom hsos
  · have hdec := dec_offer_plain (s := s) (reserved_false hv).2.1
    rw [plainResult_plain hv] at hdec
    exact rawArrival_reads hb hroom hdec

end Sys2Proof.Machine
end

section
/-! SUPPORT. A frame or an ErrorFrame sent by itself (R176 to R178, R255 to R257), a return code that arrives (R104,
R172 to R174), the command rows (R103, R201, R202), and a ManyHeader written back (R100, R226). -/

namespace Sys2Proof.Machine

/-! ### Frames sent by themselves -/

/-- A frame sent by itself changes the transmit side, `CSUM`, `IDX` and the result port (R176 to R178). -/
theorem sendAlone_frameSent (m : Marker) (seq x : Byte) (data : List Byte) (s : State) :
    FrameSent s (sendAlone m seq x data s) (rawFrame s.cfg m seq x data)
      (.send (if takesAll s (rawFrame s.cfg m seq x data) then .sent else .cutShort)) := by
  obtain ⟨hresult, hstate⟩ := sendFrame_spec m seq x data s
  rw [← hresult]
  exact congrArg (State.answer · (.send (sendFrame m seq x data s).1)) hstate

theorem withData_passes {data : List Byte} {go : Answer} (h : data.length ≤ Config.cap) : withData data go = go :=
  if_neg (Nat.not_lt.2 h)

/-- Settles O35: both rows are the frame sent by itself. -/
theorem framesAreSentWhole : Obligations.FramesAreSentWhole := by
  intro s i m seq x csum data hd hi
  have hrow : exec i s = .next (sendAlone m seq x data s) := by
    rcases hi with rfl | ⟨rfl, rfl⟩ <;> exact withData_passes hd
  exact ⟨_, hrow, sendAlone_frameSent m seq x data s, sendFrame_registers m seq x data s⟩

/-- Settles O36: each row is `ERRFRAME`, a frame sent by itself once `LINE` and `RET` are loaded. -/
theorem errorFramesAreSent : Obligations.ErrorFramesAreSent := by
  intro s i code seq csum line raw hi hraw
  have hrow : exec i s = .next (errAlone code seq line s) := by
    rcases hi with rfl | ⟨rfl, rfl⟩ | ⟨rfl, rfl⟩ | ⟨rfl, rfl⟩ <;> rfl
  have hbytes : rawError s.cfg code seq line = raw := by rw [hraw, rawError, lineBytes_eq]
  subst hbytes
  exact ⟨⟨_, hrow, sendAlone_frameSent .sof seq (errByte s.cfg code) (lineBytes line)
    (s.loadError line (errByte s.cfg code))⟩, rfl, by decide⟩

/-! ### Return codes -/

/-- Where no handler's return is awaited a return code only goes to `RET` (R104). -/
theorem returnArrival_elsewhere {s : State} (h : s.fp ≠ .dispatch) (r : Byte) :
    returnArrival r s = .next { s with ret := r } := if_neg h

theorem returnArrival_dispatch {s : State} (h : s.fp = .dispatch) (r : Byte) :
    returnArrival r s = .next (afterHandler (s.setRet r)) := if_pos h

/-- The many entry's `RET_OOB` is the out-of-range exit (R173). -/
theorem returnArrival_exit {s : State} (h : s.fp = .dispatch) (hm : s.cfg.hasMany = true)
    (hc : s.cmd = s.cfg.manyOffset) :
    ∃ t, returnArrival s.cfg.retOob s = .next t ∧ ErrorExit s t .oob s.cfg.lineManyOob := by
  refine ⟨_, returnArrival_dispatch h _, ?_⟩
  rw [afterHandler_exit (s := s.setRet s.cfg.retOob) ⟨hm, hc, rfl⟩]
  exact raise_errorExit .oob _ (s.setRet s.cfg.retOob)

/-- Every other code goes to the reply (R174, R205). -/
theorem returnArrival_reply {s : State} {r : Byte} (h : s.fp = .dispatch)
    (hr : ¬ (s.cfg.hasMany = true ∧ s.cmd = s.cfg.manyOffset ∧ r = s.cfg.retOob)) :
    returnArrival r s = .next { s with ret := r, fp := .sendReply } :=
  (returnArrival_dispatch h r).trans (congrArg _ (afterHandler_reply (s := s.setRet r) hr))

/-- `RET_OK` and `RET_FAIL` of a legal configuration are not `RET_OOB` (R10). -/
theorem legal_handlerCodes {c : Config} (h : c.legal = true) : Config.retOk ≠ c.retOob ∧ c.retFail ≠ c.retOob := by
  have hcodes := legal_codes h
  simp only [List.nodup_cons, List.mem_cons, List.not_mem_nil, or_false, not_or] at hcodes
  obtain ⟨⟨-, hok, -⟩, ⟨hfail, -⟩, -⟩ := hcodes
  exact ⟨hok, hfail⟩

/-- Settles O38: the codes of a legal configuration differ, so only `RET_OOB` itself can be the exit. -/
theorem returnCodesGoToTheReply : Obligations.ReturnCodesGoToTheReply := by
  intro s
  refine ⟨fun hf => ?_, fun hf hl => ?_⟩
  · exact ⟨returnArrival_elsewhere hf _, returnArrival_elsewhere hf _, returnArrival_elsewhere hf _,
      returnArrival_elsewhere hf _, returnArrival_elsewhere hf _⟩
  · obtain ⟨hok, hfail⟩ := legal_handlerCodes hl
    obtain ⟨htimeout, hchecksum, -⟩ := legal_codes_ne hl
    have hreply : ∀ r, r ≠ s.cfg.retOob → returnArrival r s = .next { s with ret := r, fp := .sendReply } :=
      fun r hr => returnArrival_reply hf fun ⟨_, _, e⟩ => hr e
    refine ⟨hreply _ hok, hreply _ hfail, hreply _ htimeout, hreply _ hchecksum, fun hother => ?_,
      returnArrival_exit hf⟩
    refine returnArrival_reply hf fun ⟨hm, hc, _⟩ => ?_
    rcases hother with hno | hno
    · exact Bool.false_ne_true (hno.symm.trans hm)
    · exact hno hc

/-! ### Command offsets -/

/-- A dispatch of `x` with the offset in `CMD` completes where no application Chunked handler is (R201, R225). -/
theorem commandArrival_completes {s : State} (hl : s.cfg.legal = true) (hb : builtinsOnly s.cfg = true) (x : Byte) :
    ∃ t, commandArrival x s = .next t ∧ exec (.opDispatch x) { s with cmd := x } = .next t := by
  obtain ⟨t, ht⟩ := (dispatchTo_completes (s := s.setCmd x) x hl).builtins hb
  exact ⟨t, ht, ht⟩

/-- Settles O41: each row is the dispatch of its offset, which calls the entry, if there is one. -/
theorem commandsDispatchTheirEntry : Obligations.CommandsDispatchTheirEntry := by
  intro s x
  refine ⟨fun h => dispatchTo_entry, fun hnone => ?_, fun hl i hi => ?_, fun hl hb => ?_⟩
  · exact ⟨_, dispatchTo_outside (List.getElem?_eq_none_iff.1 hnone), raise_errorExit .oob _ s⟩
  · have hrow : ∃ (u : State) (y : Byte), exec i s = dispatchTo y u ∧ u.cfg = s.cfg := by
      rcases hi with rfl | rfl | rfl | rfl | rfl | rfl | rfl <;> exact ⟨_, _, rfl, rfl⟩
    obtain ⟨u, y, hrow, hcfg⟩ := hrow
    rw [hrow]
    exact (dispatchTo_completes y (hcfg ▸ hl)).weaken
  · have hrow := commandArrival_completes hl hb
    exact ⟨(dispatchTo_completes x hl).builtins hb, hrow 0, hrow 1, hrow 2, hrow 3, hrow 4, hrow x⟩

/-! ### A ManyHeader written back -/

theorem range_add (b : PayloadBuffer) (a m n : Nat) : b.range a (m + n) = b.range a m ++ b.range (a + m) n := by
  simp [PayloadBuffer.range, List.range_add, Nat.add_assoc]

/-- Bytes written beside a range do not change it. -/
theorem range_writeAll_outside (b : PayloadBuffer) {a n k : Nat} {vs : List Byte} (h : a + n ≤ k ∨ k + vs.length ≤ a) :
    (b.writeAll k vs).range a n = b.range a n :=
  range_congr fun i hi => read_writeAll_outside b k vs (a + i) (by omega)

/-- Header and chunk written in place are the payload of a wrapper frame (R99, R100). -/
theorem range_header_chunk (b : PayloadBuffer) (c : Config) (r flags : Byte) (off : Offset) {chunk : List Byte}
    (h : chunk.length ≤ Config.chunkMax) :
    ((b.writeAll Config.header chunk).writeAll 0 (headerBytes c r flags off)).range 0 (6 + chunk.length) =
      headerBytes c r flags off ++ chunk := by
  have hlen := headerBytes_length c r flags off
  rw [range_add]
  congr 1
  · conv_lhs => rw [← hlen]
    exact range_writeAll _ 0 _ (by rw [hlen]; decide)
  · rw [range_writeAll_outside _ (.inr (by rw [hlen])), Nat.zero_add]
    exact range_writeAll b 6 chunk (by show 6 + chunk.length ≤ 255; have : chunk.length ≤ 249 := h; omega)

/-- Settles O46: chunk and header are written side by side, and nothing behind them. -/
theorem manyReplyIsWrittenBack : Obligations.ManyReplyIsWrittenBack := by
  intro s r flags off chunk hm hc
  have hrow : exec (.manyhdrReply r flags off chunk) s =
      .next (rewrap r flags off (lengthByte chunk) (s.chunkWrite chunk)).2 :=
    (withChunk_passes hm (Nat.zero_le _)).trans (if_neg (Nat.not_lt.2 hc))
  have hlen : lengthByte chunk + 6 = BitVec.ofNat 8 (chunk.length + 6) := (BitVec.ofNat_add ..).symm
  refine ⟨_, hrow, ?_, ?_, fun a ha => ?_⟩
  · rw [← hlen]
    rfl
  · rw [Nat.add_comm]
    exact range_header_chunk s.buf s.cfg r flags off hc
  · refine (read_writeAll_outside _ 0 _ a (.inr ?_)).trans (read_writeAll_outside _ 6 chunk a (.inr ?_))
    · rw [headerBytes_length]
      omega
    · omega

end Sys2Proof.Machine
end

section
/-! SUPPORT. A request with a right checksum from its checksum byte to the end of the poll: the verification, the `ECHO`
entry, the reply (R169, R170, R172, R174, R175, R206). -/

namespace Sys2Proof.Machine

/-- The right checksum byte (R169, R170). -/
theorem fpStep_csum {u : State} {rest : List RxEvent} (hf : u.fp = .readChecksum)
    (hrx : u.rx = (escapeByte u.cfg u.csum).map .byte ++ rest) : fpStep u = .next { u with
      rx := rest, tcnt := 0, fp := .dispatch, result := .read (.byte u.csum) } := by
  unfold fpStep
  rw [hf]
  simp only
  rw [stepRead_byte hrx, deliver_afterRead _ _ _ _ _ hf]
  exact congrArg _ (if_pos rfl)

/-- The dispatch of an `ECHO` entry (R172, R206): `RET_OK`, length and payload unchanged. -/
theorem fpStep_echo {u : State} (hl : u.cfg.legal = true) (hf : u.fp = .dispatch)
    (hentry : u.cfg.jt[u.cmd.toNat]? = some .echo) : fpStep u = .next { u with
      ret := 0, fp := .sendReply, result := .handler 0 u.len } := by
  unfold fpStep
  rw [hf]
  simp only
  rw [stepDispatch_entry hentry]
  obtain ⟨hok, -⟩ := legal_handlerCodes hl
  exact congrArg _ (afterHandler_reply (s := (echo u).2.setRet Config.retOk) fun ⟨_, _, e⟩ => hok e)

/-- The reply ends the poll, sent whole or cut short (R174 to R178). -/
theorem stepSendReply_frameSent {s : State} {data : List Byte} (hdata : s.buf.range 0 s.len.toNat = data) :
    FrameSent { s with fp := .idle, busy := false, entered := false } (stepSendReply s)
      (rawFrame s.cfg .sof s.seq s.ret data)
      (.poll (if takesAll s (rawFrame s.cfg .sof s.seq s.ret data) then .replied else .replyCutShort)) := by
  obtain ⟨hresult, hstate⟩ := sendFrame_spec .sof s.seq s.ret data s
  have hstatus : replyStatus (sendFrame .sof s.seq s.ret data s).1 =
      if takesAll s (rawFrame s.cfg .sof s.seq s.ret data) then .replied else .replyCutShort := by
    rw [hresult]
    split <;> rfl
  subst hdata
  rw [← hstatus]
  exact congrArg (endPoll _) hstate

theorem fpStep_sendReply {u : State} (hf : u.fp = .sendReply) : fpStep u = .next (stepSendReply u) := by
  unfold fpStep
  rw [hf]

/-- Verification, dispatch and reply, with the right checksum byte waiting. -/
theorem runToIdle_echo {u : State} {rest : List RxEvent} {m : Nat} (hm : 3 ≤ m) (hl : u.cfg.legal = true)
    (hf : u.fp = .readChecksum) (hrx : u.rx = (escapeByte u.cfg u.csum).map .byte ++ rest)
    (hentry : u.cfg.jt[u.cmd.toNat]? = some .echo) :
    runToIdle m u = .next (stepSendReply { u with
      rx := rest, tcnt := 0, ret := 0, fp := .sendReply, result := .handler 0 u.len }) := by
  obtain ⟨n, rfl⟩ : ∃ n, m = n + 3 := ⟨m - 3, by omega⟩
  calc runToIdle (n + 3) u = runToIdle (n + 2) _ :=
        runToIdle_step (n + 2) (by rw [hf]; decide) (fpStep_csum hf hrx)
    _ = runToIdle (n + 1) _ := runToIdle_step (n + 1) nofun (fpStep_echo hl rfl hentry)
    _ = runToIdle n _ := runToIdle_step n nofun (fpStep_sendReply rfl)
    _ = _ := runToIdle_idle n rfl

/-- Settles O32: the request is received up to its checksum byte, and the payload stored is what the reply sends. -/
theorem echoExchange : Obligations.EchoExchange := by
  intro s seq cmd payload hl hp hentry hlink hb
  have hc : cmd.toNat < s.cfg.tableSize := (List.getElem?_eq_some_iff.1 hentry).1
  obtain ⟨m, r, hm, hreceived⟩ :=
    frameReq_received s seq cmd (frameChecksum s.cfg seq cmd payload) payload hp hc hlink hb
  have hpayload : (s.buf.writeAll 0 payload).range 0 (lengthByte payload).toNat = payload := by
    rw [lengthByte_toNat hp]
    exact range_writeAll _ 0 payload (by show 0 + payload.length ≤ 255; omega)
  refine ⟨_, _, hreceived.trans (runToIdle_echo (rest := s.rx) hm hl rfl rfl hentry), rfl, ?_⟩
  rw [hb]
  exact stepSendReply_frameSent hpayload

end Sys2Proof.Machine
end

section
/-! SUPPORT. Words written out from the spec's tables, as the words of what they stand for under CFG_REF (R12). -/

namespace Sys2Proof

/-- CFG_REF is legal (R8 to R12). -/
theorem ref_legal : Config.ref.legal = true := by decide

/-- The words of a well-formed instruction under CFG_REF decode to it. -/
theorem decode_ref {l : Layer} {bs : List Byte} {i : Instr} (hi : i.wellFormed Config.ref = true)
    (hw : WordsOf Config.ref l bs i) : decode Config.ref l bs = .ok i := by
  obtain ⟨rfl, rfl⟩ := hw
  exact decodeOfEncode Config.ref i ref_legal hi

/-- Settles O3: each word is what the encoder writes for the instruction, which is well formed. -/
theorem specWordsDecode : Obligations.SpecWordsDecode := by
  unfold Obligations.SpecWordsDecode
  and_intros <;> exact decode_ref (by decide) ⟨rfl, by decide⟩

end Sys2Proof
end

section
/-! SUPPORT. The frame codec as operations: `RAWRD` against its window (R131, R132), `DEC` from the raw reads it makes
(R134), `ENC` (R135), and the round trip of a body (R137). -/

namespace Sys2Proof.Machine

/-! ### RAWRD -/

theorem afterRead_self {s : State} {rx : List RxEvent} (h : s.rx = rx) : afterRead s rx s.tcnt s.tasks = s := by
  subst h
  rfl

/-- Each `quiet` costs one fruitless poll of the window (R131). -/
theorem rawrdLoop_quiets (k n : Nat) {s : State} {rest : List RxEvent} (h : s.rx = List.replicate k .quiet ++ rest) :
    rawrdLoop (n + k) s = rawrdLoop n (afterRead s rest (s.tcnt + k) (s.tasks + k)) := by
  induction k generalizing s with
  | zero => exact congrArg _ (afterRead_self h).symm
  | succ k ih =>
    have hquiet : s.rx = .quiet :: (List.replicate k .quiet ++ rest) := h
    have htask : ((transportTask s).setTcnt (s.tcnt + 1)).rx = List.replicate k .quiet ++ rest :=
      congrArg afterTask hquiet
    rw [← Nat.add_assoc, rawrdLoop_succ (n + k) (by simp [hquiet]), ih htask]
    simp only [afterRead, State.setTcnt, transportTask, Nat.add_assoc, Nat.add_comm 1 k]

section
variable {s : State} {k : Nat} {rest : List RxEvent}

/-- A byte after `k` fruitless polls, within the window (R131). -/
theorem rawrd_quiets_byte {v : Byte} (hk : k ≤ s.cfg.timeoutWindow)
    (h : s.rx = List.replicate k .quiet ++ .byte v :: rest) :
    rawrd s = (.byte v, afterRead s rest k (s.tasks + k)) := by
  have hloop := rawrdLoop_quiet_byte s.cfg.timeoutWindow k (s.setTcnt 0) v rest hk h
  rw [State.setTcnt_tcnt, Nat.zero_add] at hloop
  exact hloop

/-- After `k` fruitless polls a gap, or the end of the input: the rest of the window is polled in vain (R132). -/
theorem rawrd_quiets_expires (hk : k ≤ s.cfg.timeoutWindow) (h : s.rx = List.replicate k .quiet ++ rest)
    (hrest : rest = [] ∨ ∃ later, rest = .gap :: later) :
    rawrd s = (.timeout, afterRead s (afterExpiry rest) s.cfg.timeoutWindow (s.tasks + s.cfg.timeoutWindow)) := by
  obtain ⟨n, hn⟩ := Nat.exists_eq_add_of_le' hk
  unfold rawrd
  rw [hn, rawrdLoop_quiets (s := s.setTcnt 0) k n h, rawrdLoop_expires n _ hrest]
  simp only [afterRead, State.setTcnt, Nat.zero_add, Nat.add_assoc, Nat.add_comm k n]

/-- More fruitless polls than the window has: what has not been polled stays queued (R131, R132). -/
theorem rawrd_outwaited (h : s.rx = List.replicate (s.cfg.timeoutWindow + 1) .quiet ++ rest) :
    rawrd s = (.timeout, afterRead s (.quiet :: rest) s.cfg.timeoutWindow (s.tasks + s.cfg.timeoutWindow)) := by
  have hwindow : s.rx = List.replicate s.cfg.timeoutWindow .quiet ++ .quiet :: rest := by
    rw [h, List.replicate_succ', List.append_assoc, List.singleton_append]
  have hloop := rawrdLoop_quiets (s := s.setTcnt 0) s.cfg.timeoutWindow 0 hwindow
  rw [Nat.zero_add, State.setTcnt_tcnt, Nat.zero_add] at hloop
  exact hloop.trans (rawrdLoop_zero nofun)

end

/-- The row `OP.RAWRD` puts the read on the result port. -/
theorem exec_opRawrd (s : State) : exec .opRawrd s = .next ((rawrd s).2.answer (.read (rawrd s).1)) := rfl

theorem exec_opRawrd_of {s t : State} {r : RdResult} (h : rawrd s = (r, t)) :
    exec .opRawrd s = .next (t.answer (.read r)) := by
  rw [exec_opRawrd, h]

/-- Settles O11: the quiet polls are counted off the window, and what comes after them decides. -/
theorem rawrdWaitsForTheWindow : Obligations.RawrdWaitsForTheWindow := by
  intro s k rest
  refine ⟨fun v hk h => exec_opRawrd_of (rawrd_quiets_byte hk h),
    fun hk h => exec_opRawrd_of (rawrd_quiets_expires hk h (.inr ⟨rest, rfl⟩)), fun hk h => ?_,
    fun h => exec_opRawrd_of (rawrd_outwaited h)⟩
  rw [← List.append_nil (List.replicate k RxEvent.quiet)] at h
  exact exec_opRawrd_of (rawrd_quiets_expires hk h (.inl rfl))

/-! ### DEC -/

/-- An unescaped delimiter is an escape error (R134). -/
theorem plainResult_delimiter {c : Config} {v : Byte} (h : v = c.sof ∨ c.hasSif = true ∧ v = c.sos) :
    plainResult c v = .escError := if_pos h

theorem rawrd_cfg (s : State) : (rawrd s).2.cfg = s.cfg := by
  obtain ⟨k, -, rx, -, hstate, -⟩ := rawrd_cases s
  rw [hstate]
  rfl

section
variable {s t : State}

theorem dec_rawrd_timeout (h : rawrd s = (.timeout, t)) : dec s = (.timeout, t) := by
  unfold dec
  rw [h]

/-- A raw byte other than `ESC` is the only one `DEC` reads (R134). -/
theorem dec_rawrd_plain {v : Byte} (h : rawrd s = (.byte v, t)) (hv : v ≠ s.cfg.esc) :
    dec s = (plainResult s.cfg v, t) := by
  have hcfg : t.cfg = s.cfg := by rw [← rawrd_cfg s, h]
  unfold dec
  simp only [h, hcfg, if_neg hv]

/-- After an `ESC` a second raw read decides (R134, R136, R140). -/
theorem dec_rawrd_esc (h : rawrd s = (.byte s.cfg.esc, t)) : dec s = (pairResult (rawrd t).1, (rawrd t).2) := by
  have hcfg : t.cfg = s.cfg := by rw [← rawrd_cfg s, h]
  unfold dec
  simp only [h, hcfg, if_true]

end

/-- The row `OP.DEC` puts the read on the result port. -/
theorem exec_opDec_of {s t : State} {r : RdResult} (h : dec s = (r, t)) :
    exec .opDec s = .next (t.answer (.read r)) := by
  have hrow : exec .opDec s = .next ((dec s).2.answer (.read (dec s).1)) := rfl
  rw [hrow, h]

/-- A second `RAWRD` does not see the result of the first. -/
theorem exec_opRawrd_answer (t : State) (q : Result) : exec .opRawrd (t.answer q) = exec .opRawrd t := by
  rw [exec_opRawrd, exec_opRawrd, rawrd_answer]
  rfl

/-- `OP.RAWRD` that ended in `u` is a raw read: `u`'s result is what was read. -/
theorem exec_opRawrd_next {s u : State} (h : exec .opRawrd s = .next u) :
    ∃ r t, rawrd s = (r, t) ∧ u = t.answer (.read r) :=
  ⟨_, _, rfl, (Host.Outcome.next.inj h).symm⟩

/-- `DEC` from the `RAWRD`s it makes (R134). -/
theorem dec_from_rawReads {s u : State} (hl : s.cfg.legal = true) (hu : exec .opRawrd s = .next u) :
    (u.result = .read .timeout → exec .opDec s = .next u) ∧
    (∀ v, u.result = .read (.byte v) → s.cfg.reserved v = false → exec .opDec s = .next u) ∧
    (∀ v, u.result = .read (.byte v) → v = s.cfg.sof ∨ s.cfg.hasSif = true ∧ v = s.cfg.sos →
      exec .opDec s = .next { u with result := .read .escError }) ∧
    (u.result = .read (.byte s.cfg.esc) → ∀ w, exec .opRawrd u = .next w →
      (w.result = .read .timeout → exec .opDec s = .next w) ∧
      (∀ x, w.result = .read (.byte x) → exec .opDec s = .next { w with result := .read (.byte (x + 1)) })) := by
  obtain ⟨r, t, hfirst, rfl⟩ := exec_opRawrd_next hu
  refine ⟨fun hr => ?_, fun v hr hv => ?_, fun v hr hv => ?_, fun hr w hw => ?_⟩
  all_goals obtain rfl := Result.read.inj hr
  · exact exec_opDec_of (dec_rawrd_timeout hfirst)
  · have hdec := dec_rawrd_plain hfirst (reserved_false hv).2.1
    rw [plainResult_plain hv] at hdec
    exact exec_opDec_of hdec
  · have hdec := dec_rawrd_plain hfirst (delimiter_ne_esc hl hv)
    rw [plainResult_delimiter hv] at hdec
    exact (exec_opDec_of hdec :)
  · rw [exec_opRawrd_answer] at hw
    obtain ⟨r', t', hsecond, rfl⟩ := exec_opRawrd_next hw
    have hdec : dec s = (pairResult r', t') := by rw [dec_rawrd_esc hfirst, hsecond]
    refine ⟨fun hr' => ?_, fun x hr' => ?_⟩
    all_goals
      obtain rfl := Result.read.inj hr'
      exact (exec_opDec_of hdec :)

/-- Settles O12: the raw reads decide, and bytes that wait are read without a poll in vain. -/
theorem decIsOneOrTwoRawReads : Obligations.DecIsOneOrTwoRawReads := by
  intro s hl
  refine ⟨fun u hu => dec_from_rawReads hl hu, fun v rest =>
    ⟨fun h hv => ?_, fun h hv => ?_, fun h => exec_opDec_of (dec_pair h)⟩⟩
  all_goals
    have hread := exec_opRawrd_of (rawrd_byte h)
    obtain ⟨-, hplain, hdelimiter, -⟩ := dec_from_rawReads hl hread
  · exact hplain v rfl hv
  · exact hdelimiter v rfl hv

/-! ### ENC -/

/-- `ENC` changes the transmit side alone (R135). -/
theorem enc_spec (b : Byte) (s : State) : enc b s = (takesAll s (escapeByte s.cfg b), { s with
    tx := s.tx ++ ((escapeByte s.cfg b).take (taken s (escapeByte s.cfg b).length)).map .byte
    txAnswers := answersAfter s (escapeByte s.cfg b).length }) := by
  obtain ⟨hresult, hstate⟩ := enc_offered b s
  obtain ⟨hcsum, hidx, -⟩ := enc_registers b s
  rw [hcsum, hidx] at hstate
  exact Prod.ext hresult hstate

/-- Settles O13: `ENC` offers the escaped byte, and puts on the result port whether it was taken. -/
theorem encEscapes : Obligations.EncEscapes := by
  intro s b
  have hrow : exec (.opEnc b) s = .next ((enc b s).2.answer (.flag (enc b s).1)) := rfl
  refine ⟨escapeByte s.cfg b, rfl, ?_⟩
  rw [hrow, enc_spec]
  rfl

/-! ### The round trip -/

/-- As many `DEC`s as a body has bytes read its raw bytes and no more (R137). -/
theorem decRun_escapeBody {s : State} {body : List Byte} {rest : List RxEvent}
    (h : s.rx = (escapeBody s.cfg body).map .byte ++ rest) :
    decRun body.length s =
      (body.map .byte, afterRead s rest (if body = [] then s.tcnt else 0) s.tasks) := by
  induction body generalizing s with
  | nil => exact congrArg (Prod.mk []) (afterRead_self h).symm
  | cons b bs ih =>
    rw [escapeBody_cons] at h
    have hrest := ih (s := afterRead s ((escapeBody s.cfg bs).map RxEvent.byte ++ rest) 0 s.tasks) rfl
    rw [List.length_cons, decRun, dec_escapeByte h]
    simp only [hrest]
    simp [afterRead]

/-- Settles O14: the reads of the whole body, by induction on it. -/
theorem codecRoundTrip : Obligations.CodecRoundTrip := by
  intro s body rest _ h
  rw [decRun_escapeBody h]
  refine ⟨rfl, fun hne => ?_⟩
  rw [if_neg hne]
  rfl

end Sys2Proof.Machine
end

section
/-! SUPPORT. The checksum as the XOR of its terms, that a change of one term changes it, and
the exit a request with a wrong one takes (R150, R152, R155 to R157, R171). -/

namespace Sys2Proof.Machine

/-- The accumulator and the XOR of the payload, taken apart (R150, R152). -/
theorem xorBytes_eq_xor_foldr (acc : Byte) (data : List Byte) :
    xorBytes acc data = acc ^^^ data.foldr (fun a b => a ^^^ b) 0 := by
  induction data generalizing acc with
  | nil => exact BitVec.xor_zero.symm
  | cons b bs ih => exact (ih (acc ^^^ b)).trans (BitVec.xor_assoc acc b _)

theorem xorBytes_append (acc : Byte) (xs ys : List Byte) :
    xorBytes acc (xs ++ ys) = xorBytes (xorBytes acc xs) ys :=
  List.foldl_append

/-- The bytes that follow hide no difference of the accumulator (R156). -/
theorem xorBytes_inj {acc acc' : Byte} {data : List Byte} : xorBytes acc data = xorBytes acc' data ↔ acc = acc' := by
  rw [xorBytes_eq_xor_foldr, xorBytes_eq_xor_foldr, BitVec.xor_left_inj]

/-- One payload byte replaced: the bytes before it, the new byte, the bytes after it. -/
theorem xorBytes_set {acc b : Byte} {data : List Byte} {k : Nat} (h : k < data.length) :
    xorBytes acc (data.set k b) = xorBytes (xorBytes acc (data.take k) ^^^ b) (data.drop (k + 1)) := by
  rw [List.set_eq_take_append_cons_drop, if_pos h, xorBytes_append]
  rfl

/-- The bytes around one payload byte hide no difference of it (R156). -/
theorem xorBytes_set_inj {acc b b' : Byte} {data : List Byte} {k : Nat} (h : k < data.length) :
    xorBytes acc (data.set k b) = xorBytes acc (data.set k b') ↔ b = b' := by
  rw [xorBytes_set h, xorBytes_set h, xorBytes_inj, BitVec.xor_right_inj]

/-- A payload byte replaced by a different one changes the checksum (R156). -/
theorem checksum_set_ne {c : Config} {seq x len b : Byte} {data : List Byte} {k : Nat} (h : k < data.length)
    (hb : b ≠ data[k]) : checksum c seq x len data ≠ checksum c seq x len (data.set k b) := by
  intro e
  have hself : data.set k data[k] = data := List.set_getElem_self h
  rw [← hself, List.set_set] at e
  exact hb ((xorBytes_set_inj h).1 e).symm

/-! ### The header fields, one changed at a time (R156) -/

theorem checksum_seq_inj {c : Config} {seq seq' x len : Byte} {data : List Byte} :
    checksum c seq x len data = checksum c seq' x len data ↔ seq = seq' := by
  unfold checksum
  rw [xorBytes_inj, BitVec.xor_left_inj, BitVec.xor_left_inj]

theorem checksum_code_inj {c : Config} {seq x x' len : Byte} {data : List Byte} :
    checksum c seq x len data = checksum c seq x' len data ↔ x = x' := by
  unfold checksum codeTerm
  rw [xorBytes_inj, BitVec.xor_left_inj, BitVec.xor_right_inj, BitVec.add_left_inj]

theorem checksum_length_inj {c : Config} {seq x len len' : Byte} {data : List Byte} :
    checksum c seq x len data = checksum c seq x len' data ↔ len = len' := by
  unfold checksum lengthTerm
  rw [xorBytes_inj, BitVec.xor_right_inj, BitVec.add_left_inj]

/-- The all-zero frame (R157). -/
theorem frameChecksum_zero (c : Config) : frameChecksum c 0 0 [] = c.crcCmd ^^^ c.crcLen := by
  simp [frameChecksum, checksum, xorBytes, codeTerm, lengthTerm, lengthByte]

/-- Settles O16: each field has a term of its own, and nothing else in the XOR hides a change of it. -/
theorem checksumDetectsOneChange : Obligations.ChecksumDetectsOneChange := by
  intro c seq seq' x x' len len' data
  refine ⟨mt checksum_seq_inj.1, mt checksum_code_inj.1, mt checksum_length_inj.1,
    fun _ _ hk hb => checksum_set_ne hk hb, fun hne => ?_, ?_⟩
  · rw [frameChecksum_zero]
    exact ⟨rfl, mt BitVec.xor_eq_zero_iff.1 hne⟩
  · rw [frameChecksum_zero]
    decide

/-! ### A request with a wrong checksum -/

/-- The wrong checksum byte: the exit, with everything received kept (R171, R270). -/
theorem fpStep_wrongCsum {u : State} {k : Byte} {rest : List RxEvent} (hf : u.fp = .readChecksum)
    (hrx : u.rx = (escapeByte u.cfg k).map .byte ++ rest) (hk : k ≠ u.csum) :
    fpStep u = .next (checksumMismatch u.cfg.lineCsumBad { u with
      rx := rest, tcnt := 0, fp := .readChecksum, result := .read (.byte k) }) := by
  unfold fpStep
  rw [hf]
  simp only
  rw [stepRead_byte hrx, deliver_afterRead _ _ _ _ _ hf]
  exact congrArg _ (if_neg hk)

/-- The verification ends the poll: `Dispatch` is never entered, so no handler runs (R155, R276). -/
theorem runToIdle_wrongCsum {u : State} {k : Byte} {rest : List RxEvent} {m : Nat} (hm : 1 ≤ m)
    (hf : u.fp = .readChecksum) (hrx : u.rx = (escapeByte u.cfg k).map .byte ++ rest) (hk : k ≠ u.csum) :
    runToIdle m u = .next (checksumMismatch u.cfg.lineCsumBad { u with
      rx := rest, tcnt := 0, fp := .readChecksum, result := .read (.byte k) }) := by
  obtain ⟨n, rfl⟩ : ∃ n, m = n + 1 := ⟨m - 1, by omega⟩
  exact (runToIdle_step n (by rw [hf]; decide) (fpStep_wrongCsum hf hrx hk)).trans (runToIdle_idle n rfl)

/-- Settles O33: the request is received up to its checksum byte, which ends the poll. -/
theorem wrongChecksumExchange : Obligations.WrongChecksumExchange := by
  intro s seq cmd csum payload _ hp hc hlink hb hcsum
  obtain ⟨m, r, hm, hreceived⟩ := frameReq_received s seq cmd csum payload hp hc hlink hb
  exact ⟨_, hreceived.trans (runToIdle_wrongCsum (rest := s.rx) (by omega) rfl rfl hcsum), raise_errorExit _ _ _⟩

/-! ### CSUM as an operation -/

/-- Settles O15: the payload's XOR is the last of the four terms. -/
theorem checksumFormula : Obligations.ChecksumFormula := by
  intro s seq x data
  refine ⟨fun hfits => ?_, fun hlong => if_pos hlong⟩
  calc exec (.opCsum seq x data) s = .next (s.answer (.sum (frameChecksum s.cfg seq x data))) :=
        if_neg (Nat.not_lt.2 hfits)
    _ = _ := by rw [frameChecksum, checksum, xorBytes_eq_xor_foldr]; rfl

end Sys2Proof.Machine
end

section
/-! SUPPORT. What each state of the Frame Processor does with a read result (R162 to R171, R268, R270). -/

namespace Sys2Proof.Machine

/-! ### The state a read result is taken in -/

section
variable {s : State} (r : RdResult)

/-- A poll begun by the byte, with `BUSY` held (R162). -/
theorem deliver_idle_busy (hf : s.fp = .idle) (he : s.entered = false) (hb : s.busy = true) :
    deliver r s = .next (s.noOp .busy) := by
  unfold deliver takeResult
  rw [State.answer_fp, hf]
  exact congrArg _ ((if_neg (by simp [he])).trans (if_pos hb))

/-- A poll begun by the byte, with `BUSY` free: it is taken, and the byte is the start marker or not (R162, R163). -/
theorem deliver_idle_free (hf : s.fp = .idle) (he : s.entered = false) (hb : s.busy = false) :
    deliver r s = .next (markerResult r (s.enter.answer (.read r))) := by
  unfold deliver takeResult
  rw [State.answer_fp, hf]
  exact congrArg _ ((if_neg (by simp [he])).trans (if_neg (by simp [hb])))

/-- A poll past its `TAS` (R163). -/
theorem deliver_entered (hf : s.fp = .idle) (he : s.entered = true) :
    deliver r s = .next (markerResult r (s.answer (.read r))) := by
  unfold deliver takeResult
  rw [State.answer_fp, hf]
  exact congrArg _ (if_pos he)

theorem deliver_readSeq (hf : s.fp = .readSeq) : deliver r s = .next (seqResult r (s.answer (.read r))) := by
  unfold deliver takeResult
  rw [State.answer_fp, hf]

theorem deliver_readCmdOffset (hf : s.fp = .readCmdOffset) :
    deliver r s = .next (cmdResult r (s.answer (.read r))) := by
  unfold deliver takeResult
  rw [State.answer_fp, hf]

theorem deliver_readLength (hf : s.fp = .readLength) : deliver r s = .next (lenResult r (s.answer (.read r))) := by
  unfold deliver takeResult
  rw [State.answer_fp, hf]

theorem deliver_readPayload (hf : s.fp = .readPayload) (hi : s.idx ≠ s.len) :
    deliver r s = payloadResult r (s.answer (.read r)) := by
  unfold deliver takeResult
  rw [State.answer_fp, hf]
  exact if_neg hi

theorem deliver_readChecksum (hf : s.fp = .readChecksum) :
    deliver r s = .next (csumResult r (s.answer (.read r))) := by
  unfold deliver takeResult
  rw [State.answer_fp, hf]

end

/-! ### The start marker (R163) -/

theorem markerResult_sof {r : RdResult} {s : State} (h : r = .byte s.cfg.sof) : markerResult r s = beginFrame s :=
  if_pos h

theorem markerResult_other {r : RdResult} {s : State} (h : r ≠ .byte s.cfg.sof) :
    markerResult r s = endPoll (.noOp .notSof) s := if_neg h

/-- Settles O17: a poll begun by the byte tests `BUSY` first; one past its `TAS` takes the byte as its marker. -/
theorem firstByteStartsOnlyOnSof : Obligations.FirstByteStartsOnlyOnSof := by
  intro s r hf
  rw [exec_readResult]
  refine ⟨fun he hb hr => ?_, fun he hb hr => ?_, fun he hb => deliver_idle_busy r hf he hb, fun he hr => ?_,
    fun he hr => ?_⟩
  · rw [deliver_idle_free r hf he hb, markerResult_sof (s := s.enter.answer (.read r)) hr]
    simp [beginFrame, State.enter, State.answer, he]
  · rw [deliver_idle_free r hf he hb, markerResult_other (s := s.enter.answer (.read r)) hr]
    simp [endPoll, State.enter, State.answer, he, hb, hf]
  · rw [deliver_entered r hf he, markerResult_sof (s := s.answer (.read r)) hr]
    rfl
  · rw [deliver_entered r hf he, markerResult_other (s := s.answer (.read r)) hr]
    simp [endPoll, State.answer, hf]

/-! ### The bytes of the frame header -/

/-- Settles O18: the byte is captured; without it the poll ends and nothing is sent. -/
theorem sequenceByteIsCaptured : Obligations.SequenceByteIsCaptured :=
  fun _ hf => ⟨fun v => deliver_readSeq (.byte v) hf, deliver_readSeq .timeout hf, deliver_readSeq .escError hf⟩

/-- A state that answers a failed read with the timeout exit of its line (R266, R267). -/
theorem failedRead_exits {s : State} {line : Half}
    (h : ∀ r, r = .timeout ∨ r = .escError → deliver r s = .next (rxFail line (s.answer (.read r)))) :
    ∀ r : RdResult, r = .timeout ∨ r = .escError → ∃ t, exec r.instr s = .next t ∧ ErrorExit s t .timeout line :=
  fun r hr => ⟨_, (exec_readResult r s).trans (h r hr), raise_errorExit .timeout line (s.answer (.read r))⟩

theorem cmdResult_inRange {v : Byte} {s : State} (h : v.toNat < s.cfg.tableSize) :
    cmdResult (.byte v) s = (captureCmd v s).setFp .readLength := if_neg (Nat.not_le.2 h)

theorem cmdResult_outside {v : Byte} {s : State} (h : s.cfg.tableSize ≤ v.toNat) :
    cmdResult (.byte v) s = outOfBounds s.cfg.lineOob (captureCmd v s) := if_pos h

/-- Settles O19: the byte is captured, and only then compared with the size of the table. -/
theorem commandByteIsRangeChecked : Obligations.CommandByteIsRangeChecked := by
  intro s hf
  refine ⟨fun v hv => ?_, fun v hv => ?_, failedRead_exits ?_⟩
  · exact (deliver_readCmdOffset (.byte v) hf).trans (congrArg _ (cmdResult_inRange hv))
  · exact ⟨_, (deliver_readCmdOffset (.byte v) hf).trans (congrArg _ (cmdResult_outside hv)),
      raise_errorExit .oob s.cfg.lineOob (captureCmd v (s.answer (.read (.byte v))))⟩
  · rintro r (rfl | rfl) <;> exact deliver_readCmdOffset _ hf

/-- Settles O20: no length is out of range, for `BUF` holds any of them. -/
theorem lengthByteIsAccepted : Obligations.LengthByteIsAccepted := by
  intro s hf
  refine ⟨fun v => deliver_readLength (.byte v) hf, failedRead_exits ?_⟩
  rintro r (rfl | rfl) <;> exact deliver_readLength _ hf

/-! ### Payload and checksum -/

theorem payloadResult_byte {v : Byte} {s : State} (h : s.idx.toNat < Config.cap) :
    payloadResult (.byte v) s = .next (storePayload v s) := if_pos h

/-- `BUF` after a payload byte has been stored (R168). -/
theorem storePayload_bufRead {v : Byte} {s : State} (h : s.idx.toNat < Config.cap) (a : Nat) :
    (storePayload v s).bufRead a = if a = s.idx.toNat then v else s.bufRead a := by
  simp [State.bufRead, read_write, h]

theorem stepPayload_done {s : State} (h : s.idx = s.len) : stepPayload s = .next (s.setFp .readChecksum) := if_pos h

/-- Settles O21: one write to `BUF`, at `IDX`; with `IDX = LEN` no read is made. -/
theorem payloadByteIsStored : Obligations.PayloadByteIsStored := by
  intro s v hf
  refine ⟨fun hi hcap => ?_, stepPayload_done (s := s.setFp .readPayload)⟩
  have hstored := storePayload_bufRead (v := v) (s := s.answer (.read (.byte v))) hcap
  refine ⟨storePayload v (s.answer (.read (.byte v))),
    (deliver_readPayload (.byte v) hf hi).trans (payloadResult_byte hcap), rfl, ?_, fun a ha => ?_⟩
  · exact (hstored _).trans (if_pos rfl)
  · exact (hstored a).trans (if_neg ha)

theorem csumResult_equal {k : Byte} {s : State} (h : k = s.csum) : csumResult (.byte k) s = s.setFp .dispatch :=
  if_pos h

theorem csumResult_differs {k : Byte} {s : State} (h : k ≠ s.csum) :
    csumResult (.byte k) s = checksumMismatch s.cfg.lineCsumBad s := if_neg h

/-- Settles O22: the byte received is compared with the checksum accumulated. -/
theorem checksumByteIsVerified : Obligations.ChecksumByteIsVerified := by
  intro s hf
  refine ⟨?_, fun k hk => ?_, failedRead_exits ?_⟩
  · exact (deliver_readChecksum (.byte s.csum) hf).trans (congrArg _ (csumResult_equal rfl))
  · exact ⟨_, (deliver_readChecksum (.byte k) hf).trans (congrArg _ (csumResult_differs hk)),
      raise_errorExit .checksum s.cfg.lineCsumBad (s.answer (.read (.byte k)))⟩
  · rintro r (rfl | rfl) <;> exact deliver_readChecksum _ hf

end Sys2Proof.Machine
end

section
/-! SUPPORT. The micro-steps of the Frame Processor as rows of their own: `Idle` with its entry test, the reading states,
`SendReply` (R161 to R169, R174 to R178). -/

namespace Sys2Proof.Machine

/-! ### `Idle` -/

section
variable {s : State} {go : State → State}

theorem entryTest_notReady (hlink : s.link = false) : entryTest go s = s.noOp .notReady := if_pos hlink

theorem entryTest_noByte (hlink : s.link = true) (hbyte : transportAvailable s = false) :
    entryTest go s = s.noOp .noByte := by
  simp [entryTest, transportReady, hlink, hbyte]

theorem entryTest_passes (hlink : s.link = true) (hbyte : transportAvailable s = true) : entryTest go s = go s := by
  simp [entryTest, transportReady, hlink, hbyte]

end

theorem available_byte {s : State} {v : Byte} {rest : List RxEvent} (h : s.rx = .byte v :: rest) :
    transportAvailable s = true := by
  simp [transportAvailable, h]

section
variable {read : State → RdResult × State} {s : State}

theorem afterEntry_busy (hb : s.busy = true) : afterEntry read s = s.noOp .busy := if_pos hb

theorem afterEntry_free (hb : s.busy = false) : afterEntry read s = takeMarker read s.enter := if_neg (by simp [hb])

end

theorem stepIdle_entered {s : State} (he : s.entered = true) : stepIdle s = .next (takeMarker rawrd s) :=
  congrArg _ (if_pos he)

theorem stepIdle_begins {s : State} (he : s.entered = false) :
    stepIdle s = .next (entryTest (afterEntry rawrd) s) := congrArg _ (if_neg (by simp [he]))

theorem exec_fpIdle {s : State} (hf : s.fp = .idle) : exec .fpIdle s = stepIdle s :=
  congrArg stepIdle (setFp_self hf)

/-- A poll of an engine in `Idle` is the entry test and the start-marker read, then the micro-steps back to `Idle`
(R160, R161). -/
theorem poll_idle {s : State} (hf : s.fp = .idle) :
    poll s = runToIdle pollSteps (entryTest (afterEntry rawrd) s) := by
  have turnedAway : ∀ why, Host.Outcome.next (s.noOp why) = runToIdle pollSteps (s.noOp why) :=
    fun why => (runToIdle_idle (s := s.noOp why) pollSteps hf).symm
  unfold poll entryTest
  split
  · exact turnedAway _
  · split
    · exact turnedAway _
    · split
      · next hb => rw [afterEntry_busy hb]; exact turnedAway _
      · rfl

/-- Where no frame begins, the row of `Idle` and a poll are the entry test and the start-marker read alone. -/
theorem exec_idle_noFrame {s u : State} {i : Instr} (hf : s.fp = .idle)
    (hi : (i = .fpIdle ∧ s.entered = false) ∨ i = .opPoll) (hu : entryTest (afterEntry rawrd) s = u)
    (hidle : u.fp = .idle) : exec i s = .next u := by
  subst hu
  rcases hi with ⟨rfl, he⟩ | rfl
  · exact (exec_fpIdle hf).trans (stepIdle_begins he)
  · exact (poll_idle hf).trans (runToIdle_idle pollSteps hidle)

section
variable {s : State} {v : Byte} {rest : List RxEvent}

/-- A waiting `SOF` begins a frame (R163). -/
theorem takeMarker_sof (h : s.rx = .byte v :: rest) (hv : v = s.cfg.sof) :
    takeMarker rawrd s = beginFrame { s with rx := rest, tcnt := 0, result := .read (.byte v) } :=
  (takeMarker_waiting h).trans (if_pos hv)

/-- Any other waiting byte ends the poll (R163). -/
theorem takeMarker_other (h : s.rx = .byte v :: rest) (hv : v ≠ s.cfg.sof) :
    takeMarker rawrd s = endPoll (.noOp .notSof) { s with rx := rest, tcnt := 0 } :=
  (takeMarker_waiting h).trans (if_neg hv)

end

/-- Settles O26: the entry test in its order, then `BUSY`, then the start marker. -/
theorem idleTestsInOrder : Obligations.IdleTestsInOrder := by
  intro s i hf hi
  refine ⟨fun hlink => ?_, fun hlink hbyte => ?_, fun hlink hbyte hb => ?_, fun v rest hlink hrx hb hv => ?_,
    fun rest he hlink hrx hb => ?_, fun v rest he hrx => ⟨fun hv => ?_, fun hv => ?_⟩⟩
  · exact exec_idle_noFrame hf hi (entryTest_notReady hlink) hf
  · exact exec_idle_noFrame hf hi (entryTest_noByte hlink hbyte) hf
  · exact exec_idle_noFrame hf hi ((entryTest_passes hlink hbyte).trans (afterEntry_busy hb)) hf
  · have hends : entryTest (afterEntry rawrd) s = endPoll (.noOp .notSof) { s.enter with rx := rest, tcnt := 0 } :=
      ((entryTest_passes hlink (available_byte hrx)).trans (afterEntry_free hb)).trans (takeMarker_other hrx hv)
    rw [exec_idle_noFrame hf hi hends rfl]
    simp [endPoll, State.enter, hf, hb]
  · rw [exec_fpIdle hf, stepIdle_begins he, entryTest_passes hlink (available_byte hrx), afterEntry_free hb,
      takeMarker_sof (s := s.enter) hrx rfl]
    simp [beginFrame, State.enter, he]
  · rw [exec_fpIdle hf, stepIdle_entered he, takeMarker_sof hrx hv]
    rfl
  · rw [exec_fpIdle hf, stepIdle_entered he, takeMarker_other hrx hv]
    simp [endPoll, hf]

/-! ### The reading states -/

/-- A reading state with a byte still to be read makes one read (R164 to R169). -/
theorem fpStep_reads {s : State} (hb : s.fp.readsBody = true) (hi : s.bytesLeft) : fpStep s = stepRead s := by
  unfold fpStep
  cases hf : s.fp
  case readPayload => exact if_neg (hi hf)
  case idle | dispatch | sendReply => rw [hf] at hb; cases hb
  all_goals rfl

/-- A read leaves the payload index and the length alone. -/
theorem dec_payloadIndex (s : State) : (dec s).2.idx = s.idx ∧ (dec s).2.len = s.len := by
  obtain ⟨rx, k, n, -, -, -, hstate⟩ := dec_cases s
  rw [hstate]
  exact ⟨rfl, rfl⟩

/-- Settles O27: one `DEC`, whose result is taken as the row of it takes it. -/
theorem readingStatesDecodeOnce : Obligations.ReadingStatesDecodeOnce := by
  intro s f hb hp
  obtain ⟨hidx, hlen⟩ := dec_payloadIndex s
  have hroom : ((dec s).2.setFp f).payloadRoom := fun hf => .inr (hidx ▸ (hp hf).2)
  obtain ⟨t, ht⟩ := deliver_completes (dec s).1 ((dec s).2.setFp f) hroom
  refine ⟨t, ?_, (exec_readResult _ _).trans ht⟩
  calc exec f.instr s = fpStep (s.setFp f) := exec_fpState f s
    _ = stepRead (s.setFp f) := fpStep_reads hb fun hf => (hp hf).1
    _ = deliver (dec s).1 ((dec s).2.setFp f) := by unfold stepRead; rw [dec_setFp]
    _ = .next t := ht

/-! ### `SendReply` -/

theorem lengthByte_range (b : PayloadBuffer) (n : Byte) : lengthByte (b.range 0 n.toNat) = n := by
  rw [lengthByte, range_length, BitVec.ofNat_toNat, BitVec.setWidth_eq]

/-- Settles O29: the reply is one frame, and the exit of the poll follows. -/
theorem replyIsSentAndThePollEnds : Obligations.ReplyIsSentAndThePollEnds := by
  intro s
  refine ⟨stepSendReply (s.setFp .sendReply), _, rfl, rfl, stepSendReply_frameSent (s := s.setFp .sendReply) rfl,
    fun hall => ?_⟩
  have hregs := sendFrame_registers .sof s.seq s.ret (s.buf.range 0 s.len.toNat) (s.setFp .sendReply) hall
  rw [frameChecksum, lengthByte_range] at hregs
  exact hregs

end Sys2Proof.Machine
end

section
/-! SUPPORT. Whole polls: that each ends (R175, R265, R278), and a request outside the table (R166, R180). -/

namespace Sys2Proof.Machine

/-! ### Every poll ends -/

/-- A poll past its entry test (R161, R162). -/
theorem poll_pollable {s : State} (h : s.pollable = true) :
    poll s = runToIdle pollSteps (takeMarker rawrd s.enter) := by
  simp only [State.pollable, Bool.and_eq_true, Bool.not_eq_true'] at h
  obtain ⟨⟨hlink, hbyte⟩, hb⟩ := h
  rw [← afterEntry_free (read := rawrd) hb]
  simp [poll, transportReady, hlink, hbyte, hb]

/-- After the start marker a poll has the micro-steps of one frame left, or none (R163, R179). -/
theorem takeMarker_tidy (read : State → RdResult × State) (s : State) :
    (takeMarker read s).tidy ∧ (takeMarker read s).left ≤ pollSteps := by
  rcases takeMarker_cases read s with ⟨q, h⟩ | ⟨q, st, h⟩
  · rw [h]
    exact ⟨⟨nofun, nofun⟩, le_refl 261⟩
  · rw [h]
    exact ⟨⟨fun _ => rfl, nofun⟩, Nat.zero_le _⟩

/-- Settles O31: each micro-step brings the end closer, and keeps what a poll may not change. -/
theorem pollAlwaysReturnsToIdle : Obligations.PollAlwaysReturnsToIdle := by
  intro s hp
  have hrow : exec .opPoll s = runToIdle pollSteps (takeMarker rawrd s.enter) := poll_pollable hp
  obtain ⟨htidy, hleft⟩ := takeMarker_tidy rawrd s.enter
  obtain ⟨hends, hcompletes⟩ := runToIdle_ends pollSteps htidy hleft
  have hcfg : (takeMarker rawrd s.enter).cfg = s.cfg := (keeps_takeMarker s.enter (keeps_rawrd s.enter)).cfg
  rw [hcfg, ← hrow] at hcompletes
  refine ⟨fun t ht => ?_, fun hl => (hcompletes hl).weaken, fun hl hb => (hcompletes hl).builtins hb⟩
  have hk : Keeps s t := keeps_poll ht
  rw [hrow] at ht
  obtain ⟨hfp, hbusy⟩ := hends t ht
  exact ⟨hfp, hbusy, runToIdle_entered pollSteps ht (takeMarker_entered rawrd s.enter), hk.rx, hk.tx, hk.sifseq,
    hk.sif, hk.link, hk.inputs⟩

/-! ### A request outside the table -/

/-- The command byte, outside the table: the exit, with everything behind it still queued (R166, R180). -/
theorem fpStep_cmdOutside {u : State} {c : Byte} {rest : List RxEvent} (hf : u.fp = .readCmdOffset)
    (hc : u.cfg.tableSize ≤ c.toNat) (hrx : u.rx = (escapeByte u.cfg c).map .byte ++ rest) :
    fpStep u = .next (outOfBounds u.cfg.lineOob
      (captureCmd c { u with rx := rest, tcnt := 0, result := .read (.byte c) })) := by
  rw [fpStep_reads (by rw [hf]; rfl) (bytesLeft_of_ne (by rw [hf]; decide)), stepRead_byte hrx,
    deliver_readCmdOffset (s := afterRead u rest 0 u.tasks) _ hf]
  exact congrArg _ (cmdResult_outside (s := (afterRead u rest 0 u.tasks).answer _) hc)

/-- From the state after the start marker, two micro-steps to the exit (R164 to R166). -/
theorem runToIdle_outside {u : State} {q c : Byte} {body : List Byte} {tail : List RxEvent} (n : Nat)
    (hf : u.fp = .readSeq) (hc : u.cfg.tableSize ≤ c.toNat)
    (hrx : u.rx = (escapeBody u.cfg (q :: c :: body)).map .byte ++ tail) :
    runToIdle (n + 2) u = .next (outOfBounds u.cfg.lineOob (captureCmd c { u with
      rx := (escapeBody u.cfg body).map .byte ++ tail, tcnt := 0, seq := q, seqv := true, csum := q
      fp := .readCmdOffset, result := .read (.byte c) })) := by
  rw [escapeBody_cons] at hrx
  calc runToIdle (n + 2) u = runToIdle (n + 1) { u with
          rx := (escapeBody u.cfg (c :: body)).map .byte ++ tail, tcnt := 0, seq := q, seqv := true, csum := q
          fp := .readCmdOffset, result := .read (.byte q) } :=
        runToIdle_step (n + 1) (by rw [hf]; decide) (fpStep_seq hf hrx)
    _ = runToIdle n _ := runToIdle_step n nofun (fpStep_cmdOutside rfl hc (escapeBody_cons _ _ _ _))
    _ = _ := runToIdle_idle n rfl

/-- Settles O34: sequence and command are read, and the exit of the range check ends the poll. -/
theorem outOfRangeExchange : Obligations.OutOfRangeExchange := by
  intro s seq cmd csum payload _ hp hc hlink hb
  have hrow : exec (.frameReq seq cmd payload csum) s =
      poll (s.offer (escapeFrame s.cfg (s.cfg.sof :: seq :: cmd :: lengthByte payload :: (payload ++ [csum])))) :=
    withData_passes hp
  exact ⟨_, (hrow.trans (poll_frame hlink hb)).trans (runToIdle_outside 259 rfl hc rfl), raise_errorExit _ _ _⟩

end Sys2Proof.Machine
end

section
/-! SUPPORT. `GETMAP` and the image of the name table: the names that fit whole (R207, R208). -/

namespace Sys2Proof.Machine

/-! ### Serialising names -/

/-- A name that fits whole is written with its NUL, and the others follow it (R207). -/
theorem serialiseNames_fits {pos : Nat} {name : List Byte} (names : List (List Byte))
    (h : pos + name.length + 1 ≤ Config.cap) :
    serialiseNames pos (name :: names) = ((serialiseNames (pos + name.length + 1) names).1,
      name ++ 0 :: (serialiseNames (pos + name.length + 1) names).2) :=
  if_neg (Nat.not_lt.2 h)

/-- A name that does not fit whole ends the listing, and nothing of it is written (R207). -/
theorem serialiseNames_tooLong {pos : Nat} {name : List Byte} (names : List (List Byte))
    (h : Config.cap < pos + name.length + 1) : serialiseNames pos (name :: names) = (false, []) :=
  if_pos h

/-- The listing goes through the names that fit, and on with the rest behind their image. -/
theorem serialiseNames_append {pos : Nat} {fit : List (List Byte)} (rest : List (List Byte))
    (h : pos + (fit.flatMap (· ++ [0])).length ≤ Config.cap) :
    serialiseNames pos (fit ++ rest) =
      ((serialiseNames (pos + (fit.flatMap (· ++ [0])).length) rest).1,
        fit.flatMap (· ++ [0]) ++ (serialiseNames (pos + (fit.flatMap (· ++ [0])).length) rest).2) := by
  induction fit generalizing pos with
  | nil => rfl
  | cons name names ih =>
    have hlen : pos + ((name :: names).flatMap (· ++ [0])).length =
        pos + name.length + 1 + (names.flatMap (· ++ [0])).length := by
      rw [List.flatMap_cons, List.length_append, List.length_append, List.length_singleton]
      omega
    rw [hlen] at h ⊢
    rw [List.cons_append, serialiseNames_fits _ ((Nat.le_add_right _ _).trans h), ih h]
    simp

/-! ### The image of the name table -/

section
variable {c : Config} {k : Nat}

theorem namesImage_succ (c : Config) (k : Nat) :
    namesImage c (k + 1) = namesImage c k ++ ((c.names.drop k).take 1).flatMap (· ++ [0]) := by
  unfold namesImage
  rw [List.take_add, List.flatMap_append]

/-- While the first `k` names fit, the listing starts with their image. -/
theorem serialiseNames_drop (h : (namesImage c k).length ≤ Config.cap) :
    serialiseNames 0 c.names = ((serialiseNames (namesImage c k).length (c.names.drop k)).1,
      namesImage c k ++ (serialiseNames (namesImage c k).length (c.names.drop k)).2) := by
  have happend := serialiseNames_append (pos := 0) (fit := c.names.take k) (c.names.drop k) (by rwa [Nat.zero_add])
  rwa [List.take_append_drop, Nat.zero_add] at happend

theorem serialiseNames_allFit (h : (namesImage c c.names.length).length ≤ Config.cap) :
    serialiseNames 0 c.names = (true, namesImage c c.names.length) := by
  rw [serialiseNames_drop h, List.drop_length]
  simp [serialiseNames]

/-- The first `k` names fit and the next one does not: the listing is theirs, and reports that it is cut short. -/
theorem serialiseNames_cutShort (h : (namesImage c k).length ≤ Config.cap)
    (hnext : Config.cap < (namesImage c (k + 1)).length) :
    serialiseNames 0 c.names = (false, namesImage c k) := by
  rw [namesImage_succ] at hnext
  rw [serialiseNames_drop h]
  cases hrest : c.names.drop k with
  | nil =>
    simp only [hrest, List.take_nil, List.flatMap_nil, List.append_nil] at hnext
    exact absurd h (Nat.not_le.2 hnext)
  | cons name names =>
    have hname : Config.cap < (namesImage c k).length + name.length + 1 := by
      simpa [hrest, Nat.add_assoc] using hnext
    rw [serialiseNames_tooLong names hname, List.append_nil]

end

/-! ### `GETMAP` -/

section
variable {s : State}

theorem getmap_absent (hn : s.cfg.hasNames = false) : getmap s = .refused .featureAbsent := if_pos hn

/-- `GETMAP` when a name does not fit (R207, R208). -/
theorem getmap_cutShort {image : List Byte} (hn : s.cfg.hasNames = true)
    (h : serialiseNames 0 s.cfg.names = (false, image)) :
    getmap s = .next (handlerReturn s.cfg.retFail (lengthByte image) (s.bufWriteAll 0 image)) := by
  simp [getmap, hn, h]

end

/-- Settles O40: the names that fit are listed whole; what comes behind them, nothing or a name too long, decides the
return code. -/
theorem getmapListsWholeNames : Obligations.GetmapListsWholeNames := by
  intro s
  refine ⟨fun hn => congrArg boundedDone (getmap_absent hn), fun k hn _ hfit => ⟨?_, fun hnext => ?_⟩⟩
  · rintro rfl
    exact congrArg boundedDone (getmap_allFit hn (serialiseNames_allFit hfit))
  · exact congrArg boundedDone (getmap_cutShort hn (serialiseNames_cutShort hfit hnext))

end Sys2Proof.Machine
end

section
/-! SUPPORT. The blob and `PROPS` as Chunked handlers (R229 to R231): their two sides over runs of bytes in `BUF` and in
the store, and `MANY`'s two rejections (R222, R227). -/

namespace Sys2Proof.Machine

/-! ### A byte of a run that was written -/

theorem read_writeAll_inside (b : PayloadBuffer) {a k : Nat} {vs : List Byte} (hk : k < vs.length)
    (hcap : a + k < Config.cap) : (b.writeAll a vs).read (a + k) = vs.getD k 0 := by
  rw [read_writeAll, if_pos ⟨Nat.le_add_right a k, Nat.add_lt_add_left hk a, hcap⟩, Nat.add_sub_cancel_left]

theorem storeRead_storeWriteAll_inside (m : Memory) {a k : Nat} {vs : List Byte} (hk : k < vs.length) :
    storeRead (storeWriteAll m a vs) (a + k) = vs.getD k 0 := by
  rw [storeRead_storeWriteAll, if_pos ⟨Nat.le_add_right a k, Nat.add_lt_add_left hk a⟩, Nat.add_sub_cancel_left]

theorem storeRead_storeWriteAll_outside (m : Memory) {a k : Nat} {vs : List Byte} (h : k < a ∨ a + vs.length ≤ k) :
    storeRead (storeWriteAll m a vs) k = storeRead m k := by
  rw [storeRead_storeWriteAll, if_neg (by omega)]

theorem storeRange_getD (m : Memory) {a n k : Nat} (h : k < n) : (storeRange m a n).getD k 0 = storeRead m (a + k) := by
  simp [storeRange, List.getD_eq_getElem?_getD, h]

@[simp] theorem chunkRange_length (s : State) (n : Nat) : (chunkRange s n).length = n := range_length _ _ _

/-! ### The write side -/

section
variable {s : State} {base size : Nat} {writable isLast : Bool} {off : Offset} {clen : Byte}

/-- A write that is allowed and fits stores the chunk, and answers success with an empty chunk (R230). -/
theorem blobWrite_stores (hw : writable = true) (hfit : off.toNat + clen.toNat ≤ size) :
    blobWrite base size writable isLast off clen s =
      ({ ret := Config.retOk, isLast := isLast, off := off, clen := 0 },
        s.setStore (storeWriteAll s.store (base + off.toNat) (chunkRange s clen.toNat))) := by
  unfold blobWrite
  rw [if_neg (by simpa [hw] using hfit)]

/-- A write that is not allowed or does not fit changes nothing (R230). -/
theorem blobWrite_fails (h : writable = false ∨ size < off.toNat + clen.toNat) :
    blobWrite base size writable isLast off clen s = (writeFailure s.cfg isLast off, s) := if_pos h

end

/-! ### The read side -/

section
variable {s : State} {size n : Nat} {off : Offset} {bytes : List Byte}

/-- An offset past the end fails with isLast set (R230). -/
theorem blobRead_pastEnd (h : size < off.toNat) : blobRead size off bytes s = (readFailure s.cfg off, s) := if_pos h

/-- A read within the object answers the count and whether the end is reached, and writes the chunk (R230). -/
theorem blobRead_within (h : off.toNat ≤ size) (hn : n = readCount size off.toNat) :
    blobRead size off bytes s =
      ({ ret := Config.retOk, isLast := decide (size ≤ off.toNat + n), off := off, clen := BitVec.ofNat 8 n },
        s.chunkWrite (bytes.take n)) := by
  unfold blobRead
  rw [if_neg (Nat.not_lt.2 h), hn]

/-- The first `n` bytes of `bytes` are in the chunk, and the rest of `BUF` is as it was (R44, R230). -/
theorem chunkWrite_take (s : State) (hn : n ≤ Config.chunkMax) (hlen : n ≤ bytes.length) :
    (∀ k, k < n → (s.chunkWrite (bytes.take n)).bufRead (6 + k) = bytes.getD k 0) ∧
    ∀ a, a < 6 ∨ 6 + n ≤ a → (s.chunkWrite (bytes.take n)).bufRead a = s.bufRead a := by
  have htake : (bytes.take n).length = n := List.length_take_of_le hlen
  have hmax : n ≤ 249 := hn
  refine ⟨fun k hk => ?_, fun a ha => ?_⟩
  · have hread : (s.chunkWrite (bytes.take n)).bufRead (6 + k) = (bytes.take n).getD k 0 :=
      read_writeAll_inside s.buf (htake.symm ▸ hk) (by show 6 + k < 255; omega)
    rw [hread, List.getD_eq_getElem?_getD, List.getElem?_take_of_lt hk, ← List.getD_eq_getElem?_getD]
  · exact read_writeAll_outside s.buf 6 (bytes.take n) a (htake.symm ▸ ha)

/-- A read within the object, made by itself: the first bytes of the object from the offset on are in the chunk, and
nothing but the chunk and the result port differs (R44, R230). -/
theorem blobRead_delivers (s : State) (h : off.toNat ≤ size) (hn : n = readCount size off.toNat)
    (hlen : n ≤ bytes.length) :
    ∃ t, chunkedDone (.next (blobRead size off bytes s)) = .next t ∧
      t = { s with buf := t.buf
                   result := .chunked 0 (decide (size ≤ off.toNat + n)) off (BitVec.ofNat 8 n) } ∧
      (∀ k, k < n → t.bufRead (6 + k) = bytes.getD k 0) ∧ ∀ a, a < 6 ∨ 6 + n ≤ a → t.bufRead a = s.bufRead a :=
  ⟨_, congrArg (chunkedDone ∘ .next) (blobRead_within h hn), rfl,
    chunkWrite_take s (hn ▸ Nat.min_le_left _ _) hlen⟩

end

/-! ### The operations -/

section
variable {s : State} {isLast : Bool} {off : Offset} {clen : Byte}

theorem exec_opChBlob_write {base size : BitVec 40} {writable : Bool} (hm : s.cfg.hasMany = true)
    (hc : clen.toNat ≤ 249) :
    exec (.opChBlob base size writable isLast true off clen) s =
      chunkedDone (.next (blobWrite base.toNat size.toNat writable isLast off clen s)) :=
  withChunk_passes hm hc

theorem exec_opChBlob_read {base size : BitVec 40} {writable : Bool} (hm : s.cfg.hasMany = true)
    (hc : clen.toNat ≤ 249) :
    exec (.opChBlob base size writable isLast false off clen) s =
      chunkedDone (.next (blobRead size.toNat off
        (storeRange s.store (base.toNat + off.toNat) (readCount size.toNat off.toNat)) s)) :=
  withChunk_passes hm hc

theorem exec_opProps {isWrite : Bool} (hm : s.cfg.hasMany = true) (hp : s.cfg.hasProps = true)
    (hc : clen.toNat ≤ 249) :
    exec (.opProps isLast isWrite off clen) s = chunkedDone (.next (props isLast isWrite off s)) :=
  (withChunk_passes hm hc).trans (congrArg chunkedDone (if_neg (by simp [hp])))

end

/-- The property object, pair by pair (R229). -/
theorem propsObject_eq (c : Config) : propsObject c = c.props.flatMap (fun p => p.1 ++ [0] ++ p.2 ++ [0]) := by
  simp [propsObject]

/-- Settles O47: the two answers of the write side, and the store read back inside and outside the run written. -/
theorem blobWriteStoresTheChunk : Obligations.BlobWriteStoresTheChunk := by
  intro s base size writable isLast off clen hm hc
  refine ⟨fun hw hfit => ?_, fun hbad => ?_⟩
  · refine ⟨_, (exec_opChBlob_write hm hc).trans (congrArg (chunkedDone ∘ .next) (blobWrite_stores hw hfit)), rfl,
      fun k hk => ?_, fun a ha => ?_⟩
    · calc storeRead (storeWriteAll s.store (base.toNat + off.toNat) (chunkRange s clen.toNat))
            (base.toNat + off.toNat + k)
          = (chunkRange s clen.toNat).getD k 0 := storeRead_storeWriteAll_inside _ (by simpa using hk)
        _ = s.bufRead (6 + k) := range_getD _ _ _ _ hk
    · exact storeRead_storeWriteAll_outside _ (by simpa using ha)
  · exact (exec_opChBlob_write hm hc).trans (congrArg (chunkedDone ∘ .next) (blobWrite_fails hbad))

/-- Settles O48: the two answers of the read side, over the run of the store at the offset. -/
theorem blobReadDeliversTheChunk : Obligations.BlobReadDeliversTheChunk := by
  intro s base size writable isLast off clen n hm hc hn
  have hcount : n = readCount size.toNat off.toNat := hn
  rw [exec_opChBlob_read hm hc, ← hcount]
  refine ⟨fun hoff => ?_, fun hpast => congrArg (chunkedDone ∘ .next) (blobRead_pastEnd hpast)⟩
  obtain ⟨t, hread, hframe, hchunk, hrest⟩ := blobRead_delivers
    (bytes := storeRange s.store (base.toNat + off.toNat) n) s hoff hcount (storeRange_length _ _ _).ge
  exact ⟨t, hread, hframe, fun k hk => (hchunk k hk).trans (storeRange_getD _ hk), hrest⟩

/-- Settles O49: a read at the offset of a write delivers at least its chunk, from the store the write left. -/
theorem blobReadsBackWhatWasWritten : Obligations.BlobReadsBackWhatWasWritten := by
  intro s base size isLast isLast' off clen clen' hm hc hc' hfit
  obtain ⟨t, hwrite, hframe, hstored, -⟩ :=
    (blobWriteStoresTheChunk s base size true isLast off clen hm hc).1 rfl hfit
  refine ⟨t, hwrite, fun s' hstore hcfg => ?_⟩
  have hm' : s'.cfg.hasMany = true := by rw [hcfg, hframe]; exact hm
  obtain ⟨u, hread, -, hchunk, -⟩ :=
    (blobReadDeliversTheChunk s' base size true isLast' off clen' _ hm' hc' rfl).1 (by omega)
  refine ⟨u, hread, fun k hk => ?_⟩
  calc u.bufRead (6 + k) = storeRead s'.store (base.toNat + off.toNat + k) := hchunk k (by omega)
    _ = storeRead t.store (base.toNat + off.toNat + k) := by rw [hstore]
    _ = s.bufRead (6 + k) := hstored k hk

/-- Settles O50: the read side of a blob over the property object, and a write turned away. -/
theorem propsServesItsObject : Obligations.PropsServesItsObject := by
  intro s isLast off clen obj n hm hp hc hobj hn
  rw [← propsObject_eq] at hobj
  have hexec : exec (.opProps isLast false off clen) s =
      chunkedDone (.next (blobRead obj.length off (obj.drop off.toNat) s)) := by
    rw [hobj]
    exact exec_opProps hm hp hc
  refine ⟨fun hoff => ?_, fun hpast => ?_, exec_opProps hm hp hc⟩
  · have hlen : n ≤ (obj.drop off.toNat).length := by rw [List.length_drop]; omega
    obtain ⟨t, hread, hframe, hchunk, hrest⟩ := blobRead_delivers s hoff hn hlen
    refine ⟨t, hexec.trans hread, hframe, fun k hk => ?_, hrest⟩
    have hk' : k < (obj.drop off.toNat).length := Nat.lt_of_lt_of_le hk hlen
    calc some (t.bufRead (6 + k)) = some ((obj.drop off.toNat).getD k 0) := congrArg some (hchunk k hk)
      _ = (obj.drop off.toNat)[k]? := by rw [List.getD_eq_getElem _ _ hk', List.getElem?_eq_getElem hk']
      _ = obj[off.toNat + k]? := List.getElem?_drop
  · exact hexec.trans (congrArg (chunkedDone ∘ .next) (blobRead_pastEnd hpast))

/-! ### MANY turned away -/

/-- `MANY` with an index outside the Chunked table (R222). -/
theorem many_outside {s : State} (hm : s.cfg.hasMany = true) (hlen : Config.header ≤ s.len.toNat)
    (h : s.cfg.ct.length ≤ (s.bufRead 0).toNat) :
    many s = .next (handlerReturn s.cfg.retOob 0 (s.setMidx (s.bufRead 0))) := by
  unfold many
  rw [if_neg (by simp [hm]), if_neg (Nat.not_lt.2 hlen)]
  simp [List.getElem?_eq_none h]

/-- Settles O43: the two tests of `MANY` before it calls a handler. -/
theorem manyRejects : Obligations.ManyRejects := fun _ hm =>
  ⟨fun hshort => congrArg boundedDone (many_short hm hshort),
    fun hlen hindex => congrArg boundedDone (many_outside hm hlen hindex)⟩

end Sys2Proof.Machine
end

section
/-! SUPPORT. That every step of the engine under its invariant completes, but for an application Chunked handler that
breaks its bound (R225, R265, R278). -/

namespace Sys2Proof.Machine

/-- Past the start marker a state that meets the invariant is tidy: its payload index has not passed the length. -/
theorem EngineInv.tidy {s : State} (h : EngineInv s) (hf : s.fp ≠ .idle) : s.tidy :=
  ⟨fun hidle => absurd hidle hf, h.index⟩

theorem EngineInv.fpStep_completes {s : State} (h : EngineInv s) : CompletesOrFaults s.cfg (fpStep s) := by
  by_cases hf : s.fp = .idle
  · refine .inl ?_
    unfold fpStep
    rw [hf]
    exact ⟨_, rfl⟩
  · exact (closer_fpStep (h.tidy hf) hf).2 h.data.legal

/-- Each of the two agents, and the entry of a poll, completes its micro-step. -/
theorem EngineInv.advance_completes {s : State} (h : EngineInv s) : CompletesOrFaults s.cfg (advance s) := by
  cases hj : s.sif with
  | some j => exact .inl ⟨_, advance_sif hj⟩
  | none =>
    by_cases hp : s.polling
    · rw [advance_polling hj hp, exec_currentState]
      exact h.fpStep_completes
    · obtain ⟨hf, he⟩ := not_polling hp
      exact .inl ⟨_, advance_idle hj hf he⟩

/-- What the outside does completes, but for a word and a SIF trigger, which the engine may refuse. -/
theorem EngineInv.applyInput_completes {s : State} (h : EngineInv s) {i : Input}
    (hword : ∀ l bytes, i ≠ .word l bytes) (hsif : ∀ x data, i ≠ .sif x data) :
    CompletesOrFaults s.cfg (applyInput i s) := by
  cases i with
  | word l bytes => exact absurd rfl (hword l bytes)
  | sif x data => exact absurd rfl (hsif x data)
  | run => exact h.advance_completes
  | link | arrive | elapse | answers => exact .inl ⟨_, rfl⟩

theorem EngineInv.step_completes {s : State} (h : EngineInv s) (hsif : ∀ x d rest, s.inputs ≠ .sif x d :: rest) :
    CompletesOrFaults s.cfg (step s) := by
  cases hi : s.inputs with
  | nil =>
    rw [step_nil h.data.legal hi]
    exact h.advance_completes
  | cons i rest =>
    rw [step_cons h.data.legal hi]
    obtain ⟨hword, hrest⟩ := triggersOnly_cons h.triggers hi
    have hs : EngineInv (s.setInputs rest) := h.environment (dataInv_congr h.data rfl rfl rfl rfl) hrest rfl
    refine hs.applyInput_completes hword fun x data hx => hsif x data rest ?_
    rw [hi, hx]

/-- Settles O60: the fault is an application handler's, and there is none among the built-in ones. -/
theorem engineNeverStops : Obligations.EngineNeverStops := fun _ h hsif =>
  ⟨(h.step_completes hsif).weaken, (h.step_completes hsif).builtins⟩

end Sys2Proof.Machine
end

section
/-! SUPPORT. The busy flag as operations of its own (R241, R242), `SIFSEND` and its two halves (R243 to R245), and that
a SIF send and a poll exclude each other (R246, R247). -/

namespace Sys2Proof.Machine

/-! ### The busy flag -/

theorem tas_free {s : State} (hb : s.busy = false) : tas s = (true, s.setBusy true) := if_neg (by simp [hb])

theorem tas_held {s : State} (hb : s.busy = true) : tas s = (false, s) := if_pos hb

/-- The row is `TAS` itself, with its answer on the result port (entry 9). -/
theorem exec_opTas {s u : State} {ok : Bool} (h : tas s = (ok, u)) : exec .opTas s = .next (u.answer (.flag ok)) :=
  congrArg (fun r : Bool × State => Host.Outcome.next (r.2.answer (.flag r.1))) h

/-- Settles O52: `TAS` on a free and on a held flag, and `REL` by definition. -/
theorem testAndSetAndRelease : Obligations.TestAndSetAndRelease := fun _ =>
  ⟨fun hb => exec_opTas (tas_free hb), fun hb => exec_opTas (tas_held hb), rfl⟩

/-! ### The halves of a SIF send -/

section
variable {s : State} {x : Byte} {data : List Byte}

theorem sifWhole_busy (hb : s.busy = true) : sifWhole x data s = s.answer (.send .busy) := if_pos hb

/-- A send that finds the flag free is its `TAS` and count, then the frame and `REL` (R243, R244). -/
theorem sifWhole_free (hb : s.busy = false) :
    sifWhole x data s = sifFinish ⟨s.sifseq, x, data⟩ (sifTake x data s) := by
  simp [sifWhole, sifBegin, hb]

/-- The second half of a SIF send: the frame of the job it took, with the flag released and the job done (R243). -/
theorem sifFinish_frameSent (j : SifJob) (s : State) :
    FrameSent { s with busy := false, sif := none } (sifFinish j s) (rawFrame s.cfg .sos j.seq j.cmd j.data)
      (.send (if takesAll s (rawFrame s.cfg .sos j.seq j.cmd j.data) then .sent else .cutShort)) := by
  obtain ⟨hresult, hstate⟩ := sendFrame_spec .sos j.seq j.cmd j.data s
  rw [← hresult]
  exact congrArg (endSif (sendFrame .sos j.seq j.cmd j.data s).1) hstate

/-- From a free flag `TAS` and `REL` together leave the flag as it was, and the counter one up (R243, R244). -/
theorem sifTake_released (x : Byte) (data : List Byte) (hb : s.busy = false) :
    { sifTake x data s with busy := false, sif := none } = { s with sifseq := s.sifseq + 1, sif := none } := by
  rw [← hb]
  rfl

/-- On a link that is down the start marker already fails, so nothing of a frame is begun (R245). -/
theorem sendFrame_down {m : Marker} {seq : Byte} (hlink : s.link = false) :
    sendFrame m seq x data s = (.cutShort, s) := by
  have hmarker : transportTx (markerValue s.cfg m) s = (false, s) := if_neg (by simp [hlink])
  have hbytes : sendBytes m seq x data s = (false, s) := by simp [sendBytes, andThen, hmarker]
  simp [sendFrame, hbytes]

theorem sifFinish_down {j : SifJob} (hlink : s.link = false) : sifFinish j s = endSif .cutShort s := by
  simp [sifFinish, sendFrame_down hlink]

/-! ### A SIF send as a whole -/

theorem sifWhole_frameSent (hb : s.busy = false) :
    FrameSent { s with sifseq := s.sifseq + 1, sif := none } (sifWhole x data s) (rawFrame s.cfg .sos s.sifseq x data)
      (.send (if takesAll s (rawFrame s.cfg .sos s.sifseq x data) then .sent else .cutShort)) := by
  rw [sifWhole_free hb, ← sifTake_released x data hb]
  exact sifFinish_frameSent ⟨s.sifseq, x, data⟩ (sifTake x data s)

theorem sifWhole_down (hb : s.busy = false) (hlink : s.link = false) :
    sifWhole x data s = { s with sifseq := s.sifseq + 1, sif := none, result := .send .cutShort } :=
  calc sifWhole x data s = sifFinish ⟨s.sifseq, x, data⟩ (sifTake x data s) := sifWhole_free hb
    _ = endSif .cutShort (sifTake x data s) := sifFinish_down hlink
    _ = _ := congrArg (State.answer · (.send .cutShort)) (sifTake_released x data hb)

/-! ### The checks before a SIF send -/

theorem sifGuard_absent {go : State} (hs : s.cfg.hasSif = false) : sifGuard data s go = .refused .featureAbsent :=
  if_pos hs

theorem sifGuard_tooLong {go : State} (hs : s.cfg.hasSif = true) (hd : Config.cap < data.length) :
    sifGuard data s go = .refused .operandTooLong := by
  simp [sifGuard, hs, hd]

/-- `SIFSEND` and a SIF frame are one operation; the frame's own sequence number and checksum play no part (R243). -/
theorem exec_sifRow {i : Instr} {seq csum : Byte} (hi : i = .opSifsend x data ∨ i = .frameSif seq x data csum)
    (s : State) : exec i s = sifGuard data s (sifWhole x data s) := by
  rcases hi with rfl | rfl <;> rfl

end

/-- Settles O53: both rows are the two halves of a send, one after the other, behind the checks. -/
theorem sifsendSendsOrIsBusy : Obligations.SifsendSendsOrIsBusy := by
  intro s i x seq csum data hi
  rw [exec_sifRow hi]
  exact ⟨fun hs hd hb => (sifGuard_passes hs hd).trans (congrArg _ (sifWhole_busy hb)),
    fun hs hd hb => ⟨_, _, sifGuard_passes hs hd, rfl, sifWhole_frameSent hb⟩,
    fun hs hd hb hlink => (sifGuard_passes hs hd).trans (congrArg _ (sifWhole_down hb hlink)),
    sifGuard_tooLong, sifGuard_absent⟩

/-! ### A SIF send and a poll -/

/-- A poll that finds the flag held changes nothing and consumes nothing (R162). -/
theorem poll_busy {s : State} (hlink : s.link = true) (hbyte : transportAvailable s = true) (hb : s.busy = true) :
    poll s = .next (s.noOp .busy) := by
  simp [poll, transportReady, hlink, hbyte, hb]

/-- The step after a SIF trigger's `TAS` ends as the operation taken whole does (R243, R247). -/
theorem step_finishes_sif {s : State} {x : Byte} {data : List Byte} (hl : s.cfg.legal = true)
    (hi : s.inputs = []) (hb : s.busy = false) : step (sifTake x data s) = .next (sifWhole x data s) :=
  calc step (sifTake x data s) = advance (sifTake x data s) := step_nil hl hi
    _ = .next (sifFinish ⟨s.sifseq, x, data⟩ (sifTake x data s)) := advance_sif rfl
    _ = .next (sifWhole x data s) := congrArg _ (sifWhole_free hb).symm

/-- At a `run` trigger an idle engine that is ready enters a poll (R161, R162). -/
theorem step_enters_poll {s : State} {rest : List Input} (hl : s.cfg.legal = true) (hi : s.inputs = .run :: rest)
    (hsif : s.sif = none) (hf : s.fp = .idle) (he : s.entered = false) (hp : s.pollable = true) :
    step s = .next (s.setInputs rest).enter :=
  calc step s = advance (s.setInputs rest) := step_cons hl hi
    _ = .next (enterPoll (s.setInputs rest)) := advance_idle hsif hf he
    _ = .next (s.setInputs rest).enter := congrArg _ (stepIdle_enterPoll (s := s.setInputs rest) hp he).1

/-- Settles O54: whichever of the two has taken the flag, the other finds it held. -/
theorem pollAndSifExclude : Obligations.PollAndSifExclude := by
  intro s t x data rest hl hs hd
  refine ⟨fun hi hstep => ?_, fun hi hsif hf he hp => ?_⟩
  · obtain ⟨hheld, hfree⟩ := (stepServesTheOutside s rest hl).1 x data hi hs hd
    refine ⟨fun hb hlink hbyte => ?_, fun hb hrest => ?_, fun hb => ?_⟩
    · cases hstep.symm.trans (hfree hb)
      exact poll_busy hlink hbyte rfl
    · cases hstep.symm.trans (hfree hb)
      subst hrest
      exact ⟨_, step_finishes_sif (s := s.setInputs []) hl rfl hb, sifGuard_passes hs hd⟩
    · cases hstep.symm.trans (hheld hb)
      rfl
  · exact ⟨_, step_enters_poll hl hi hsif hf he hp,
      ((stepServesTheOutside (s.setInputs (.sif x data :: rest)).enter rest hl).1 x data rfl hs hd).1 rfl⟩

end Sys2Proof.Machine
end

section
/-! SUPPORT. The error exits by the names the sites know them by, and the seven sites that take them (R258, R266 to
R270, R277). -/

namespace Sys2Proof.Machine

/-! ### The three exits that send an ErrorFrame -/

/-- A failed read inside a frame, timeout or escape error alike, is answered with the timeout code (R266, R267). -/
theorem rxFail_errorExit (line : Half) (s : State) : ErrorExit s (rxFail line s) .timeout line :=
  raise_errorExit .timeout line s

theorem outOfBounds_errorExit (line : Half) (s : State) : ErrorExit s (outOfBounds line s) .oob line :=
  raise_errorExit .oob line s

theorem checksumMismatch_errorExit (line : Half) (s : State) :
    ErrorExit s (checksumMismatch line s) .checksum line :=
  raise_errorExit .checksum line s

/-! ### The sites -/

/-- Settles O37: a read that fails has four sites, a value out of range two, and a wrong checksum one; each row is its
exit at its own line, in every state. -/
theorem sitesTakeTheirExit : Obligations.SitesTakeTheirExit := fun s =>
  ⟨⟨_, rfl, rxFail_errorExit s.cfg.lineCmd s⟩,
    ⟨_, rfl, outOfBounds_errorExit s.cfg.lineOob s⟩,
    ⟨_, rfl, rxFail_errorExit s.cfg.lineLen s⟩,
    ⟨_, rfl, rxFail_errorExit s.cfg.linePayload s⟩,
    ⟨_, rfl, rxFail_errorExit s.cfg.lineCsumRd s⟩,
    ⟨_, rfl, checksumMismatch_errorExit s.cfg.lineCsumBad s⟩,
    ⟨_, rfl, outOfBounds_errorExit s.cfg.lineManyOob s⟩⟩

end Sys2Proof.Machine
end

section
/-! SUPPORT. The reads that fail past the sequence number: what a timeout and an escape error leave is one state, that of
the site's error exit (R266, R267). -/

namespace Sys2Proof.Machine

/-- The exit of a failed read does not show which failure was on the result port. -/
theorem rxFail_answer (line : Half) (s : State) (q : Result) : rxFail line (s.answer q) = rxFail line s :=
  raise_answer .timeout line s q

/-- A failed read past the sequence number leaves what the exit of its site leaves: `rxFail` at the state's own line,
of the state before the read. -/
theorem deliver_failedRead {s : State} {line : Half} {r : RdResult} (hr : r = .timeout ∨ r = .escError)
    (hsite : (s.fp = .readCmdOffset ∧ line = s.cfg.lineCmd) ∨ (s.fp = .readLength ∧ line = s.cfg.lineLen) ∨
      (s.fp = .readPayload ∧ s.idx ≠ s.len ∧ line = s.cfg.linePayload) ∨
      (s.fp = .readChecksum ∧ line = s.cfg.lineCsumRd)) :
    deliver r s = .next (rxFail line s) := by
  suffices hexit : deliver r s = .next (rxFail line (s.answer (.read r))) from
    hexit.trans (congrArg _ (rxFail_answer line s (.read r)))
  rcases hsite with ⟨hf, rfl⟩ | ⟨hf, rfl⟩ | ⟨hf, hi, rfl⟩ | ⟨hf, rfl⟩
  · rcases hr with rfl | rfl <;> exact deliver_readCmdOffset _ hf
  · rcases hr with rfl | rfl <;> exact deliver_readLength _ hf
  · rcases hr with rfl | rfl <;> exact deliver_readPayload _ hf hi
  · rcases hr with rfl | rfl <;> exact deliver_readChecksum _ hf

/-- Settles O23: either failure is the exit of the site's line, from the state before the read. -/
theorem readFailuresExit : Obligations.ReadFailuresExit := fun s line hsite =>
  ⟨rxFail line s,
    (exec_readResult .timeout s).trans (deliver_failedRead (.inl rfl) hsite),
    (exec_readResult .escError s).trans (deliver_failedRead (.inr rfl) hsite),
    rxFail_errorExit line s⟩

end Sys2Proof.Machine
end
